-- ==== Sys2Proof/Word.lean ====
section
/-! DEFINITION. The word types: a register (`REG_W = 32`, spec 00_scope.md R6), a cell of an 8-bit memory and a cell
of `BITBUF` (10_state.md R25). -/

namespace Sys2Proof

/-- A register value (`REG_W = 32`, R6). -/
abbrev Word := BitVec 32

/-- A cell of `KEYMEM`, `BYTEBUF` or `PIXMEM` (R25). -/
abbrev Byte := BitVec 8

/-- A cell of `BITBUF` (R25, R28). -/
abbrev Bit := BitVec 1

end Sys2Proof
end

