-- ==== Sys2Proof/Syntax.lean ====
section
/-! DEFINITION. The commands of spec 30_encoding.md R62, one constructor per row of the opcode table. No command has an
operand field (R61): every operand is implicit (R64). `UNMASK` is `MASK` (R73) and has no constructor of its own. -/

namespace Sys2Proof

/-- The eleven commands (R62). -/
inductive Instr where
  /-- `NOP`, word `0x00000000` (R122). -/
  | nop
  /-- `MASK`, and `UNMASK`, word `0x00000001` (R70, R73). -/
  | mask
  /-- `TOBITS`, word `0x00000002` (R80). -/
  | tobits
  /-- `TOBYTES`, word `0x00000003` (R81). -/
  | tobytes
  /-- `APPTERM`, word `0x00000004` (R90). -/
  | appterm
  /-- `DETSTRIP`, word `0x00000005` (R92). -/
  | detstrip
  /-- `CAPCHK`, word `0x00000006` (R115). -/
  | capchk
  /-- `EMBED`, word `0x00000007` (R104). -/
  | embed
  /-- `EXTRACT`, word `0x00000008` (R107). -/
  | extract
  /-- `EMBMSG`, word `0x00000009` (R120). -/
  | embmsg
  /-- `EXTMSG`, word `0x0000000A` (R121). -/
  | extmsg
deriving DecidableEq, Repr

end Sys2Proof
end

