-- ==== Sys2Proof/Config.lean ====
section
/-! DEFINITION. What an implementation fixes (the OPEN parameters of spec 00_scope.md R6) and the free values (what the
spec leaves unspecified). The fixed constants of R6, `TERM_LEN = 32`, `BITS_PER_BYTE = 8`, `CH_USED = 3`, stand as
numerals where the rules use them. -/

namespace Sys2Proof

/-- The OPEN parameters of R6. They are a field of `State` that no step changes, so a statement about every state is a
statement about every choice of them; R7's constraints are `Sizes.wf`. -/
structure Sizes where
  /-- `KEY_MAX`: cells of `KEYMEM`. -/
  keyMax : Nat
  /-- `BYTE_MAX`: cells of `BYTEBUF`. -/
  byteMax : Nat
  /-- `BIT_MAX`: cells of `BITBUF`. -/
  bitMax : Nat
  /-- `W_MAX`: the largest legal `GRID_W`. -/
  wMax : Nat
  /-- `H_MAX`: the largest legal `GRID_H`. -/
  hMax : Nat
  /-- `NCH`: channel cells stored per pixel. -/
  nch : Nat
deriving DecidableEq, Repr

/-- The four memories (10_state.md R25). -/
inductive Machine.MemId where
  | keymem
  | bytebuf
  | bitbuf
  | pixmem
deriving DecidableEq, Repr

/-- Cells of `PIXMEM` (R25). -/
def Sizes.pixCells (z : Sizes) : Nat := z.wMax * z.hMax * z.nch

/-- DESIGN CHOICE (log entry 2): the parameters of `State.reset`, the values spec 95_test_vectors.md assumes. No
statement about every state rests on them. -/
def Config.vectorSizes : Sizes :=
  { keyMax := 16, byteMax := 64, bitMax := 1024, wMax := 16, hMax := 16, nch := 3 }

/-- FREE VALUE (log entry 5): what the `n`-th read of a never-written 8-bit cell gives (R45, R157). -/
opaque Config.freeByte : Nat → Byte

/-- FREE VALUE (log entry 5): what the `n`-th read of a never-written cell of `BITBUF` gives (R45, R157). -/
opaque Config.freeBit : Nat → Bit

/-- FREE VALUE (log entry 6): whether a command interrupted when `n` free values had been drawn had written cell `a` of
the memory, a cell that it writes and that nothing had written before (R159). -/
opaque Config.tornWrote : (n : Nat) → Machine.MemId → (a : Nat) → Bool

/-- FREE VALUE (log entry 6): what that command leaves in cell `a` of the 8-bit memory; of `PIXMEM` bit 0 alone counts
where the cell held a value (R159). -/
opaque Config.tornByte : (n : Nat) → Machine.MemId → (a : Nat) → Byte

/-- FREE VALUE (log entry 6): what that command leaves in cell `a` of `BITBUF` (R159). -/
opaque Config.tornBit : (n : Nat) → (a : Nat) → Bit

end Sys2Proof
end

