-- ==== Sys2Proof/WellFormed.lean ====
section
/-! DEFINITION. Well-formedness. A command has no operand (spec 30_encoding.md R61), so there is nothing in an `Instr` to
check; the checks of this hardware are those on the parameters (00_scope.md R6, R7), one definition each. -/

namespace Sys2Proof

/-- A command has no operand that could be out of range (R61). -/
def Instr.wf : Instr → Bool := fun _ => true

/-- `1 <= KEY_MAX < 2^32` (R6). -/
def Sizes.keyOk (z : Sizes) : Bool := decide (1 ≤ z.keyMax ∧ z.keyMax < 2 ^ 32)

/-- `BYTE_MAX < 2^32` (R6). -/
def Sizes.byteOk (z : Sizes) : Bool := decide (z.byteMax < 2 ^ 32)

/-- `32 <= BIT_MAX < 2^32` (R6). -/
def Sizes.bitOk (z : Sizes) : Bool := decide (32 ≤ z.bitMax ∧ z.bitMax < 2 ^ 32)

/-- `NCH >= 3` (R6). -/
def Sizes.nchOk (z : Sizes) : Bool := decide (3 ≤ z.nch)

/-- `3 * W_MAX * H_MAX <= BIT_MAX` (R7 (a)). -/
def Sizes.scanOk (z : Sizes) : Bool := decide (3 * z.wMax * z.hMax ≤ z.bitMax)

/-- `W_MAX * H_MAX * NCH < 2^32` (R7 (b)). -/
def Sizes.gridOk (z : Sizes) : Bool := decide (z.pixCells < 2 ^ 32)

/-- The parameters are ones a block can have: the ranges of R6 and the two constraints of R7. -/
def Sizes.wf (z : Sizes) : Bool :=
  z.keyOk && z.byteOk && z.bitOk && z.nchOk && z.scanOk && z.gridOk

end Sys2Proof
end

