-- ==== Sys2Proof/Decode.lean ====
section
/-! DEFINITION. The command format `CMD32` (spec 30_encoding.md R61), the opcode map (R62) and the illegal words (R63):
the decoder, total on all words and rejecting by name, and after it the encoder. -/

namespace Sys2Proof

/-- Why a word is no command (R63). -/
inductive IllegalWord where
  /-- A bit of the field `zero`, bits 31:8, is set. -/
  | zeroFieldSet
  /-- The field `zero` is 0 and the opcode is `0x0B` to `0xFF`. -/
  | noSuchOpcode
deriving DecidableEq, Repr

/-- The field `zero`, bits 31:8 (R61). -/
def zeroField (w : Word) : BitVec 24 := w.extractLsb' 8 24

/-- The field `opcode`, bits 7:0 (R61). -/
def opcodeField (w : Word) : BitVec 8 := w.extractLsb' 0 8

/-- The opcode map (R62). -/
def decodeOpcode (op : BitVec 8) : Option Instr :=
  match op.toNat with
  | 0x00 => some .nop
  | 0x01 => some .mask
  | 0x02 => some .tobits
  | 0x03 => some .tobytes
  | 0x04 => some .appterm
  | 0x05 => some .detstrip
  | 0x06 => some .capchk
  | 0x07 => some .embed
  | 0x08 => some .extract
  | 0x09 => some .embmsg
  | 0x0A => some .extmsg
  | _ => none

/-- The decoder (R61 to R63): the whole 32-bit word must match. -/
def decode (w : Word) : Except IllegalWord Instr :=
  if zeroField w = 0 then
    match decodeOpcode (opcodeField w) with
    | some i => .ok i
    | none => .error .noSuchOpcode
  else .error .zeroFieldSet

/-- The opcode of a command (R62). -/
def opcodeOf : Instr → BitVec 8
  | .nop => 0x00
  | .mask => 0x01
  | .tobits => 0x02
  | .tobytes => 0x03
  | .appterm => 0x04
  | .detstrip => 0x05
  | .capchk => 0x06
  | .embed => 0x07
  | .extract => 0x08
  | .embmsg => 0x09
  | .extmsg => 0x0A

/-- The encoder: the word of a command, 24 zero bits above its opcode (R61). -/
def encode (i : Instr) : Word := (0 : BitVec 24) ++ opcodeOf i

/-- The command word that a table row's bits stand for: bit 0 is the least significant bit of the word, and every bit at
or above `nbits` is 0. -/
def tableWord (nbits w : Nat) : Word := BitVec.ofNat 32 (w % 2 ^ nbits)

/-- What the decoder reads from a table row's bits. -/
def decodeTableWord (nbits w : Nat) : Option Instr := (decode (tableWord nbits w)).toOption

end Sys2Proof
end

