-- ==== Sys2Proof/Machine/State.lean ====
section
/-! DEFINITION. The state of the block as plain data: the eleven registers (spec 10_state.md R12), the four memories
(R25), the parameters (00_scope.md R6), what the host and `rst` do next, and what the host has read. -/

namespace Sys2Proof.Machine

/-- A memory of `w`-bit cells: the cells written since power-on, as (index, value), the indices strictly rising
(`Memory.wf`). A cell that is not listed was never written and holds no value (R157). `Memory 8` is `List Host.Cell`. -/
abbrev Memory (w : Nat) := List (Nat × BitVec w)

/-- The outcomes of a command, the codes of `ERR` (60_exceptions.md R135). -/
inductive ErrCode where
  /-- Code 0: the command ran to its end. -/
  | none
  /-- Code 1, raised by the cipher when `KEY_LEN = 0` (R143). -/
  | invalidKey
  /-- Code 2, raised by the capacity check (R144). -/
  | capacityExceeded
  /-- Code 3, raised by a range check (R137). -/
  | bufferRange
  /-- Code 4, raised by the command decoder (R136). -/
  | illegalCommand
deriving DecidableEq, Repr

/-- One host transaction, as the pins of R33 carry it. -/
structure Txn where
  /-- `h_write`: 1 write, 0 read. -/
  write : Bool
  /-- `h_space`. -/
  space : BitVec 3
  /-- `h_index`: register number or cell index. -/
  index : Word
  /-- `h_wdata`: the write value (not looked at by a read). -/
  wdata : Word
deriving DecidableEq, Repr

/-- What the outside does next (log entries 1 and 7). -/
inductive Input where
  /-- The host offers a transaction. A `CMD` write given so runs its command to the end in one transition (R50, R60). -/
  | txn (t : Txn)
  /-- The host writes `w` to `CMD`; what happens while the command runs is given by the inputs after this one (R51,
  R159). -/
  | start (w : Word)
  /-- The host offers nothing; a running command reaches its end. -/
  | idle
  /-- `rst` is sampled 1 (R155). -/
  | reset
deriving DecidableEq, Repr

/-- The state (INVENTORY.md, heading State). -/
structure State where
  /-- The OPEN parameters (R6); no step changes them. -/
  sizes : Sizes
  /-- `CMD`, register 0 (R13). -/
  cmd : Word
  /-- `STATUS`, register 1: `BUSY` bit 0, `FOUND` bit 1 (R14). -/
  status : Word
  /-- `ERR`, register 2: the code in bits 3:0 (R15). -/
  err : Word
  /-- `KEY_LEN`, register 3 (R16). -/
  keyLen : Word
  /-- `BYTE_LEN`, register 4 (R17). -/
  byteLen : Word
  /-- `BIT_LEN`, register 5 (R18). -/
  bitLen : Word
  /-- `GRID_W`, register 6 (R19). -/
  gridW : Word
  /-- `GRID_H`, register 7 (R20). -/
  gridH : Word
  /-- `CAP`, register 8 (R21). -/
  cap : Word
  /-- `XC_KIDX`, register 9 (R22). -/
  xcKidx : Word
  /-- `PE_CURSOR`, register 10 (R23). -/
  peCursor : Word
  /-- `KEYMEM` (R26). -/
  keymem : Memory 8
  /-- `BYTEBUF` (R27). -/
  bytebuf : Memory 8
  /-- `BITBUF` (R28). -/
  bitbuf : Memory 1
  /-- `PIXMEM` (R29). -/
  pixmem : Memory 8
  /-- The model's own: what the host and `rst` do next, first input first (log entry 1). -/
  inputs : List Input
  /-- The model's own: the values the host's reads returned, oldest first (R173, log entry 1). -/
  readLog : List Word
  /-- The model's own: how many free values have been drawn (log entry 5). -/
  freeCount : Nat
deriving DecidableEq, Repr

/-- How a command's pseudocode ends (R141). -/
inductive Ending where
  /-- It ran to the line before its `ERR <- 0`. -/
  | done (s : State)
  /-- It reached `raise e`; `s` holds what had been written by then. -/
  | raised (e : ErrCode) (s : State)
deriving DecidableEq, Repr

/-- Why a step stops. No command and no host transaction ever does. -/
inductive Fault where
  /-- Raised by `step` alone, in a state whose parameters break R6 or R7: no block has them. Safe (log entry 3). -/
  | illegalSizes
deriving DecidableEq, Repr

/-- Why a command has no meaning. -/
inductive Refusal where
  /-- Raised by an arm of `exec` for a command of the opcode table that has no meaning yet. Safe. No arm raises it. -/
  | notModelled (mnemonic : String)
deriving DecidableEq, Repr

/-- The state after power-on and reset of a block with the parameters `z`: every register 0 (70_reset_and_hazards.md
R156), no memory cell written (R157), nothing offered and nothing read yet. -/
def State.resetOf (z : Sizes) : State :=
  { sizes := z, cmd := 0, status := 0, err := 0, keyLen := 0, byteLen := 0, bitLen := 0, gridW := 0, gridH := 0,
    cap := 0, xcKidx := 0, peCursor := 0, keymem := [], bytebuf := [], bitbuf := [], pixmem := [], inputs := [],
    readLog := [], freeCount := 0 }

/-- The machine right after reset. The parameters are a DESIGN CHOICE (log entry 2). -/
def State.reset : State := State.resetOf Config.vectorSizes

end Sys2Proof.Machine
end

