-- ==== Sys2Proof/Machine/Flags.lean ====
section
/-! DEFINITION. The status fields (spec 10_state.md R14, R15, R24): `STATUS.BUSY`, `STATUS.FOUND` and the code in `ERR`.
The block has no arithmetic condition codes. -/

namespace Sys2Proof.Machine

/-- The code of an outcome (60_exceptions.md R135). -/
def ErrCode.code : ErrCode → Word
  | .none => 0
  | .invalidKey => 1
  | .capacityExceeded => 2
  | .bufferRange => 3
  | .illegalCommand => 4

/-- `STATUS.BUSY`, bit 0 (R14). -/
def State.busy (s : State) : Bool := s.status.getLsbD 0

/-- `STATUS.FOUND`, bit 1 (R14). -/
def State.found (s : State) : Bool := s.status.getLsbD 1

/-- `STATUS.BUSY <- b`: bit 0 of a status word replaced. -/
def statusWithBusy (b : Bool) (w : Word) : Word := if b then w ||| 1#32 else w &&& ~~~1#32

/-- `STATUS.FOUND <- b`: bit 1 of a status word replaced. -/
def statusWithFound (b : Bool) (w : Word) : Word := if b then w ||| 2#32 else w &&& ~~~2#32

/-- `STATUS.BUSY <- b`. -/
def State.setBusy (s : State) (b : Bool) : State := { s with status := statusWithBusy b s.status }

/-- `STATUS.FOUND <- b`. -/
def State.setFound (s : State) (b : Bool) : State := { s with status := statusWithFound b s.status }

/-- What a read of `STATUS` returns: bits 31:2 read as 0 (R14). -/
def State.statusRead (s : State) : Word := s.status &&& 3#32

/-- What a read of `ERR` returns: bits 31:4 read as 0 (R15). -/
def State.errRead (s : State) : Word := s.err &&& 15#32

end Sys2Proof.Machine
end

