-- ==== Sys2Proof/Machine/Ops.lean ====
section
/-! DEFINITION. The operations over memories and registers, the order of a loop, how a command starts and ends, and
taking an error (`raise`), once for all commands. -/

namespace Sys2Proof.Machine

/-! ### A memory -/

/-- The value of cell `i`, none where nothing has written it (spec 70_reset_and_hazards.md R157). -/
def Memory.get {w : Nat} : Memory w → Nat → Option (BitVec w)
  | [], _ => none
  | (a, v) :: rest, i => if a = i then some v else Memory.get rest i

/-- Cell `i` written with `v`; every other cell keeps its value (20_memory.md R46). -/
def Memory.set {w : Nat} : Memory w → Nat → BitVec w → Memory w
  | [], i, v => [(i, v)]
  | (a, u) :: rest, i, v =>
    if a < i then (a, u) :: Memory.set rest i v
    else if a = i then (i, v) :: rest
    else (i, v) :: (a, u) :: rest

/-- The cells below `n` for which `f` gives a value written with it; every other cell keeps its value. -/
def Memory.rewrite {w : Nat} : (n : Nat) → (f : Nat → Option (BitVec w)) → Memory w → Memory w
  | 0, _, m => m
  | n + 1, f, m =>
    match f n with
    | some v => Memory.set (Memory.rewrite n f m) n v
    | none => Memory.rewrite n f m

/-- The canonical form: the listed indices strictly rise. -/
abbrev Memory.wf {w : Nat} (m : Memory w) : Prop := m.Pairwise (fun c d => c.1 < d.1)

/-- Every listed cell is a cell of a memory of `n` cells. -/
abbrev Memory.inside {w : Nat} (m : Memory w) (n : Nat) : Prop := ∀ c ∈ m, c.1 < n

/-- The number of cells of a memory (R25). -/
def cellCount (z : Sizes) : MemId → Nat
  | .keymem => z.keyMax
  | .bytebuf => z.byteMax
  | .bitbuf => z.bitMax
  | .pixmem => z.pixCells

/-! ### Reading and writing a cell

`MemRead` and `MemWrite` of 00_scope.md R8. A read of a cell nothing has written gives a free value and the machine
goes on (20_memory.md R45; log entry 5). -/

/-- The next free byte. -/
def drawByte (s : State) : Byte × State := (Config.freeByte s.freeCount, { s with freeCount := s.freeCount + 1 })

/-- The next free bit. -/
def drawBit (s : State) : Bit × State := (Config.freeBit s.freeCount, { s with freeCount := s.freeCount + 1 })

/-- A cell of an 8-bit memory as a read gives it: its value, or the next free byte. -/
def byteOrFree (c : Option Byte) (s : State) : Byte × State :=
  match c with
  | some v => (v, s)
  | none => drawByte s

/-- A cell of `BITBUF` as a read gives it: its value, or the next free bit. -/
def bitOrFree (c : Option Bit) (s : State) : Bit × State :=
  match c with
  | some v => (v, s)
  | none => drawBit s

/-- `MemRead(KEYMEM, i)`. -/
def readKey (i : Nat) (s : State) : Byte × State := byteOrFree (Memory.get s.keymem i) s

/-- `MemRead(BYTEBUF, i)`. -/
def readByte (i : Nat) (s : State) : Byte × State := byteOrFree (Memory.get s.bytebuf i) s

/-- `MemRead(BITBUF, i)`. -/
def readBit (i : Nat) (s : State) : Bit × State := bitOrFree (Memory.get s.bitbuf i) s

/-- `MemRead(PIXMEM, i)`. -/
def readPix (i : Nat) (s : State) : Byte × State := byteOrFree (Memory.get s.pixmem i) s

/-- `MemWrite(KEYMEM, i, v)`; no command does it (R26). -/
def writeKey (i : Nat) (v : Byte) (s : State) : State := { s with keymem := Memory.set s.keymem i v }

/-- `MemWrite(BYTEBUF, i, v)`. -/
def writeByte (i : Nat) (v : Byte) (s : State) : State := { s with bytebuf := Memory.set s.bytebuf i v }

/-- `MemWrite(BITBUF, i, v)`. -/
def writeBit (i : Nat) (v : Bit) (s : State) : State := { s with bitbuf := Memory.set s.bitbuf i v }

/-- `MemWrite(PIXMEM, i, v)`. -/
def writePix (i : Nat) (v : Byte) (s : State) : State := { s with pixmem := Memory.set s.pixmem i v }

/-- A natural number as a register value. Under R7 every number a rule stores in a register is below `2^32`. -/
def regOf (n : Nat) : Word := BitVec.ofNat 32 n

/-- `for i in 0..n-1:` runs its body for `i = 0, 1, ..., n-1` in that order (R8). -/
def forUpTo : (n : Nat) → (body : Nat → State → State) → State → State
  | 0, _, s => s
  | n + 1, body, s => body n (forUpTo n body s)

/-! ### How a command starts and ends -/

/-- A `CMD` write is taken: `CMD <- w`, `STATUS.BUSY <- 1` (30_encoding.md R60 (1) and (2)). -/
def startCommand (w : Word) (s : State) : State := State.setBusy { s with cmd := w } true

/-- The command's outcome is recorded and the block is idle again: `ERR <- code(e)`, `STATUS.BUSY <- 0` (R60 (5) and
(6)). Every register and cell keeps the value it has. -/
def endWith (e : ErrCode) (s : State) : State := State.setBusy { s with err := e.code } false

/-- `raise e` (60_exceptions.md R141), the block's one way of taking an exception: the command stops at this line, with
what it has written by then; `endWith` then records the code. Nothing is saved, no mode changes, control goes nowhere,
and there is no return from it (R145). -/
def raise (e : ErrCode) (s : State) : Ending := .raised e s

/-- The last line of every command: `ERR <- 0` after its end, the code of the error after a `raise` (R60, R140, R141). -/
def complete : Ending → State
  | .done s => endWith .none s
  | .raised e s => endWith e s

/-- The state a command's pseudocode ends in, by its last line or by a `raise`. -/
def Ending.state : Ending → State
  | .done s => s
  | .raised _ s => s

/-- `do X; do Y` (45_orchestration.md R120): the second stage runs in the state the first left, and not at all when the
first raised. -/
def Ending.andThen (a : Ending) (next : State → Ending) : Ending :=
  match a with
  | .done s => next s
  | .raised e s => .raised e s

/-- The decoder's own error (R136): `ERR <- 4`, and nothing else changes. -/
def illegalCommand (s : State) : State := complete (raise .illegalCommand s)

end Sys2Proof.Machine
end

