-- ==== Sys2Proof/Machine/Operands.lean ====
section
/-! DEFINITION. The implicit operands of the commands (spec 30_encoding.md R64): the legal ranges of the length and grid
registers, the scan order and the pixel cell of a channel, and the reads of several bits in a row. -/

namespace Sys2Proof.Machine

/-- Both grid registers are legal (43_pixel_lsb_embedder.md R101). -/
def State.gridOk (s : State) : Bool := decide (s.gridW.toNat ≤ s.sizes.wMax ∧ s.gridH.toNat ≤ s.sizes.hMax)

/-- `3 * GRID_W * GRID_H`: the number of channels of the scan, the capacity in bits (R100, 44_capacity_guard.md R118). -/
def State.channels (s : State) : Nat := 3 * s.gridW.toNat * s.gridH.toNat

/-- `PixCell(k)`: the cell of the channel with index `k` in the scan order (20_memory.md R56 (c), R100). -/
def pixCell (nch k : Nat) : Nat := (k / 3) * nch + k % 3

/-- The cell of channel `c` of the pixel in column `x` of row `y` (10_state.md R29). -/
def pixCellAt (nch gridW y x c : Nat) : Nat := (y * gridW + x) * nch + c

/-- The order in which the scan visits the channels: `y` outer, `x` inner, then `c` (R100). -/
def scanOrder (gridW gridH : Nat) : List (Nat × Nat × Nat) :=
  (List.range gridH).flatMap fun y =>
    (List.range gridW).flatMap fun x => (List.range 3).map fun c => (y, x, c)

/-- The bits of `BITBUF[start..start+n)`, read in that order. -/
def readBits (start : Nat) : Nat → State → List Bit × State
  | 0, s => ([], s)
  | n + 1, s =>
    let r := readBits start n s
    let b := readBit (start + n) r.2
    (r.1 ++ [b.1], b.2)

/-- The byte whose bits are the list, the first the most significant: the shift register of 10_state.md R31. -/
def packBits (bs : List Bit) : Byte := bs.foldl (fun acc b => (acc <<< 1) ||| b.zeroExtend 8) 0

/-- `v[7 - j]` of a byte as a bit: bit `j` of its expansion, the most significant first (41_bitstream_packer.md R80). -/
def bitOfByte (v : Byte) (j : Nat) : Bit := v.extractLsb' (7 - j) 1

/-- `v & 1` of a channel value, as a bit (R102). -/
def channelBit (v : Byte) : Bit := v.extractLsb' 0 1

/-- `(v & 0xFE) | b` (R102). -/
def embedBit (v : Byte) (b : Bit) : Byte := (v &&& 0xFE#8) ||| b.zeroExtend 8

/-- The detection predicate `TermAt(BITBUF, n)` (42_framing_terminator.md R93), the reads of its 32 cells made in
ascending order: `n >= 32` and the bits `n - 32` to `n - 1` are all zero. -/
def termTest (n : Nat) (s : State) : Bool × State :=
  if n < 32 then (false, s)
  else
    let r := readBits (n - 32) 32 s
    (r.1.all (fun b => b == 0#1), r.2)

end Sys2Proof.Machine
end

