-- ==== Sys2Proof/Machine/Capacity.lean ====
section
/-! DEFINITION. Unit CG, the `capacity_guard` (spec 44_capacity_guard.md): `CAPCHK`. -/

namespace Sys2Proof.Machine

/-- The pseudocode of `CAPCHK` up to its `ERR <- 0` (R115): the range tests first, then `CAP` is written, then the
capacity test, strictly greater-than (R116). -/
def capchkBody (s : State) : Ending :=
  if s.gridOk = false ∨ s.sizes.bitMax < s.bitLen.toNat then raise .bufferRange s
  else
    let t := { s with cap := regOf s.channels }
    if t.cap.toNat < t.bitLen.toNat then raise .capacityExceeded t else .done t

/-- `CAPCHK` (R115). -/
def execCapchk (s : State) : Host.Outcome State Fault Refusal := .next (complete (capchkBody s))

end Sys2Proof.Machine
end

