-- ==== Sys2Proof/Machine/Cipher.lean ====
section
/-! DEFINITION. Unit XC, the `xor_stream_cipher` (spec 40_xor_stream_cipher.md): `MASK`, which is also `UNMASK`. -/

namespace Sys2Proof.Machine

/-- The key index after one more byte: up by one, and back to 0 when it reaches `KEY_LEN` (R70, R71). -/
def nextKidx (kidx keyLen : Word) : Word := if kidx + 1 = keyLen then 0 else kidx + 1

/-- One iteration of `MASK`'s loop (R70). -/
def maskStep (i : Nat) (s : State) : State :=
  let b := readByte i s
  let k := readKey s.xcKidx.toNat b.2
  let t := writeByte i (b.1 ^^^ k.1) k.2
  { t with xcKidx := nextKidx t.xcKidx t.keyLen }

/-- The pseudocode of `MASK` up to its `ERR <- 0` (R70). -/
def maskBody (s : State) : Ending :=
  if s.keyLen = 0 then raise .invalidKey s
  else if s.sizes.keyMax < s.keyLen.toNat ∨ s.sizes.byteMax < s.byteLen.toNat then raise .bufferRange s
  else .done (forUpTo s.byteLen.toNat maskStep { s with xcKidx := 0 })

/-- `MASK`, `UNMASK` (R70, R73). -/
def execMask (s : State) : Host.Outcome State Fault Refusal := .next (complete (maskBody s))

end Sys2Proof.Machine
end

