-- ==== Sys2Proof/Machine/Embedder.lean ====
section
/-! DEFINITION. Unit PE, the `pixel_lsb_embedder` (spec 43_pixel_lsb_embedder.md): `EMBED`, `EXTRACT`. Both scans run over
the channel index `k`, whose cell `pixCell` gives; `scanOrder` is the order of the three loops of the pseudocode, and R100
makes the two the same order (log entry 9). -/

namespace Sys2Proof.Machine

/-- One channel of `EMBED`'s scan (R104): bit 0 of the cell becomes the next bit while bits are left (R102). -/
def embedStep (k : Nat) (s : State) : State :=
  if s.peCursor.toNat < s.bitLen.toNat then
    let a := pixCell s.sizes.nch k
    let v := readPix a s
    let b := readBit v.2.peCursor.toNat v.2
    let t := writePix a (embedBit v.1 b.1) b.2
    { t with peCursor := t.peCursor + 1 }
  else s

/-- The pseudocode of `EMBED` up to its `ERR <- 0` (R104). It does not check the capacity (R105). -/
def embedBody (s : State) : Ending :=
  if s.gridOk = false ∨ s.sizes.bitMax < s.bitLen.toNat then raise .bufferRange s
  else .done (forUpTo s.channels embedStep { s with peCursor := 0 })

/-- `EMBED` (R104). -/
def execEmbed (s : State) : Host.Outcome State Fault Refusal := .next (complete (embedBody s))

/-- One channel of `EXTRACT`'s scan (R107): bit 0 of the cell is appended and the terminator tested for. Once `FOUND` is
1 the scan has left its loops and nothing more happens. -/
def extractStep (k : Nat) (s : State) : State :=
  if s.found then s
  else
    let v := readPix (pixCell s.sizes.nch k) s
    let t := writeBit v.2.bitLen.toNat (channelBit v.1) v.2
    let u := { t with bitLen := t.bitLen + 1, peCursor := t.peCursor + 1 }
    let r := termTest u.bitLen.toNat u
    if r.1 then State.setFound { r.2 with bitLen := regOf (r.2.bitLen.toNat - 32) } true else r.2

/-- The pseudocode of `EXTRACT` up to its `ERR <- 0` (R107). -/
def extractBody (s : State) : Ending :=
  if s.gridOk = false then raise .bufferRange s
  else .done (forUpTo s.channels extractStep (State.setFound { s with bitLen := 0, peCursor := 0 } false))

/-- `EXTRACT` (R107). -/
def execExtract (s : State) : Host.Outcome State Fault Refusal := .next (complete (extractBody s))

end Sys2Proof.Machine
end

