-- ==== Sys2Proof/Machine/Framing.lean ====
section
/-! DEFINITION. Unit FT, the `framing_terminator` (spec 42_framing_terminator.md): `APPTERM`, `DETSTRIP`. The terminator
is 32 zero bits and its length is fixed (R91). -/

namespace Sys2Proof.Machine

/-- The pseudocode of `APPTERM` up to its `ERR <- 0` (R90). -/
def apptermBody (s : State) : Ending :=
  if s.sizes.bitMax < s.bitLen.toNat + 32 then raise .bufferRange s
  else
    let t := forUpTo 32 (fun j u => writeBit (u.bitLen.toNat + j) 0 u) s
    .done { t with bitLen := regOf (t.bitLen.toNat + 32) }

/-- `APPTERM` (R90). -/
def execAppterm (s : State) : Host.Outcome State Fault Refusal := .next (complete (apptermBody s))

/-- The pseudocode of `DETSTRIP` up to its `ERR <- 0` (R92). -/
def detstripBody (s : State) : Ending :=
  if s.sizes.bitMax < s.bitLen.toNat then raise .bufferRange s
  else
    let r := termTest s.bitLen.toNat s
    if r.1 then .done (State.setFound { r.2 with bitLen := regOf (r.2.bitLen.toNat - 32) } true)
    else .done (State.setFound r.2 false)

/-- `DETSTRIP` (R92). -/
def execDetstrip (s : State) : Host.Outcome State Fault Refusal := .next (complete (detstripBody s))

end Sys2Proof.Machine
end

