-- ==== Sys2Proof/Machine/Packer.lean ====
section
/-! DEFINITION. Unit BP, the `bitstream_packer` proper (spec 41_bitstream_packer.md): `TOBITS`, `TOBYTES`. -/

namespace Sys2Proof.Machine

/-- One byte of `TOBITS`: one read of `BYTEBUF`, eight writes of `BITBUF`, the most significant bit first (R80, R49). -/
def tobitsStep (i : Nat) (s : State) : State :=
  let b := readByte i s
  forUpTo 8 (fun j => writeBit (8 * i + j) (bitOfByte b.1 j)) b.2

/-- The pseudocode of `TOBITS` up to its `ERR <- 0` (R80). -/
def tobitsBody (s : State) : Ending :=
  if s.sizes.byteMax < s.byteLen.toNat ∨ s.sizes.bitMax < 8 * s.byteLen.toNat then raise .bufferRange s
  else
    let t := forUpTo s.byteLen.toNat tobitsStep s
    .done { t with bitLen := regOf (8 * t.byteLen.toNat) }

/-- `TOBITS` (R80). -/
def execTobits (s : State) : Host.Outcome State Fault Refusal := .next (complete (tobitsBody s))

/-- One chunk of `TOBYTES`: eight reads of `BITBUF`, one write of `BYTEBUF`, the first bit the most significant (R81). -/
def tobytesStep (i : Nat) (s : State) : State :=
  let r := readBits (8 * i) 8 s
  writeByte i (packBits r.1) r.2

/-- The pseudocode of `TOBYTES` up to its `ERR <- 0` (R81). The bits after the last whole chunk take no part (R82). -/
def tobytesBody (s : State) : Ending :=
  if s.sizes.bitMax < s.bitLen.toNat ∨ s.sizes.byteMax < s.bitLen.toNat / 8 then raise .bufferRange s
  else
    let t := forUpTo (s.bitLen.toNat / 8) tobytesStep s
    .done { t with byteLen := regOf (t.bitLen.toNat / 8) }

/-- `TOBYTES` (R81). -/
def execTobytes (s : State) : Host.Outcome State Fault Refusal := .next (complete (tobytesBody s))

end Sys2Proof.Machine
end

