-- ==== Sys2Proof/Machine/Pipelines.lean ====
section
/-! DEFINITION. The pipelines `EMBMSG` and `EXTMSG`, and `NOP` (spec 45_orchestration.md). A pipeline is its stages one
after another, stopping at the first that raises; what earlier stages wrote stays written (R120, R121, R123). -/

namespace Sys2Proof.Machine

/-- The pseudocode of `EMBMSG` up to its `ERR <- 0` (R120). -/
def embmsgBody (s : State) : Ending :=
  ((((maskBody s).andThen tobitsBody).andThen apptermBody).andThen capchkBody).andThen embedBody

/-- `EMBMSG` (R120). -/
def execEmbmsg (s : State) : Host.Outcome State Fault Refusal := .next (complete (embmsgBody s))

/-- The pseudocode of `EXTMSG` up to its `ERR <- 0` (R121): it runs all stages whether or not the terminator was found. -/
def extmsgBody (s : State) : Ending := ((extractBody s).andThen tobytesBody).andThen maskBody

/-- `EXTMSG` (R121). -/
def execExtmsg (s : State) : Host.Outcome State Fault Refusal := .next (complete (extmsgBody s))

/-- `NOP` (R122): it only completes. -/
def execNop (s : State) : Host.Outcome State Fault Refusal := .next (complete (.done s))

end Sys2Proof.Machine
end

