-- ==== Sys2Proof/Machine/Dispatch.lean ====
section
/-! DEFINITION. The dispatch: one arm per command of the opcode table (spec 30_encoding.md R62). -/

namespace Sys2Proof.Machine

def exec (i : Instr) (s : State) : Host.Outcome State Fault Refusal :=
  match i with
  | .nop => Sys2Proof.Machine.execNop s
  | .mask => Sys2Proof.Machine.execMask s
  | .tobits => Sys2Proof.Machine.execTobits s
  | .tobytes => Sys2Proof.Machine.execTobytes s
  | .appterm => Sys2Proof.Machine.execAppterm s
  | .detstrip => Sys2Proof.Machine.execDetstrip s
  | .capchk => Sys2Proof.Machine.execCapchk s
  | .embed => Sys2Proof.Machine.execEmbed s
  | .extract => Sys2Proof.Machine.execExtract s
  | .embmsg => Sys2Proof.Machine.execEmbmsg s
  | .extmsg => Sys2Proof.Machine.execExtmsg s

end Sys2Proof.Machine
end

