-- ==== Sys2Proof/Machine/HostPort.lean ====
section
/-! DEFINITION. The host port (spec 20_memory.md R40 to R45, R51): what a transaction other than a `CMD` write does. -/

namespace Sys2Proof.Machine

/-- What a space id names (R41): the registers, a memory, or nothing. -/
inductive Target where
  | registers
  | memory (m : MemId)
  | nothing
deriving DecidableEq, Repr

/-- The space ids (R41); 5, 6 and 7 name nothing. -/
def targetOf (space : BitVec 3) : Target :=
  match space.toNat with
  | 0 => .registers
  | 1 => .memory .keymem
  | 2 => .memory .bytebuf
  | 3 => .memory .bitbuf
  | 4 => .memory .pixmem
  | _ => .nothing

/-- A register read of number `n` (R42); a number above 10 reads 0 (R44). -/
def readReg (n : Nat) (s : State) : Word :=
  match n with
  | 0 => s.cmd
  | 1 => s.statusRead
  | 2 => s.errRead
  | 3 => s.keyLen
  | 4 => s.byteLen
  | 5 => s.bitLen
  | 6 => s.gridW
  | 7 => s.gridH
  | 8 => s.cap
  | 9 => s.xcKidx
  | 10 => s.peCursor
  | _ => 0

/-- A register write of `v` to a number other than `CMD`'s (R42): registers 3 to 7 store all 32 bits, the read-only
registers and the numbers above 10 ignore it (R44). A `CMD` write is `startCommand` and the run of the command. -/
def writeReg (n : Nat) (v : Word) (s : State) : State :=
  match n with
  | 3 => { s with keyLen := v }
  | 4 => { s with byteLen := v }
  | 5 => { s with bitLen := v }
  | 6 => { s with gridW := v }
  | 7 => { s with gridH := v }
  | _ => s

/-- A byte read as the host sees it: `zext_32` (R43). -/
def zextByte (r : Byte × State) : Word × State := (r.1.zeroExtend 32, r.2)

/-- A bit read as the host sees it: `zext_32` (R43). -/
def zextBit (r : Bit × State) : Word × State := (r.1.zeroExtend 32, r.2)

/-- A memory read of cell `i` (R43); a cell at or beyond the cell count reads 0 (R44), a cell never written gives a free
value (R45). -/
def readMem (m : MemId) (i : Nat) (s : State) : Word × State :=
  if i < cellCount s.sizes m then
    match m with
    | .keymem => zextByte (readKey i s)
    | .bytebuf => zextByte (readByte i s)
    | .bitbuf => zextBit (readBit i s)
    | .pixmem => zextByte (readPix i s)
  else (0, s)

/-- A memory write of `v` to cell `i`: the low bits of `v` (R43); ignored at or beyond the cell count (R44). -/
def writeMem (m : MemId) (i : Nat) (v : Word) (s : State) : State :=
  if i < cellCount s.sizes m then
    match m with
    | .keymem => writeKey i (v.setWidth 8) s
    | .bytebuf => writeByte i (v.setWidth 8) s
    | .bitbuf => writeBit i (v.setWidth 1) s
    | .pixmem => writePix i (v.setWidth 8) s
  else s

/-- What a read transaction returns, and the state after it. -/
def hostRead (t : Txn) (s : State) : Word × State :=
  match targetOf t.space with
  | .registers => (readReg t.index.toNat s, s)
  | .memory m => readMem m t.index.toNat s
  | .nothing => (0, s)

/-- The state after a write transaction other than a `CMD` write. -/
def hostWrite (t : Txn) (s : State) : State :=
  match targetOf t.space with
  | .registers => writeReg t.index.toNat t.wdata s
  | .memory m => writeMem m t.index.toNat t.wdata s
  | .nothing => s

/-- A transaction other than a `CMD` write is taken, whole (R40); the value a read returns is logged (R173). -/
def takeTxn (t : Txn) (s : State) : State :=
  if t.write then hostWrite t s
  else
    let r := hostRead t s
    { r.2 with readLog := r.2.readLog ++ [r.1] }

/-- The transaction is a write of `CMD` (R42). -/
def Txn.isCmdWrite (t : Txn) : Bool := t.write && t.space == 0#3 && t.index == 0#32

/-- The transaction is a read of `STATUS`, the one the block takes while a command runs (R51). -/
def Txn.isStatusRead (t : Txn) : Bool := !t.write && t.space == 0#3 && t.index == 1#32

/-- The pin `h_ready` for the offered transaction, `rst` being 0 (10_state.md R33, R51). -/
def hReady (s : State) (t : Txn) : Bool := !s.busy || t.isStatusRead

/-- The pin `busy` (R33). -/
def busyPin (s : State) : Bool := s.busy

/-- The transaction that writes `w` to `CMD`. -/
def cmdWrite (w : Word) : Txn := { write := true, space := 0, index := 0, wdata := w }

end Sys2Proof.Machine
end

