-- ==== Sys2Proof/Machine/Reset.lean ====
section
/-! DEFINITION. The pin `rst` (spec 70_reset_and_hazards.md R155 to R159): the registers take their reset values, the
memories are not reset; a reset while a command runs leaves the cells that command writes unspecified. -/

namespace Sys2Proof.Machine

/-- A reset with no command running (R156, R157): every register 0, every memory cell as it was. -/
def resetRegs (s : State) : State :=
  { s with
    cmd := 0, status := 0, err := 0, keyLen := 0, byteLen := 0, bitLen := 0, gridW := 0, gridH := 0, cap := 0,
    xcKidx := 0, peCursor := 0 }

/-- The channel index whose cell is `a`, where `a` is a cell of the scan (43_pixel_lsb_embedder.md R100, R103). -/
def channelOf (nch a : Nat) : Option Nat := if a % nch < 3 then some (3 * (a / nch) + a % nch) else none

/-- The memory cells a command (or a stage) run to its end from `s` to `t` writes: the right column of the table of
30_encoding.md R64. The two pipelines are covered by their stages. -/
def stageWrites (i : Instr) (s t : State) (m : MemId) (a : Nat) : Bool :=
  match i with
  | .nop => false
  | .mask => m == .bytebuf && decide (a < s.byteLen.toNat)
  | .tobits => m == .bitbuf && decide (a < 8 * s.byteLen.toNat)
  | .tobytes => m == .bytebuf && decide (a < s.bitLen.toNat / 8)
  | .appterm => m == .bitbuf && decide (s.bitLen.toNat ≤ a ∧ a < s.bitLen.toNat + 32)
  | .detstrip => false
  | .capchk => false
  | .embed => m == .pixmem && (channelOf s.sizes.nch a).any (fun k => decide (k < t.peCursor.toNat))
  | .extract => m == .bitbuf && decide (a < t.peCursor.toNat)
  | .embmsg => false
  | .extmsg => false

/-- The pseudocode of one stage. -/
def stageBody (i : Instr) (s : State) : Ending :=
  match i with
  | .nop => .done s
  | .mask => maskBody s
  | .tobits => tobitsBody s
  | .tobytes => tobytesBody s
  | .appterm => apptermBody s
  | .detstrip => detstripBody s
  | .capchk => capchkBody s
  | .embed => embedBody s
  | .extract => extractBody s
  | .embmsg => embmsgBody s
  | .extmsg => extmsgBody s

/-- The stages of a command (45_orchestration.md R120, R121). -/
def stagesOf : Instr → List Instr
  | .embmsg => [.mask, .tobits, .appterm, .capchk, .embed]
  | .extmsg => [.extract, .tobytes, .mask]
  | .nop => [.nop]
  | .mask => [.mask]
  | .tobits => [.tobits]
  | .tobytes => [.tobytes]
  | .appterm => [.appterm]
  | .detstrip => [.detstrip]
  | .capchk => [.capchk]
  | .embed => [.embed]
  | .extract => [.extract]

/-- The memory cells that the stages, run from `s`, write. A stage that raises has written no memory cell (60_exceptions.md
R141), and no stage after it runs. -/
def writesOver : List Instr → State → MemId → Nat → Bool
  | [], _, _, _ => false
  | i :: rest, s, m, a =>
    match stageBody i s with
    | .done t => stageWrites i s t m a || writesOver rest t m a
    | .raised _ _ => false

/-- The memory cells that the command, run from `s`, writes (R64). -/
def writesCell (i : Instr) (s : State) (m : MemId) (a : Nat) : Bool := writesOver (stagesOf i) s m a

/-- What a command stopped before its end leaves in a memory (R159): a cell that it writes and that held a value is
written with the value `value` gives for its index and the one it held; one that nothing had written is written so, or
stays as it is, the choice being free. Every other cell keeps its value (log entry 6). -/
def tornCells {w : Nat} (i : Instr) (s : State) (m : MemId) (value : Nat → Option (BitVec w) → BitVec w)
    (mem : Memory w) : Memory w :=
  Memory.rewrite (cellCount s.sizes m)
    (fun a =>
      if writesCell i s m a && ((Memory.get mem a).isSome || Config.tornWrote s.freeCount m a) then
        some (value a (Memory.get mem a))
      else none)
    mem

/-- A command stopped before its end (R159): a cell of `BYTEBUF` or `BITBUF` that it writes holds any value, and so does a
cell of `PIXMEM`, whose bits 7:1 are kept. The value is drawn here, once, so that later reads of the cell agree (20_memory.md
R46). The counter passes every free value that the command drew on its way, so that no later read draws one of them
(log entry 6). -/
def tear (i : Instr) (s : State) : State :=
  { s with
    bytebuf := tornCells i s .bytebuf (fun a _ => Config.tornByte s.freeCount .bytebuf a) s.bytebuf
    bitbuf := tornCells i s .bitbuf (fun a _ => Config.tornBit s.freeCount a) s.bitbuf
    pixmem := tornCells i s .pixmem
      (fun a old =>
        let free := Config.tornByte s.freeCount .pixmem a
        embedBit (old.getD free) (channelBit free))
      s.pixmem
    freeCount := (stageBody i s).state.freeCount + 1 }

/-- A reset while the command in `CMD` runs (R159); an illegal word writes no cell (R136). -/
def tornReset (s : State) : State :=
  match decode s.cmd with
  | .ok i => resetRegs (tear i s)
  | .error _ => resetRegs s

end Sys2Proof.Machine
end

