-- ==== Sys2Proof/Machine/Sequencer.lean ====
section
/-! DEFINITION. The command sequencer (spec 20_memory.md R50 to R52, 30_encoding.md R60): one input at a time, in the
order the list gives them. -/

namespace Sys2Proof.Machine

/-- The started command runs to its end (R60 (3) to (6)): the word in `CMD` is decoded, and the command runs or
`IllegalCommand` is raised. -/
def runCommand (s : State) : Host.Outcome State Fault Refusal :=
  match decode s.cmd with
  | .ok i => exec i s
  | .error _ => .next (illegalCommand s)

/-- The block is idle and the input arrives; `s` no longer lists it. A `CMD` write is taken and its command run in one
transition (R50, R60). -/
def idleInput (x : Input) (s : State) : Host.Outcome State Fault Refusal :=
  match x with
  | .txn t => if t.isCmdWrite then runCommand (startCommand t.wdata s) else .next (takeTxn t s)
  | .start w => .next (startCommand w s)
  | .idle => .next s
  | .reset => .next (resetRegs s)

/-- A command runs and the input arrives; `popped` no longer lists it, `s` still does. A `STATUS` read is taken; a reset
stops the command (R159); any other transaction waits until the command has run to its end (R51). -/
def busyInput (x : Input) (popped s : State) : Host.Outcome State Fault Refusal :=
  match x with
  | .txn t => if hReady s t then .next (takeTxn t popped) else runCommand s
  | .start _ => runCommand s
  | .idle => runCommand popped
  | .reset => .next (tornReset popped)

/-- One transition of the block. With no input left an idle block stays as it is (60_exceptions.md R150) and a running
command reaches its end (45_orchestration.md R126). -/
def advance (s : State) : Host.Outcome State Fault Refusal :=
  match s.inputs with
  | [] => if s.busy then runCommand s else .next s
  | x :: rest =>
    let popped := { s with inputs := rest }
    if s.busy then busyInput x popped s else idleInput x popped

end Sys2Proof.Machine
end

