-- ==== Sys2Proof/Machine/Step.lean ====
section
/-! DEFINITION. One step of the machine, and the placing of a command where the next step takes it. -/

namespace Sys2Proof.Machine

/-- One step: the next input is handled (spec 20_memory.md R52). A state whose parameters no block can have has no next
state (00_scope.md R6, R7; log entry 3). -/
def step (s : State) : Host.Outcome State Fault Refusal :=
  if s.sizes.wf then advance s else .fault .illegalSizes

/-- The block is idle and the host's next transaction is the `CMD` write of the word: the next step takes it and runs the
command (log entry 1). -/
def State.withFetchWord (s : State) (nbits w : Nat) : State :=
  { s with inputs := .txn (cmdWrite (tableWord nbits w)) :: s.inputs, status := statusWithBusy false s.status }

end Sys2Proof.Machine
end

