-- ==== Sys2Proof/Safety.lean ====
section
/-! DEFINITION. What counts as a safe state and a safe run, and the predicates of the rules that claims are stated in. -/

namespace Sys2Proof.Machine

/-- Every memory is in its canonical form and lists only cells it has (spec 20_memory.md R41, R56). -/
structure State.MemoriesOk (s : State) : Prop where
  keymem_wf : Memory.wf s.keymem
  bytebuf_wf : Memory.wf s.bytebuf
  bitbuf_wf : Memory.wf s.bitbuf
  pixmem_wf : Memory.wf s.pixmem
  keymem_inside : Memory.inside s.keymem (cellCount s.sizes .keymem)
  bytebuf_inside : Memory.inside s.bytebuf (cellCount s.sizes .bytebuf)
  bitbuf_inside : Memory.inside s.bitbuf (cellCount s.sizes .bitbuf)
  pixmem_inside : Memory.inside s.pixmem (cellCount s.sizes .pixmem)

/-- The registers that only the block writes hold what the rules allow. -/
structure State.RegistersOk (s : State) : Prop where
  /-- `STATUS` bits 31:2 are never written (10_state.md R14). -/
  status_reserved : s.status &&& ~~~3#32 = 0#32
  /-- Codes 5 to 15 are never written (R15). -/
  err_code : s.err.toNat ≤ 4
  /-- `CAP` holds the capacity of a legal grid (R21, 00_scope.md R7 (a)). -/
  cap_le : s.cap.toNat ≤ s.sizes.bitMax
  /-- `XC_KIDX` selects a key byte (R22). -/
  kidx_lt : s.xcKidx.toNat < s.sizes.keyMax
  /-- `PE_CURSOR` counts bits of `BITBUF` (R23). -/
  cursor_le : s.peCursor.toNat ≤ s.sizes.bitMax

/-- The invariant of every run. -/
structure State.Inv (s : State) : Prop where
  sizes_wf : s.sizes.wf = true
  memories : s.MemoriesOk
  registers : s.RegistersOk

/-- `TermAt(S, n)` (42_framing_terminator.md R93) of a bit sequence given as a function of the index. -/
def TermAt (bits : Nat → Bit) (n : Nat) : Prop := 32 ≤ n ∧ ∀ j, n - 32 ≤ j → j < n → bits j = 0

/-- `NoEarlyTerm(P)` of a payload of `p` bits (R96). -/
def NoEarlyTerm (bits : Nat → Bit) (p : Nat) : Prop :=
  p = 0 ∨ (bits (p - 1) = 1 ∧ ∀ z, z + 32 ≤ p → ∃ j, j < 32 ∧ bits (z + j) = 1)

/-- `v` is a value that a read of a cell can give: its value if it was written, anything if it was not
(70_reset_and_hazards.md R157). -/
def Reads {w : Nat} (m : Memory w) (a : Nat) (v : BitVec w) : Prop := ∀ u, Memory.get m a = some u → v = u

/-- Every cell below `n` has been written (70_reset_and_hazards.md R162). -/
def WrittenBelow {w : Nat} (m : Memory w) (n : Nat) : Prop := ∀ a, a < n → ∃ v, Memory.get m a = some v

/-- The value of cell `a` of a memory as the host sees it, none where nothing has written it (20_memory.md R43). -/
def hostCell (s : State) (m : MemId) (a : Nat) : Option Word :=
  match m with
  | .keymem => (Memory.get s.keymem a).map (fun v => v.zeroExtend 32)
  | .bytebuf => (Memory.get s.bytebuf a).map (fun v => v.zeroExtend 32)
  | .bitbuf => (Memory.get s.bitbuf a).map (fun v => v.zeroExtend 32)
  | .pixmem => (Memory.get s.pixmem a).map (fun v => v.zeroExtend 32)

/-- The space id of a memory (R41). -/
def spaceId : MemId → BitVec 3
  | .keymem => 1
  | .bytebuf => 2
  | .bitbuf => 3
  | .pixmem => 4

/-- The width of a memory's cells in bits (R25, R41). -/
def cellWidth : MemId → Nat
  | .keymem => 8
  | .bytebuf => 8
  | .bitbuf => 1
  | .pixmem => 8

/-- Byte `j` of the payload as bit `k` of the bit sequence, the most significant bit first (20_memory.md R47 (a)). -/
def payloadBit (bytes : Nat → Byte) (k : Nat) : Bit := bitOfByte (bytes (k / 8)) (k % 8)

/-- `t` holds the masked bytes `f` of `s`, and the key index that masking leaves (40_xor_stream_cipher.md R70, R71). -/
structure Masked (s t : State) (f : Nat → Byte) : Prop where
  bytes : ∀ i, i < s.byteLen.toNat → ∃ b k, Reads s.bytebuf i b ∧ Reads s.keymem (i % s.keyLen.toNat) k ∧ f i = b ^^^ k
  bytebuf : ∀ a, Memory.get t.bytebuf a = if a < s.byteLen.toNat then some (f a) else Memory.get s.bytebuf a
  kidx : t.xcKidx.toNat = s.byteLen.toNat % s.keyLen.toNat

/-- `t` holds a scan of the grid of `s` that read `n` channels, their bits 0 being `f`, and that stopped at the first
terminator or at the end of the grid (43_pixel_lsb_embedder.md R107, R108). -/
structure Scanned (s t : State) (f : Nat → Bit) (n : Nat) : Prop where
  bits : ∀ k, k < n → ∃ v, Reads s.pixmem (pixCell s.sizes.nch k) v ∧ f k = BitVec.ofBool (v.getLsbD 0)
  bitbuf : ∀ a, Memory.get t.bitbuf a = if a < n then some (f a) else Memory.get s.bitbuf a
  cursor : t.peCursor.toNat = n
  first : ∀ k, k < n → ¬ TermAt f k
  stop : (TermAt f n ∧ n ≤ s.channels ∧ t.found = true ∧ t.bitLen.toNat + 32 = n) ∨
    (¬ TermAt f n ∧ n = s.channels ∧ t.found = false ∧ t.bitLen.toNat = n)

/-- `s` except that `ERR` records `e` and `BUSY` is 0: how every command leaves the block (30_encoding.md R60). -/
def State.ended (s : State) (e : ErrCode) : State := { s with err := e.code, status := statusWithBusy false s.status }

/-- The host writes the words of the commands to `CMD` one after another and stops at the first command that leaves
`ERR != 0` (45_orchestration.md R123). -/
def hostIssues : List Instr → State → Host.Outcome State Fault Refusal
  | [], s => .next s
  | i :: rest, s =>
    match step { s with inputs := [.txn (cmdWrite (encode i))] } with
    | .next t => if t.errRead = 0 then hostIssues rest t else .next t
    | .fault f => .fault f
    | .refused r => .refused r

end Sys2Proof.Machine
end

