-- ==== Sys2Proof/Certificates/Slice0/Obligations.lean ====
section
/-! DEFINITION. The statements for the provers. Each formalises rules of the spec; a clause that rests on a choice of the
model names its log entry. `s.sizes.wf` is R7's premise ("a model takes them as premises"). -/

open Sys2Proof Sys2Proof.Machine

/-! ### The encoding -/

/-- 30_encoding.md R62, the opcode map. -/
def Obligations.OpcodeTableDecodes : Prop :=
  decode 0x00000000#32 = .ok .nop ∧ decode 0x00000001#32 = .ok .mask ∧ decode 0x00000002#32 = .ok .tobits ∧
  decode 0x00000003#32 = .ok .tobytes ∧ decode 0x00000004#32 = .ok .appterm ∧ decode 0x00000005#32 = .ok .detstrip ∧
  decode 0x00000006#32 = .ok .capchk ∧ decode 0x00000007#32 = .ok .embed ∧ decode 0x00000008#32 = .ok .extract ∧
  decode 0x00000009#32 = .ok .embmsg ∧ decode 0x0000000A#32 = .ok .extmsg

/-- R61, R62, R63: a word is a command exactly when it is that command's word, and the words that are no command are
those with a bit of 31:8 set or an opcode from `0x0B` on. -/
def Obligations.DecodeAcceptsExactlyTheEncodings : Prop :=
  ∀ w : Word, (∀ i, decode w = .ok i ↔ w = encode i) ∧
    ((∃ e, decode w = .error e) ↔ w.toNat / 2 ^ 8 ≠ 0 ∨ 0x0B ≤ w.toNat % 2 ^ 8)

/-! ### The sequencer and the host port -/

/-- 30_encoding.md R60: an idle block takes a `CMD` write, sets `BUSY` and runs the command the word encodes. The next
state is `exec`'s, which sets `ERR` and clears `BUSY`. -/
def Obligations.StepRunsTheDecodedCommand : Prop :=
  ∀ (s : State) (w : Word) (rest : List Input) (i : Instr), s.sizes.wf = true → s.busy = false →
    s.inputs = .txn { write := true, space := 0, index := 0, wdata := w } :: rest → decode w = .ok i →
    step s = exec i { s with inputs := rest, cmd := w, status := s.status ||| 1#32 }

/-- R63, 60_exceptions.md R136: any other word raises `IllegalCommand`; `CMD` holds the word, `ERR <- 4`, nothing else. -/
def Obligations.IllegalWordRaisesIllegalCommand : Prop :=
  ∀ (s : State) (w : Word) (rest : List Input), s.sizes.wf = true → s.busy = false →
    s.inputs = .txn { write := true, space := 0, index := 0, wdata := w } :: rest →
    w.toNat / 2 ^ 8 ≠ 0 ∨ 0x0B ≤ w.toNat % 2 ^ 8 →
    step s = .next { s with inputs := rest, cmd := w, err := 4 }

/-- 20_memory.md R50: what happens in between is not seen. A command that is started and then left to run reaches, in two
steps, the state the one transition reaches. (`Input.start`, `Input.idle`: log entry 7.) -/
def Obligations.StartedCommandEndsAsOneTransition : Prop :=
  ∀ (s t : State) (w : Word) (rest : List Input), s.sizes.wf = true → s.busy = false →
    t = { s with inputs := .txn { write := true, space := 0, index := 0, wdata := w } :: rest } →
    ∃ u v, step { s with inputs := .start w :: .idle :: rest } = .next u ∧ u.busy = true ∧ step u = .next v ∧
      v.busy = false ∧ step t = .next v

/-- 20_memory.md R51: while `BUSY = 1` only a `STATUS` read is taken; it returns `BUSY = 1` and the `FOUND` value from
before the command. Any other transaction stays offered, and the running command reaches its end first. -/
def Obligations.BusyBlockTakesOnlyStatusReads : Prop :=
  ∀ (s : State) (x : Txn) (rest : List Input), s.sizes.wf = true → s.busy = true → s.inputs = .txn x :: rest →
    ((x.write = false ∧ x.space = 0 ∧ x.index = 1) → hReady s x = true ∧ step s = .next { s with
        inputs := rest, readLog := s.readLog ++ [if s.found then 3#32 else 1#32] }) ∧
    (¬ (x.write = false ∧ x.space = 0 ∧ x.index = 1) → hReady s x = false ∧
      ∃ t, step s = .next t ∧ t.inputs = s.inputs ∧ t.busy = false ∧ ∀ i, decode s.cmd = .ok i → exec i s = .next t)

/-- 20_memory.md R42, the reads. A number above 10 reads 0 (R44). -/
def Obligations.RegisterReadReturnsTheRegister : Prop :=
  ∀ (s : State) (n v : Word) (rest : List Input), s.sizes.wf = true → s.busy = false →
    s.inputs = .txn { write := false, space := 0, index := n, wdata := v } :: rest →
    ∃ r : Word, step s = .next { s with inputs := rest, readLog := s.readLog ++ [r] } ∧
      (n.toNat = 0 → r = s.cmd) ∧ (n.toNat = 1 → r = if s.found then 2#32 else 0#32) ∧
      (n.toNat = 2 → r.toNat = s.err.toNat % 16) ∧ (n.toNat = 3 → r = s.keyLen) ∧ (n.toNat = 4 → r = s.byteLen) ∧
      (n.toNat = 5 → r = s.bitLen) ∧ (n.toNat = 6 → r = s.gridW) ∧ (n.toNat = 7 → r = s.gridH) ∧
      (n.toNat = 8 → r = s.cap) ∧ (n.toNat = 9 → r = s.xcKidx) ∧ (n.toNat = 10 → r = s.peCursor) ∧
      (10 < n.toNat → r = 0)

/-- 20_memory.md R42, the writes of a register other than `CMD`: all 32 bits are stored, or the write is ignored. -/
def Obligations.RegisterWriteIsStoredOrIgnored : Prop :=
  ∀ (s : State) (n v : Word) (rest : List Input), s.sizes.wf = true → s.busy = false →
    s.inputs = .txn { write := true, space := 0, index := n, wdata := v } :: rest →
    (n.toNat = 3 → step s = .next { s with inputs := rest, keyLen := v }) ∧
    (n.toNat = 4 → step s = .next { s with inputs := rest, byteLen := v }) ∧
    (n.toNat = 5 → step s = .next { s with inputs := rest, bitLen := v }) ∧
    (n.toNat = 6 → step s = .next { s with inputs := rest, gridW := v }) ∧
    (n.toNat = 7 → step s = .next { s with inputs := rest, gridH := v }) ∧
    (n.toNat = 1 ∨ n.toNat = 2 ∨ 8 ≤ n.toNat → step s = .next { s with inputs := rest })

/-- 20_memory.md R43: a read returns the cell, zero-extended, and changes nothing; a write stores the low bits of the
value in that one cell. -/
def Obligations.MemoryTransactionsMoveOneCell : Prop :=
  ∀ (s : State) (m : MemId) (i v : Word) (rest : List Input), s.sizes.wf = true → s.busy = false →
    i.toNat < cellCount s.sizes m →
    (s.inputs = .txn { write := false, space := spaceId m, index := i, wdata := v } :: rest →
      ∀ r, hostCell s m i.toNat = some r → step s = .next { s with inputs := rest, readLog := s.readLog ++ [r] }) ∧
    (s.inputs = .txn { write := true, space := spaceId m, index := i, wdata := v } :: rest →
      ∃ t, step s = .next t ∧
        hostCell t m i.toNat = some (BitVec.ofNat 32 (v.toNat % 2 ^ cellWidth m)) ∧
        (∀ m' a, ¬ (m' = m ∧ a = i.toNat) → hostCell t m' a = hostCell s m' a) ∧
        t = { s with inputs := rest, keymem := t.keymem, bytebuf := t.bytebuf, bitbuf := t.bitbuf, pixmem := t.pixmem })

/-- 20_memory.md R44: a register number above 10, a space id 5 to 7, a cell index at or beyond the cell count: a write is
ignored, a read returns 0. -/
def Obligations.UnrealTargetsAreHarmless : Prop :=
  ∀ (s : State) (x : Txn) (rest : List Input), s.sizes.wf = true → s.busy = false → s.inputs = .txn x :: rest →
    (x.space = 0 ∧ 10 < x.index.toNat) ∨ 5 ≤ x.space.toNat ∨
      (∃ m, x.space = spaceId m ∧ cellCount s.sizes m ≤ x.index.toNat) →
    (x.write = true → step s = .next { s with inputs := rest }) ∧
    (x.write = false → step s = .next { s with inputs := rest, readLog := s.readLog ++ [0#32] })

/-- 20_memory.md R45: a read of a cell nothing has written returns some value of the cell's width and the machine goes
on; the cell stays unwritten. (The value is free: log entry 5.) -/
def Obligations.UnwrittenCellReadsAnyValue : Prop :=
  ∀ (s : State) (m : MemId) (i v : Word) (rest : List Input), s.sizes.wf = true → s.busy = false →
    i.toNat < cellCount s.sizes m → hostCell s m i.toNat = none →
    s.inputs = .txn { write := false, space := spaceId m, index := i, wdata := v } :: rest →
    ∃ (r : Word) (c : Nat), r.toNat < 2 ^ cellWidth m ∧
      step s = .next { s with inputs := rest, readLog := s.readLog ++ [r], freeCount := c }

/-- 20_memory.md R52: a write followed by a read of the same cell or register returns the written value (the low bits
for a narrow cell, R43). -/
def Obligations.WriteThenReadReturnsTheValue : Prop :=
  ∀ (s : State) (i v u : Word) (rest : List Input), s.sizes.wf = true → s.busy = false →
    (∀ m, i.toNat < cellCount s.sizes m →
      s.inputs = .txn { write := true, space := spaceId m, index := i, wdata := v } ::
        .txn { write := false, space := spaceId m, index := i, wdata := u } :: rest →
      ∃ t t', step s = .next t ∧ step t = .next t' ∧
        t'.readLog = s.readLog ++ [BitVec.ofNat 32 (v.toNat % 2 ^ cellWidth m)]) ∧
    (3 ≤ i.toNat → i.toNat ≤ 7 →
      s.inputs = .txn { write := true, space := 0, index := i, wdata := v } ::
        .txn { write := false, space := 0, index := i, wdata := u } :: rest →
      ∃ t t', step s = .next t ∧ step t = .next t' ∧ t'.readLog = s.readLog ++ [v])

/-- 60_exceptions.md R150: idle is `BUSY = 0` with all state kept. (An empty input list and `Input.idle`: log entries 1
and 7.) -/
def Obligations.IdleBlockKeepsItsState : Prop :=
  ∀ (s : State) (rest : List Input), s.sizes.wf = true → s.busy = false →
    (s.inputs = [] → step s = .next s) ∧ (s.inputs = .idle :: rest → step s = .next { s with inputs := rest })

/-- The model's choice (log entry 3): a state whose parameters break R6 or R7 has no next state. -/
def Obligations.NoStepWithParametersNoBlockHas : Prop :=
  ∀ s : State, s.sizes.wf = false → step s = .fault .illegalSizes

/-! ### Reset -/

/-- 70_reset_and_hazards.md R156: the value of every register after reset, at power-on and by the pin `rst` of an idle
block; the second leaves every memory cell as it was (R157). -/
def Obligations.ResetClearsEveryRegister : Prop :=
  (∀ z : Sizes, (State.resetOf z).cmd = 0 ∧ (State.resetOf z).status = 0 ∧ (State.resetOf z).err = 0 ∧
    (State.resetOf z).keyLen = 0 ∧ (State.resetOf z).byteLen = 0 ∧ (State.resetOf z).bitLen = 0 ∧
    (State.resetOf z).gridW = 0 ∧ (State.resetOf z).gridH = 0 ∧ (State.resetOf z).cap = 0 ∧
    (State.resetOf z).xcKidx = 0 ∧ (State.resetOf z).peCursor = 0 ∧ (State.resetOf z).busy = false) ∧
  (∀ (s : State) (rest : List Input), s.sizes.wf = true → s.busy = false → s.inputs = .reset :: rest →
    step s = .next { s with
      inputs := rest, cmd := 0, status := 0, err := 0, keyLen := 0, byteLen := 0, bitLen := 0, gridW := 0, gridH := 0,
      cap := 0, xcKidx := 0, peCursor := 0 })

/-- 70_reset_and_hazards.md R158: what each command does in the state a reset leaves. -/
def Obligations.CommandsAfterReset : Prop :=
  ∀ (z : Sizes) (r : State), z.wf = true → r = State.resetOf z →
    exec .nop r = .next r ∧ exec .mask r = .next { r with err := 1 } ∧ exec .embmsg r = .next { r with err := 1 } ∧
    exec .tobits r = .next r ∧ exec .tobytes r = .next r ∧
    exec .appterm r = .next { r with bitbuf := (List.range 32).map fun j => (j, 0#1), bitLen := 32 } ∧
    exec .detstrip r = .next r ∧ exec .capchk r = .next r ∧ exec .embed r = .next r ∧ exec .extract r = .next r ∧
    exec .extmsg r = .next { r with err := 1 }

/-- 70_reset_and_hazards.md R159: a reset while a command runs gives every register its reset value; a cell the command
does not write is unchanged; a cell that held a value still holds one; of a cell of `PIXMEM` that the command writes bits 7:1
are kept. The model's choice (log entry 6): the counter of the free values passes those the command drew. -/
def Obligations.ResetDuringACommand : Prop :=
  ∀ (s : State) (i : Instr) (rest : List Input), s.sizes.wf = true → s.busy = true → decode s.cmd = .ok i →
    s.inputs = .reset :: rest →
    ∃ t, step s = .next t ∧
      t = { State.resetOf s.sizes with
        keymem := s.keymem, bytebuf := t.bytebuf, bitbuf := t.bitbuf, pixmem := t.pixmem, inputs := rest,
        readLog := s.readLog, freeCount := t.freeCount } ∧
      (∀ m a, writesCell i { s with inputs := rest } m a = false → hostCell t m a = hostCell s m a) ∧
      (∀ m a, (hostCell s m a).isSome = true → (hostCell t m a).isSome = true) ∧
      (∀ a v, Memory.get s.pixmem a = some v →
        ∃ u, Memory.get t.pixmem a = some u ∧ u &&& 0xFE#8 = v &&& 0xFE#8) ∧
      s.freeCount < t.freeCount ∧
      (∀ u, exec i { s with inputs := rest } = .next u → u.freeCount < t.freeCount)

/-! ### The commands, one statement each -/

/-- 45_orchestration.md R122. -/
def Obligations.NopOnlyCompletes : Prop :=
  decode 0x00000000#32 = .ok .nop ∧
  ∀ s : State, exec .nop s = .next { s with err := 0, status := statusWithBusy false s.status }

/-- 40_xor_stream_cipher.md R70: the tests in their order, the masked bytes, the key index, and nothing else. -/
def Obligations.MaskXorsWithTheCyclicKey : Prop :=
  decode 0x00000001#32 = .ok .mask ∧
  ∀ s : State, s.sizes.wf = true →
    (s.keyLen = 0 → exec .mask s = .next (s.ended .invalidKey)) ∧
    (s.keyLen ≠ 0 → s.sizes.keyMax < s.keyLen.toNat ∨ s.sizes.byteMax < s.byteLen.toNat →
      exec .mask s = .next (s.ended .bufferRange)) ∧
    (s.keyLen ≠ 0 → s.keyLen.toNat ≤ s.sizes.keyMax → s.byteLen.toNat ≤ s.sizes.byteMax →
      ∃ t, exec .mask s = .next t ∧
        (∀ i, i < s.byteLen.toNat → ∃ b k, Reads s.bytebuf i b ∧ Reads s.keymem (i % s.keyLen.toNat) k ∧
          Memory.get t.bytebuf i = some (b ^^^ k)) ∧
        (∀ a, s.byteLen.toNat ≤ a → Memory.get t.bytebuf a = Memory.get s.bytebuf a) ∧
        t.xcKidx.toNat = s.byteLen.toNat % s.keyLen.toNat ∧
        t = { s.ended .none with bytebuf := t.bytebuf, xcKidx := t.xcKidx, freeCount := t.freeCount })

/-- 41_bitstream_packer.md R80: the test, eight bits of each byte with the most significant first, the length, and
nothing else. -/
def Obligations.TobitsExpandsMsbFirst : Prop :=
  decode 0x00000002#32 = .ok .tobits ∧
  ∀ s : State, s.sizes.wf = true →
    (s.sizes.byteMax < s.byteLen.toNat ∨ s.sizes.bitMax < 8 * s.byteLen.toNat →
      exec .tobits s = .next (s.ended .bufferRange)) ∧
    (s.byteLen.toNat ≤ s.sizes.byteMax → 8 * s.byteLen.toNat ≤ s.sizes.bitMax →
      ∃ t, exec .tobits s = .next t ∧
        (∀ i, i < s.byteLen.toNat → ∃ b, Reads s.bytebuf i b ∧
          ∀ j, j < 8 → Memory.get t.bitbuf (8 * i + j) = some (BitVec.ofBool (b.getLsbD (7 - j)))) ∧
        (∀ a, 8 * s.byteLen.toNat ≤ a → Memory.get t.bitbuf a = Memory.get s.bitbuf a) ∧
        t.bitLen.toNat = 8 * s.byteLen.toNat ∧
        t = { s.ended .none with bitbuf := t.bitbuf, bitLen := t.bitLen, freeCount := t.freeCount })

/-- 41_bitstream_packer.md R81 and R82: the test, one byte of each whole chunk with its first bit the most significant,
the length; the bits after the last whole chunk take no part, are not padded and raise nothing. -/
def Obligations.TobytesPacksWholeChunks : Prop :=
  decode 0x00000003#32 = .ok .tobytes ∧
  ∀ s : State, s.sizes.wf = true →
    (s.sizes.bitMax < s.bitLen.toNat ∨ s.sizes.byteMax < s.bitLen.toNat / 8 →
      exec .tobytes s = .next (s.ended .bufferRange)) ∧
    (s.bitLen.toNat ≤ s.sizes.bitMax → s.bitLen.toNat / 8 ≤ s.sizes.byteMax →
      ∃ t, exec .tobytes s = .next t ∧
        (∀ i, i < s.bitLen.toNat / 8 → ∃ (f : Nat → Bit) (b : Byte), (∀ j, j < 8 → Reads s.bitbuf (8 * i + j) (f j)) ∧
          b.toNat = 128 * (f 0).toNat + 64 * (f 1).toNat + 32 * (f 2).toNat + 16 * (f 3).toNat + 8 * (f 4).toNat +
            4 * (f 5).toNat + 2 * (f 6).toNat + (f 7).toNat ∧
          Memory.get t.bytebuf i = some b) ∧
        (∀ a, s.bitLen.toNat / 8 ≤ a → Memory.get t.bytebuf a = Memory.get s.bytebuf a) ∧
        t.byteLen.toNat = s.bitLen.toNat / 8 ∧
        t = { s.ended .none with bytebuf := t.bytebuf, byteLen := t.byteLen, freeCount := t.freeCount })

/-- 42_framing_terminator.md R90: the test, 32 zero bits appended, the length, and nothing else. -/
def Obligations.ApptermAppendsTheTerminator : Prop :=
  decode 0x00000004#32 = .ok .appterm ∧
  ∀ s : State, s.sizes.wf = true →
    (s.sizes.bitMax < s.bitLen.toNat + 32 → exec .appterm s = .next (s.ended .bufferRange)) ∧
    (s.bitLen.toNat + 32 ≤ s.sizes.bitMax →
      ∃ t, exec .appterm s = .next t ∧
        (∀ j, j < 32 → Memory.get t.bitbuf (s.bitLen.toNat + j) = some 0) ∧
        (∀ a, ¬ (s.bitLen.toNat ≤ a ∧ a < s.bitLen.toNat + 32) → Memory.get t.bitbuf a = Memory.get s.bitbuf a) ∧
        t.bitLen.toNat = s.bitLen.toNat + 32 ∧
        t = { s.ended .none with bitbuf := t.bitbuf, bitLen := t.bitLen })

/-- 42_framing_terminator.md R92 with the predicate of R93: the test, the terminator removed and `FOUND` 1, or nothing
removed and `FOUND` 0. -/
def Obligations.DetstripTestsTheLast32Bits : Prop :=
  decode 0x00000005#32 = .ok .detstrip ∧
  ∀ s : State, s.sizes.wf = true →
    (s.sizes.bitMax < s.bitLen.toNat → exec .detstrip s = .next (s.ended .bufferRange)) ∧
    (s.bitLen.toNat ≤ s.sizes.bitMax →
      ∃ (f : Nat → Bit) (t : State), exec .detstrip s = .next t ∧ (∀ j, j < s.bitLen.toNat → Reads s.bitbuf j (f j)) ∧
        (TermAt f s.bitLen.toNat → t.found = true ∧ t.bitLen.toNat + 32 = s.bitLen.toNat) ∧
        (¬ TermAt f s.bitLen.toNat → t.found = false ∧ t.bitLen = s.bitLen) ∧
        t = { s.ended .none with
          bitLen := t.bitLen, status := statusWithFound t.found (statusWithBusy false s.status),
          freeCount := t.freeCount })

/-- 44_capacity_guard.md R115 with the boundary of R116: the range tests first, `CAP` written whether the check passes or
not, strictly greater-than. -/
def Obligations.CapchkComparesWithTheCapacity : Prop :=
  decode 0x00000006#32 = .ok .capchk ∧
  ∀ s : State, s.sizes.wf = true →
    (s.sizes.wMax < s.gridW.toNat ∨ s.sizes.hMax < s.gridH.toNat ∨ s.sizes.bitMax < s.bitLen.toNat →
      exec .capchk s = .next (s.ended .bufferRange)) ∧
    (s.gridW.toNat ≤ s.sizes.wMax → s.gridH.toNat ≤ s.sizes.hMax → s.bitLen.toNat ≤ s.sizes.bitMax →
      ∃ c : Word, c.toNat = 3 * s.gridW.toNat * s.gridH.toNat ∧
        (s.bitLen.toNat ≤ 3 * s.gridW.toNat * s.gridH.toNat →
          exec .capchk s = .next { s.ended .none with cap := c }) ∧
        (3 * s.gridW.toNat * s.gridH.toNat < s.bitLen.toNat →
          exec .capchk s = .next { s.ended .capacityExceeded with cap := c }))

/-- 43_pixel_lsb_embedder.md R104, with R102, R103 and R105: the tests, bit 0 of the first `min(BIT_LEN, 3*W*H)` channels
in scan order, every other cell as it was, the cursor, and no error when the grid is too small. -/
def Obligations.EmbedWritesBitZeroInScanOrder : Prop :=
  decode 0x00000007#32 = .ok .embed ∧
  ∀ s : State, s.sizes.wf = true →
    (s.sizes.wMax < s.gridW.toNat ∨ s.sizes.hMax < s.gridH.toNat ∨ s.sizes.bitMax < s.bitLen.toNat →
      exec .embed s = .next (s.ended .bufferRange)) ∧
    (s.gridW.toNat ≤ s.sizes.wMax → s.gridH.toNat ≤ s.sizes.hMax → s.bitLen.toNat ≤ s.sizes.bitMax →
      ∃ t, exec .embed s = .next t ∧
        t.peCursor.toNat = min s.bitLen.toNat (3 * s.gridW.toNat * s.gridH.toNat) ∧
        (∀ k, k < t.peCursor.toNat → ∃ (v : Byte) (b : Bit), Reads s.pixmem (pixCell s.sizes.nch k) v ∧
          Reads s.bitbuf k b ∧ Memory.get t.pixmem (pixCell s.sizes.nch k) = some ((v &&& 0xFE#8) ||| b.zeroExtend 8)) ∧
        (∀ a, (∀ k, k < t.peCursor.toNat → a ≠ pixCell s.sizes.nch k) →
          Memory.get t.pixmem a = Memory.get s.pixmem a) ∧
        t = { s.ended .none with pixmem := t.pixmem, peCursor := t.peCursor, freeCount := t.freeCount })

/-- 43_pixel_lsb_embedder.md R107 and R108: the test, bit 0 of each channel in scan order until the last 32 are zero
(stripped, `FOUND` 1) or the grid ends (`FOUND` 0, no error), and nothing else. -/
def Obligations.ExtractReadsUntilTheTerminator : Prop :=
  decode 0x00000008#32 = .ok .extract ∧
  ∀ s : State, s.sizes.wf = true →
    (s.sizes.wMax < s.gridW.toNat ∨ s.sizes.hMax < s.gridH.toNat → exec .extract s = .next (s.ended .bufferRange)) ∧
    (s.gridW.toNat ≤ s.sizes.wMax → s.gridH.toNat ≤ s.sizes.hMax →
      ∃ (f : Nat → Bit) (n : Nat) (t : State), exec .extract s = .next t ∧ Scanned s t f n ∧
        t = { s.ended .none with
          bitbuf := t.bitbuf, bitLen := t.bitLen, peCursor := t.peCursor,
          status := statusWithFound t.found (statusWithBusy false s.status), freeCount := t.freeCount })

/-- 45_orchestration.md R120 where every stage passes, with R124 and the terminator of R111 in the grid. -/
def Obligations.EmbmsgEmbedsTheFramedMessage : Prop :=
  decode 0x00000009#32 = .ok .embmsg ∧
  ∀ s : State, s.sizes.wf = true → s.keyLen ≠ 0 → s.keyLen.toNat ≤ s.sizes.keyMax →
    s.byteLen.toNat ≤ s.sizes.byteMax → s.gridW.toNat ≤ s.sizes.wMax → s.gridH.toNat ≤ s.sizes.hMax →
    8 * s.byteLen.toNat + 32 ≤ 3 * s.gridW.toNat * s.gridH.toNat →
    ∃ (f : Nat → Byte) (t : State), exec .embmsg s = .next t ∧ Masked s t f ∧
      (∀ a, Memory.get t.bitbuf a =
        if a < 8 * s.byteLen.toNat then some (payloadBit f a)
        else if a < 8 * s.byteLen.toNat + 32 then some 0
        else Memory.get s.bitbuf a) ∧
      t.bitLen.toNat = 8 * s.byteLen.toNat + 32 ∧ t.cap.toNat = 3 * s.gridW.toNat * s.gridH.toNat ∧
      t.peCursor.toNat = 8 * s.byteLen.toNat + 32 ∧
      (∀ k, k < 8 * s.byteLen.toNat + 32 → ∃ (v : Byte) (b : Bit), Reads s.pixmem (pixCell s.sizes.nch k) v ∧
        (b = if k < 8 * s.byteLen.toNat then payloadBit f k else 0) ∧
        Memory.get t.pixmem (pixCell s.sizes.nch k) = some ((v &&& 0xFE#8) ||| b.zeroExtend 8)) ∧
      (∀ a, (∀ k, k < 8 * s.byteLen.toNat + 32 → a ≠ pixCell s.sizes.nch k) →
        Memory.get t.pixmem a = Memory.get s.pixmem a) ∧
      t = { s.ended .none with
        bytebuf := t.bytebuf, xcKidx := t.xcKidx, bitbuf := t.bitbuf, bitLen := t.bitLen, cap := t.cap,
        pixmem := t.pixmem, peCursor := t.peCursor, freeCount := t.freeCount }

/-- 45_orchestration.md R120, the table of errors: the stage that raises and what had been written by then. -/
def Obligations.EmbmsgStopsAtTheFailingStage : Prop :=
  ∀ s : State, s.sizes.wf = true →
    (s.keyLen = 0 → exec .embmsg s = .next (s.ended .invalidKey)) ∧
    (s.keyLen ≠ 0 → s.sizes.keyMax < s.keyLen.toNat ∨ s.sizes.byteMax < s.byteLen.toNat →
      exec .embmsg s = .next (s.ended .bufferRange)) ∧
    (s.keyLen ≠ 0 → s.keyLen.toNat ≤ s.sizes.keyMax → s.byteLen.toNat ≤ s.sizes.byteMax →
      ∃ (f : Nat → Byte) (t : State), exec .embmsg s = .next t ∧ Masked s t f ∧
        (s.sizes.bitMax < 8 * s.byteLen.toNat → t = { s.ended .bufferRange with
          bytebuf := t.bytebuf, xcKidx := t.xcKidx, freeCount := t.freeCount }) ∧
        (8 * s.byteLen.toNat ≤ s.sizes.bitMax → s.sizes.bitMax < 8 * s.byteLen.toNat + 32 →
          t.bitLen.toNat = 8 * s.byteLen.toNat ∧
          (∀ a, Memory.get t.bitbuf a =
            if a < 8 * s.byteLen.toNat then some (payloadBit f a) else Memory.get s.bitbuf a) ∧
          t = { s.ended .bufferRange with
            bytebuf := t.bytebuf, xcKidx := t.xcKidx, bitbuf := t.bitbuf, bitLen := t.bitLen,
            freeCount := t.freeCount }) ∧
        (8 * s.byteLen.toNat + 32 ≤ s.sizes.bitMax →
          s.sizes.wMax < s.gridW.toNat ∨ s.sizes.hMax < s.gridH.toNat ∨
            3 * s.gridW.toNat * s.gridH.toNat < 8 * s.byteLen.toNat + 32 →
          t.bitLen.toNat = 8 * s.byteLen.toNat + 32 ∧
          (∀ a, Memory.get t.bitbuf a =
            if a < 8 * s.byteLen.toNat then some (payloadBit f a)
            else if a < 8 * s.byteLen.toNat + 32 then some 0
            else Memory.get s.bitbuf a) ∧
          (s.sizes.wMax < s.gridW.toNat ∨ s.sizes.hMax < s.gridH.toNat → t = { s.ended .bufferRange with
            bytebuf := t.bytebuf, xcKidx := t.xcKidx, bitbuf := t.bitbuf, bitLen := t.bitLen,
            freeCount := t.freeCount }) ∧
          (s.gridW.toNat ≤ s.sizes.wMax → s.gridH.toNat ≤ s.sizes.hMax →
            t.cap.toNat = 3 * s.gridW.toNat * s.gridH.toNat ∧ t = { s.ended .capacityExceeded with
              bytebuf := t.bytebuf, xcKidx := t.xcKidx, bitbuf := t.bitbuf, bitLen := t.bitLen, cap := t.cap,
              freeCount := t.freeCount })))

/-- 45_orchestration.md R121: the scan, whether it found the terminator or not; then the bytes of its whole chunks,
unmasked; or the first stage that raises and what had been written by then. -/
def Obligations.ExtmsgRecoversTheBytes : Prop :=
  decode 0x0000000A#32 = .ok .extmsg ∧
  ∀ s : State, s.sizes.wf = true →
    (s.sizes.wMax < s.gridW.toNat ∨ s.sizes.hMax < s.gridH.toNat → exec .extmsg s = .next (s.ended .bufferRange)) ∧
    (s.gridW.toNat ≤ s.sizes.wMax → s.gridH.toNat ≤ s.sizes.hMax →
      ∃ (f : Nat → Bit) (n : Nat) (t : State) (g : Nat → Byte), exec .extmsg s = .next t ∧ Scanned s t f n ∧
        (∀ i, i < t.bitLen.toNat / 8 → (g i).toNat = 128 * (f (8 * i)).toNat + 64 * (f (8 * i + 1)).toNat +
          32 * (f (8 * i + 2)).toNat + 16 * (f (8 * i + 3)).toNat + 8 * (f (8 * i + 4)).toNat +
          4 * (f (8 * i + 5)).toNat + 2 * (f (8 * i + 6)).toNat + (f (8 * i + 7)).toNat) ∧
        (s.sizes.byteMax < t.bitLen.toNat / 8 → t = { s.ended .bufferRange with
          bitbuf := t.bitbuf, bitLen := t.bitLen, peCursor := t.peCursor,
          status := statusWithFound t.found (statusWithBusy false s.status), freeCount := t.freeCount }) ∧
        (t.bitLen.toNat / 8 ≤ s.sizes.byteMax →
          t.byteLen.toNat = t.bitLen.toNat / 8 ∧
          (∀ a, t.byteLen.toNat ≤ a → Memory.get t.bytebuf a = Memory.get s.bytebuf a) ∧
          (s.keyLen = 0 ∨ s.sizes.keyMax < s.keyLen.toNat →
            (∀ i, i < t.byteLen.toNat → Memory.get t.bytebuf i = some (g i)) ∧
            t = { s.ended (if s.keyLen = 0 then .invalidKey else .bufferRange) with
              bitbuf := t.bitbuf, bitLen := t.bitLen, peCursor := t.peCursor, bytebuf := t.bytebuf,
              byteLen := t.byteLen, status := statusWithFound t.found (statusWithBusy false s.status),
              freeCount := t.freeCount }) ∧
          (s.keyLen ≠ 0 → s.keyLen.toNat ≤ s.sizes.keyMax →
            (∀ i, i < t.byteLen.toNat → ∃ k, Reads s.keymem (i % s.keyLen.toNat) k ∧
              Memory.get t.bytebuf i = some (g i ^^^ k)) ∧
            t.xcKidx.toNat = t.byteLen.toNat % s.keyLen.toNat ∧
            t = { s.ended .none with
              bitbuf := t.bitbuf, bitLen := t.bitLen, peCursor := t.peCursor, bytebuf := t.bytebuf,
              byteLen := t.byteLen, xcKidx := t.xcKidx,
              status := statusWithFound t.found (statusWithBusy false s.status), freeCount := t.freeCount })))

/-- 45_orchestration.md R121: with a key and room for the bytes, `EXTMSG` runs to its end, `ERR = 0`, whatever the grid
holds and whether or not the terminator was found. -/
def Obligations.ExtmsgCompletesOnAnyGrid : Prop :=
  ∀ s : State, s.sizes.wf = true → s.keyLen ≠ 0 → s.keyLen.toNat ≤ s.sizes.keyMax → s.gridW.toNat ≤ s.sizes.wMax →
    s.gridH.toNat ≤ s.sizes.hMax → 3 * s.gridW.toNat * s.gridH.toNat / 8 ≤ s.sizes.byteMax →
    ∃ t, exec .extmsg s = .next t ∧ t.err = 0 ∧ t.busy = false ∧ t.pixmem = s.pixmem ∧
      t.byteLen.toNat = t.bitLen.toNat / 8 ∧ t.bitLen.toNat ≤ 3 * s.gridW.toNat * s.gridH.toNat

/-- 45_orchestration.md R123: from any idle block a pipeline equals its stages issued one after another by a host that
stops at the first one that leaves `ERR != 0`, in every register and cell but `CMD`. -/
def Obligations.PipelinesEqualTheirStages : Prop :=
  ∀ s : State, s.sizes.wf = true → s.busy = false →
    (∃ t u, hostIssues [.embmsg] s = .next t ∧ hostIssues [.mask, .tobits, .appterm, .capchk, .embed] s = .next u ∧
      t.cmd = 0x00000009#32 ∧ u = { t with cmd := u.cmd }) ∧
    (∃ t u, hostIssues [.extmsg] s = .next t ∧ hostIssues [.extract, .tobytes, .mask] s = .next u ∧
      t.cmd = 0x0000000A#32 ∧ u = { t with cmd := u.cmd })

/-! ### Laws of the units -/

/-- 40_xor_stream_cipher.md R74, the cipher involution: two `MASK` commands with the same key bytes, lengths and byte
cells in between leave the bytes as they were. -/
def Obligations.MaskTwiceRestoresTheBytes : Prop :=
  ∀ s t t' : State, s.sizes.wf = true → s.keyLen ≠ 0 → s.keyLen.toNat ≤ s.sizes.keyMax →
    s.byteLen.toNat ≤ s.sizes.byteMax → WrittenBelow s.keymem s.keyLen.toNat → WrittenBelow s.bytebuf s.byteLen.toNat →
    exec .mask s = .next t → t'.sizes = s.sizes → t'.keyLen = s.keyLen → t'.byteLen = s.byteLen →
    (∀ j, j < s.keyLen.toNat → Memory.get t'.keymem j = Memory.get s.keymem j) →
    (∀ i, i < s.byteLen.toNat → Memory.get t'.bytebuf i = Memory.get t.bytebuf i) →
    ∃ u, exec .mask t' = .next u ∧ u.err = 0 ∧
      ∀ i, i < s.byteLen.toNat → Memory.get u.bytebuf i = Memory.get s.bytebuf i

/-- 40_xor_stream_cipher.md R71, 90_conflicts.md C8: `MASK` is a function of the key, the bytes and the two lengths, and
of nothing an earlier command left. -/
def Obligations.MaskDependsOnlyOnItsOperands : Prop :=
  ∀ s s' : State, s.sizes.wf = true → s'.sizes = s.sizes → s'.keyLen = s.keyLen → s'.byteLen = s.byteLen →
    s.keyLen ≠ 0 → s.keyLen.toNat ≤ s.sizes.keyMax → s.byteLen.toNat ≤ s.sizes.byteMax →
    WrittenBelow s.keymem s.keyLen.toNat → WrittenBelow s.bytebuf s.byteLen.toNat →
    (∀ j, j < s.keyLen.toNat → Memory.get s'.keymem j = Memory.get s.keymem j) →
    (∀ i, i < s.byteLen.toNat → Memory.get s'.bytebuf i = Memory.get s.bytebuf i) →
    ∃ t t', exec .mask s = .next t ∧ exec .mask s' = .next t' ∧ t'.xcKidx = t.xcKidx ∧ t'.err = t.err ∧
      ∀ i, i < s.byteLen.toNat → Memory.get t'.bytebuf i = Memory.get t.bytebuf i

/-- 41_bitstream_packer.md R83: `TOBITS` then `TOBYTES` leaves the bytes and their number as they were. -/
def Obligations.TobitsThenTobytesIsIdentity : Prop :=
  ∀ s t t' : State, s.sizes.wf = true → s.byteLen.toNat ≤ s.sizes.byteMax → 8 * s.byteLen.toNat ≤ s.sizes.bitMax →
    WrittenBelow s.bytebuf s.byteLen.toNat → exec .tobits s = .next t → t'.sizes = s.sizes → t'.bitLen = t.bitLen →
    (∀ a, a < 8 * s.byteLen.toNat → Memory.get t'.bitbuf a = Memory.get t.bitbuf a) →
    ∃ u, exec .tobytes t' = .next u ∧ u.err = 0 ∧ u.byteLen = s.byteLen ∧
      ∀ i, i < s.byteLen.toNat → Memory.get u.bytebuf i = Memory.get s.bytebuf i

/-- 41_bitstream_packer.md R84: `TOBYTES` then `TOBITS` keeps the bits of the whole chunks, and drops the rest from the
length. -/
def Obligations.TobytesThenTobitsKeepsWholeChunks : Prop :=
  ∀ s t : State, s.sizes.wf = true → s.bitLen.toNat ≤ s.sizes.bitMax → s.bitLen.toNat / 8 ≤ s.sizes.byteMax →
    WrittenBelow s.bitbuf (8 * (s.bitLen.toNat / 8)) → exec .tobytes s = .next t →
    ∃ u, exec .tobits t = .next u ∧ u.err = 0 ∧ u.bitLen.toNat = 8 * (s.bitLen.toNat / 8) ∧
      ∀ a, Memory.get u.bitbuf a = Memory.get s.bitbuf a

/-- 42_framing_terminator.md R95: `APPTERM` then `DETSTRIP`. -/
def Obligations.ApptermThenDetstripFinds : Prop :=
  ∀ s t t' : State, s.sizes.wf = true → s.bitLen.toNat + 32 ≤ s.sizes.bitMax → exec .appterm s = .next t →
    t'.sizes = s.sizes → t'.bitLen = t.bitLen → t'.bitbuf = t.bitbuf →
    ∃ u, exec .detstrip t' = .next u ∧ u.err = 0 ∧ u.found = true ∧ u.bitLen = s.bitLen ∧
      ∀ a, a < s.bitLen.toNat → Memory.get u.bitbuf a = Memory.get s.bitbuf a

/-- 42_framing_terminator.md R96: of a grid whose channels hold a payload of `p` bits, then 32 zeros, then anything, the
scan stops at the least number of channels whose last 32 bits are zero. That is at the payload's end exactly when
`NoEarlyTerm` holds of the payload; otherwise a proper prefix comes back: (a) up to the first run of 32 zeros in the
payload, (b) else without its trailing zeros. -/
def Obligations.ScanStopsAtTheFirstZeroRun : Prop :=
  ∀ (s : State) (bits : Nat → Bit) (p : Nat), s.sizes.wf = true → s.gridW.toNat ≤ s.sizes.wMax →
    s.gridH.toNat ≤ s.sizes.hMax → p + 32 ≤ 3 * s.gridW.toNat * s.gridH.toNat →
    (∀ k, k < p + 32 → ∃ v : Byte, Memory.get s.pixmem (pixCell s.sizes.nch k) = some v ∧
      bits k = BitVec.ofBool (v.getLsbD 0)) →
    (∀ k, p ≤ k → k < p + 32 → bits k = 0) →
    ∃ t, exec .extract s = .next t ∧ t.err = 0 ∧ t.found = true ∧ t.peCursor.toNat = t.bitLen.toNat + 32 ∧
      TermAt bits t.peCursor.toNat ∧ (∀ n, n < t.peCursor.toNat → ¬ TermAt bits n) ∧ t.bitLen.toNat ≤ p ∧
      (∀ k, k < t.bitLen.toNat → Memory.get t.bitbuf k = some (bits k)) ∧
      (t.bitLen.toNat = p ↔ NoEarlyTerm bits p) ∧
      (∀ z, z + 32 ≤ p → (∀ j, j < 32 → bits (z + j) = 0) → (∀ y, y < z → ∃ j, j < 32 ∧ bits (y + j) = 1) →
        t.bitLen.toNat = z) ∧
      (∀ z, z ≤ p → z ≤ 31 → (∀ y, y + 32 ≤ p → ∃ j, j < 32 ∧ bits (y + j) = 1) →
        (∀ j, p - z ≤ j → j < p → bits j = 0) → (z < p → bits (p - z - 1) = 1) → t.bitLen.toNat = p - z)

/-- 43_pixel_lsb_embedder.md R100: the three loops `y`, `x`, `c` visit exactly the cells `PixCell(0)`, `PixCell(1)`, ...
in that order, and the channel index gives row, column and channel back. -/
def Obligations.ScanOrderIsRowMajor : Prop :=
  ∀ nch gridW gridH : Nat,
    (scanOrder gridW gridH).map (fun p => pixCellAt nch gridW p.1 p.2.1 p.2.2) =
      (List.range (3 * gridW * gridH)).map (pixCell nch) ∧
    ∀ y x c, y < gridH → x < gridW → c < 3 →
      pixCell nch ((y * gridW + x) * 3 + c) = pixCellAt nch gridW y x c ∧
      (y * gridW + x) * 3 + c < 3 * gridW * gridH ∧ ((y * gridW + x) * 3 + c) / (3 * gridW) = y ∧
      ((y * gridW + x) * 3 + c) / 3 % gridW = x ∧ ((y * gridW + x) * 3 + c) % 3 = c

/-- 43_pixel_lsb_embedder.md R101, 20_memory.md R56: the scan of a legal grid stays inside `BITBUF` and `PIXMEM`, each
channel has a cell of its own, and no cell of a channel beyond the third is among them. -/
def Obligations.ScanStaysInsideTheMemories : Prop :=
  ∀ (z : Sizes) (gridW gridH : Nat), z.wf = true → gridW ≤ z.wMax → gridH ≤ z.hMax →
    3 * gridW * gridH ≤ z.bitMax ∧
    (∀ k, k < 3 * gridW * gridH → pixCell z.nch k < gridW * gridH * z.nch ∧ pixCell z.nch k < z.pixCells ∧
      pixCell z.nch k % z.nch < 3) ∧
    (∀ j k, pixCell z.nch j = pixCell z.nch k → j = k)

/-- 43_pixel_lsb_embedder.md R109, after an `EXTRACT` of a legal grid. -/
def Obligations.ExtractLeavesWhatItSays : Prop :=
  ∀ s : State, s.sizes.wf = true → s.gridW.toNat ≤ s.sizes.wMax → s.gridH.toNat ≤ s.sizes.hMax →
    ∃ t, exec .extract s = .next t ∧
      (t.found = true → t.peCursor.toNat = t.bitLen.toNat + 32 ∧
        (∀ j, j < 32 → Memory.get t.bitbuf (t.bitLen.toNat + j) = some 0) ∧
        t.bitLen.toNat + 32 ≤ 3 * s.gridW.toNat * s.gridH.toNat) ∧
      (t.found = false → t.bitLen.toNat = 3 * s.gridW.toNat * s.gridH.toNat ∧ t.peCursor = t.bitLen ∧
        ∀ z, z + 32 ≤ t.bitLen.toNat → ∃ j, j < 32 ∧ Memory.get t.bitbuf (z + j) = some 1)

/-- 43_pixel_lsb_embedder.md R110: an `EXTRACT` of the grid an `EMBED` wrote reads back its bits, as far as it goes. -/
def Obligations.EmbedThenExtractReadsBack : Prop :=
  ∀ s t t' : State, s.sizes.wf = true → s.gridW.toNat ≤ s.sizes.wMax → s.gridH.toNat ≤ s.sizes.hMax →
    s.bitLen.toNat ≤ s.sizes.bitMax → WrittenBelow s.bitbuf s.bitLen.toNat → exec .embed s = .next t →
    t'.sizes = s.sizes → t'.gridW = s.gridW → t'.gridH = s.gridH → t'.pixmem = t.pixmem →
    ∃ u, exec .extract t' = .next u ∧ u.err = 0 ∧
      ∀ k, k < t.peCursor.toNat → k < u.peCursor.toNat → Memory.get u.bitbuf k = Memory.get s.bitbuf k

/-- 45_orchestration.md R125, the round trip: an `EMBMSG` that fits completes with `ERR = 0`; with `P` the bits of the
masked bytes, an `EXTMSG` of the same grid with the same key then ends with `ERR = 0` and `FOUND = 1` and recovers the
message when `NoEarlyTerm(P)` holds, and otherwise a proper prefix of it, the scan having stopped early. -/
def Obligations.RoundTripRecoversTheMessage : Prop :=
  ∀ s : State, s.sizes.wf = true → s.keyLen ≠ 0 → s.keyLen.toNat ≤ s.sizes.keyMax →
    s.byteLen.toNat ≤ s.sizes.byteMax → 8 * s.byteLen.toNat + 32 ≤ s.sizes.bitMax → s.gridW.toNat ≤ s.sizes.wMax →
    s.gridH.toNat ≤ s.sizes.hMax → 8 * s.byteLen.toNat + 32 ≤ 3 * s.gridW.toNat * s.gridH.toNat →
    WrittenBelow s.keymem s.keyLen.toNat → WrittenBelow s.bytebuf s.byteLen.toNat →
    ∃ (f : Nat → Byte) (t : State), exec .embmsg s = .next t ∧ t.err = 0 ∧
      (∀ i, i < s.byteLen.toNat → Memory.get t.bytebuf i = some (f i)) ∧
      ∀ t' : State, t'.sizes = s.sizes → t'.pixmem = t.pixmem → t'.keyLen = s.keyLen → t'.gridW = s.gridW →
        t'.gridH = s.gridH → (∀ j, j < s.keyLen.toNat → Memory.get t'.keymem j = Memory.get s.keymem j) →
        ∃ u, exec .extmsg t' = .next u ∧ u.err = 0 ∧ u.found = true ∧
          (∀ i, i < u.byteLen.toNat → Memory.get u.bytebuf i = Memory.get s.bytebuf i) ∧
          (NoEarlyTerm (payloadBit f) (8 * s.byteLen.toNat) → u.byteLen = s.byteLen) ∧
          (¬ NoEarlyTerm (payloadBit f) (8 * s.byteLen.toNat) →
            u.peCursor.toNat < 8 * s.byteLen.toNat + 32 ∧ u.byteLen.toNat = (u.peCursor.toNat - 32) / 8 ∧
            u.byteLen.toNat < s.byteLen.toNat)

/-- 70_reset_and_hazards.md R169, 90_conflicts.md C8: what `EXTMSG` recovers is a function of the grid, the key and the
parameters, and of nothing an earlier command left. -/
def Obligations.ExtmsgDependsOnlyOnGridAndKey : Prop :=
  ∀ s s' : State, s.sizes.wf = true → s'.sizes = s.sizes → s'.gridW = s.gridW → s'.gridH = s.gridH →
    s'.keyLen = s.keyLen → s.gridW.toNat ≤ s.sizes.wMax → s.gridH.toNat ≤ s.sizes.hMax →
    (∀ k, k < 3 * s.gridW.toNat * s.gridH.toNat → ∃ v, Memory.get s.pixmem (pixCell s.sizes.nch k) = some v ∧
      Memory.get s'.pixmem (pixCell s.sizes.nch k) = some v) →
    WrittenBelow s.keymem s.keyLen.toNat →
    (∀ j, j < s.keyLen.toNat → Memory.get s'.keymem j = Memory.get s.keymem j) →
    ∃ t t', exec .extmsg s = .next t ∧ exec .extmsg s' = .next t' ∧ t'.err = t.err ∧ t'.found = t.found ∧
      t'.bitLen = t.bitLen ∧ t'.peCursor = t.peCursor ∧
      (∀ k, k < t.peCursor.toNat → Memory.get t'.bitbuf k = Memory.get t.bitbuf k) ∧
      (t.err = 0 → t'.byteLen = t.byteLen ∧ t'.xcKidx = t.xcKidx ∧
        ∀ i, i < t.byteLen.toNat → Memory.get t'.bytebuf i = Memory.get t.bytebuf i)

/-! ### Rules of the whole machine -/

/-- 60_exceptions.md R135, R140, 10_state.md R15: every command ends idle with one of the listed codes in `ERR`, and only
the commands of R135's table raise each. -/
def Obligations.EveryCommandEndsWithAListedCode : Prop :=
  ∀ (i : Instr) (s : State), s.sizes.wf = true → ∃ t, exec i s = .next t ∧ t.busy = false ∧
    (t.err = 0 ∨ (t.err = 1 ∧ (i = .mask ∨ i = .embmsg ∨ i = .extmsg)) ∨ (t.err = 2 ∧ (i = .capchk ∨ i = .embmsg)) ∨
      (t.err = 3 ∧ i ≠ .nop))

/-- 60_exceptions.md R137: exactly when each primitive command raises `BufferRange`. -/
def Obligations.BufferRangeConditions : Prop :=
  ∀ s : State, s.sizes.wf = true → ∃ t1 t2 t3 t4 t5 t6 t7 t8,
    exec .mask s = .next t1 ∧ (t1.err = 3 ↔ s.keyLen ≠ 0 ∧
      (s.sizes.keyMax < s.keyLen.toNat ∨ s.sizes.byteMax < s.byteLen.toNat)) ∧
    exec .tobits s = .next t2 ∧ (t2.err = 3 ↔ s.sizes.byteMax < s.byteLen.toNat ∨
      s.sizes.bitMax < 8 * s.byteLen.toNat) ∧
    exec .tobytes s = .next t3 ∧ (t3.err = 3 ↔ s.sizes.bitMax < s.bitLen.toNat ∨
      s.sizes.byteMax < s.bitLen.toNat / 8) ∧
    exec .appterm s = .next t4 ∧ (t4.err = 3 ↔ s.sizes.bitMax < s.bitLen.toNat + 32) ∧
    exec .detstrip s = .next t5 ∧ (t5.err = 3 ↔ s.sizes.bitMax < s.bitLen.toNat) ∧
    exec .capchk s = .next t6 ∧ (t6.err = 3 ↔ s.sizes.wMax < s.gridW.toNat ∨ s.sizes.hMax < s.gridH.toNat ∨
      s.sizes.bitMax < s.bitLen.toNat) ∧
    exec .embed s = .next t7 ∧ (t7.err = 3 ↔ s.sizes.wMax < s.gridW.toNat ∨ s.sizes.hMax < s.gridH.toNat ∨
      s.sizes.bitMax < s.bitLen.toNat) ∧
    exec .extract s = .next t8 ∧ (t8.err = 3 ↔ s.sizes.wMax < s.gridW.toNat ∨ s.sizes.hMax < s.gridH.toNat)

/-- 60_exceptions.md R142 (2) and (3): which error wins. -/
def Obligations.ErrorPriority : Prop :=
  ∀ s : State, s.sizes.wf = true →
    (s.keyLen = 0 → ∃ t u, exec .mask s = .next t ∧ t.err = 1 ∧ exec .embmsg s = .next u ∧ u.err = 1) ∧
    (s.sizes.wMax < s.gridW.toNat ∨ s.sizes.hMax < s.gridH.toNat →
      ∃ t u, exec .capchk s = .next t ∧ t.err = 3 ∧ exec .extmsg s = .next u ∧ u.err = 3)

/-- 60_exceptions.md R141, 44_capacity_guard.md R117: a command that ends with `ERR != 0` has written no cell of
`PIXMEM`. -/
def Obligations.FailingCommandsLeaveTheGridAlone : Prop :=
  ∀ (i : Instr) (s t : State), s.sizes.wf = true → exec i s = .next t → t.err ≠ 0 → t.pixmem = s.pixmem

/-- 44_capacity_guard.md R117: `CAPCHK` writes no cell of `PIXMEM` in any outcome, and an `EMBMSG` whose payload is
longer than the capacity leaves the grid unchanged and reports `CapacityExceeded`. -/
def Obligations.RejectedPayloadLeavesTheGridUnchanged : Prop :=
  ∀ s : State, s.sizes.wf = true →
    (∃ t, exec .capchk s = .next t ∧ t.pixmem = s.pixmem) ∧
    (s.keyLen ≠ 0 → s.keyLen.toNat ≤ s.sizes.keyMax → s.byteLen.toNat ≤ s.sizes.byteMax →
      8 * s.byteLen.toNat + 32 ≤ s.sizes.bitMax → s.gridW.toNat ≤ s.sizes.wMax → s.gridH.toNat ≤ s.sizes.hMax →
      3 * s.gridW.toNat * s.gridH.toNat < 8 * s.byteLen.toNat + 32 →
      ∃ t, exec .embmsg s = .next t ∧ t.err = 2 ∧ t.pixmem = s.pixmem ∧ t.peCursor = s.peCursor)

/-- 10_state.md R12, the column "written by commands", with R13, R14, R16, R19, R20 and R26: what no command writes, and
which commands write the rest. -/
def Obligations.CommandsWriteOnlyTheirRegisters : Prop :=
  ∀ (i : Instr) (s t : State), s.sizes.wf = true → exec i s = .next t →
    (t.sizes = s.sizes ∧ t.cmd = s.cmd ∧ t.keyLen = s.keyLen ∧ t.gridW = s.gridW ∧ t.gridH = s.gridH ∧
      t.keymem = s.keymem ∧ t.inputs = s.inputs ∧ t.readLog = s.readLog) ∧
    (i ≠ .detstrip → i ≠ .extract → i ≠ .extmsg → t.status = statusWithBusy false s.status) ∧
    (i ≠ .tobytes → i ≠ .extmsg → t.byteLen = s.byteLen) ∧
    (i = .nop ∨ i = .mask ∨ i = .tobytes ∨ i = .capchk ∨ i = .embed → t.bitLen = s.bitLen) ∧
    (i ≠ .capchk → i ≠ .embmsg → t.cap = s.cap) ∧
    (i ≠ .mask → i ≠ .embmsg → i ≠ .extmsg → t.xcKidx = s.xcKidx) ∧
    (i ≠ .embed → i ≠ .extract → i ≠ .embmsg → i ≠ .extmsg → t.peCursor = s.peCursor)

/-- 30_encoding.md R64, 10_state.md R27, R28: a command writes exactly the cells its rule names; every other cell of every
memory keeps its value. `writesCell` is R64's table. -/
def Obligations.CommandsWriteOnlyTheirCells : Prop :=
  ∀ (i : Instr) (s t : State) (m : MemId) (a : Nat), s.sizes.wf = true → exec i s = .next t →
    writesCell i s m a = false → hostCell t m a = hostCell s m a

/-- 45_orchestration.md R126, 60_exceptions.md R145: every step of a block has a next state; nothing stops it. -/
def Obligations.NoStepStops : Prop :=
  ∀ s : State, s.sizes.wf = true → ∃ t, step s = .next t

/-- `State.Inv` holds after reset, for every choice of the parameters (R156, R157). -/
def Obligations.ResetMeetsTheInvariant : Prop := ∀ z : Sizes, z.wf = true → (State.resetOf z).Inv

/-- Every step keeps `State.Inv`: the memories in canonical form and inside their sizes (R56), the reserved bits of
`STATUS` (R14), the codes of `ERR` (R15), `CAP`, `XC_KIDX` and `PE_CURSOR` in their ranges (R21 to R23). -/
def Obligations.EveryStepKeepsTheInvariant : Prop := ∀ s t : State, s.Inv → step s = .next t → t.Inv

/-- Every run of a block from reset, over any inputs of the host and of `rst` and of any length, goes on and meets the
invariant. -/
def Obligations.EveryRunFromResetIsSafe : Prop :=
  ∀ (z : Sizes) (script : List Input) (k : Nat), z.wf = true →
    ∃ t : State, Host.Core.run Sys2Proof.core k { State.resetOf z with inputs := script } = .next t ∧ t.Inv ∧
      t.sizes = z

/-- 70_reset_and_hazards.md R157, 20_memory.md R46: a cell that has been written stays written, whatever the step does, a
reset during a command included. -/
def Obligations.WrittenCellsStayWritten : Prop :=
  ∀ (s t : State) (m : MemId) (a : Nat), step s = .next t → (hostCell s m a).isSome = true →
    (hostCell t m a).isSome = true

/-- 20_memory.md R46: two reads of a written cell, with no write between, return the same value. -/
def Obligations.TwoReadsOfAWrittenCellAgree : Prop :=
  ∀ (s : State) (m : MemId) (i v u r : Word) (rest : List Input), s.sizes.wf = true → s.busy = false →
    i.toNat < cellCount s.sizes m → hostCell s m i.toNat = some r →
    s.inputs = .txn { write := false, space := spaceId m, index := i, wdata := v } ::
      .txn { write := false, space := spaceId m, index := i, wdata := u } :: rest →
    ∃ t t', step s = .next t ∧ step t = .next t' ∧ t'.readLog = s.readLog ++ [r, r]
end

