-- ==== Sys2Proof/Laws/Bits.lean ====
section
/-! SUPPORT. The laws of the bit fields: `STATUS`, the packing of a byte, the payload bit of a channel. -/

namespace Sys2Proof.Machine

/-! ### `STATUS` (spec 10_state.md R14) -/

/-- The bits of a word with one bit set. -/
theorem twoPow_getLsbD (k i : Nat) (hk : k < 32) : (BitVec.twoPow 32 k).getLsbD i = decide (k = i) := by
  by_cases h : k = i <;> simp [BitVec.getLsbD_twoPow, h]; omega

/-- Bit 0 is replaced, every other bit is kept. -/
theorem statusWithBusy_getLsbD (b : Bool) (v : Word) (i : Nat) :
    (statusWithBusy b v).getLsbD i = if i = 0 then b else v.getLsbD i := by
  have e : (1#32 : Word) = BitVec.twoPow 32 0 := rfl
  have hv : v.getLsbD i = true → i < 32 := BitVec.lt_of_getLsbD
  cases b <;>
    simp only [statusWithBusy, e, BitVec.getLsbD_or, BitVec.getLsbD_and, BitVec.getLsbD_not,
      twoPow_getLsbD 0 i (by omega), if_true, Bool.false_eq_true, if_false] <;>
    by_cases h : i = 0
  · simp [h]
  · simpa [h, Ne.symm h] using hv
  · simp [h]
  · cases hb : v.getLsbD i <;> simp_all [Ne.symm h]

/-- Bit 1 is replaced, every other bit is kept. -/
theorem statusWithFound_getLsbD (b : Bool) (v : Word) (i : Nat) :
    (statusWithFound b v).getLsbD i = if i = 1 then b else v.getLsbD i := by
  have e : (2#32 : Word) = BitVec.twoPow 32 1 := rfl
  have hv : v.getLsbD i = true → i < 32 := BitVec.lt_of_getLsbD
  cases b <;>
    simp only [statusWithFound, e, BitVec.getLsbD_or, BitVec.getLsbD_and, BitVec.getLsbD_not,
      twoPow_getLsbD 1 i (by omega), if_true, Bool.false_eq_true, if_false] <;>
    by_cases h : i = 1
  · simp [h]
  · simpa [h, Ne.symm h] using hv
  · simp [h]
  · cases hb : v.getLsbD i <;> simp_all [Ne.symm h]

@[simp] theorem busy_setBusy (s : State) (b : Bool) : (s.setBusy b).busy = b := statusWithBusy_getLsbD b s.status 0

@[simp] theorem busy_setFound (s : State) (b : Bool) : (s.setFound b).busy = s.busy :=
  statusWithFound_getLsbD b s.status 0

@[simp] theorem found_setFound (s : State) (b : Bool) : (s.setFound b).found = b :=
  statusWithFound_getLsbD b s.status 1

@[simp] theorem found_setBusy (s : State) (b : Bool) : (s.setBusy b).found = s.found :=
  statusWithBusy_getLsbD b s.status 1

/-- The two fields are independent. -/
theorem statusWithBusy_statusWithFound (a b : Bool) (v : Word) :
    statusWithBusy a (statusWithFound b v) = statusWithFound b (statusWithBusy a v) := by
  refine BitVec.eq_of_getLsbD_eq fun i _ => ?_
  simp only [statusWithBusy_getLsbD, statusWithFound_getLsbD]
  split_ifs <;> first | rfl | omega

@[simp] theorem statusWithBusy_twice (a b : Bool) (v : Word) :
    statusWithBusy a (statusWithBusy b v) = statusWithBusy a v := by
  refine BitVec.eq_of_getLsbD_eq fun i _ => ?_
  simp only [statusWithBusy_getLsbD]
  split_ifs <;> rfl

@[simp] theorem statusWithFound_twice (a b : Bool) (v : Word) :
    statusWithFound a (statusWithFound b v) = statusWithFound a v := by
  refine BitVec.eq_of_getLsbD_eq fun i _ => ?_
  simp only [statusWithFound_getLsbD]
  split_ifs <;> rfl

/-- An idle block's status word is the word itself. -/
theorem statusWithBusy_of_idle {s : State} (h : s.busy = false) : statusWithBusy false s.status = s.status := by
  refine BitVec.eq_of_getLsbD_eq fun i _ => ?_
  rw [statusWithBusy_getLsbD]
  split_ifs with h0
  · subst h0; exact h.symm
  · rfl

/-- The status word with `FOUND` written with the value it has is the word itself. -/
theorem statusWithFound_self (s : State) : statusWithFound s.found s.status = s.status := by
  refine BitVec.eq_of_getLsbD_eq fun i _ => ?_
  rw [statusWithFound_getLsbD]
  split_ifs with h0
  · subst h0; rfl
  · rfl

/-- Bits 31:2 are 0: they are 0 in the word under the mask of bits 1:0. -/
theorem status_reserved_iff (v : Word) : v &&& ~~~3#32 = 0#32 ↔ ∀ i, 2 ≤ i → v.getLsbD i = false := by
  have e (i : Nat) (hi : i < 32) : (~~~3#32).getLsbD i = decide (2 ≤ i) := by
    revert i; decide
  constructor
  · intro h i h2
    by_cases hi : i < 32
    · have := congrArg (fun x => x.getLsbD i) h
      simpa only [BitVec.getLsbD_and, e i hi, h2, decide_true, Bool.and_true, BitVec.getLsbD_zero] using this
    · exact BitVec.getLsbD_of_ge _ _ (by omega)
  · intro h
    refine BitVec.eq_of_getLsbD_eq fun i hi => ?_
    rw [BitVec.getLsbD_and, e i hi, BitVec.getLsbD_zero]
    by_cases h2 : 2 ≤ i <;> simp [h2, h]

/-- Writing `BUSY` keeps the reserved bits. -/
theorem reserved_statusWithBusy {v : Word} (h : v &&& ~~~3#32 = 0#32) (b : Bool) :
    statusWithBusy b v &&& ~~~3#32 = 0#32 := by
  rw [status_reserved_iff] at h ⊢
  intro i hi
  rw [statusWithBusy_getLsbD, if_neg (by omega), h i hi]

/-- Writing `FOUND` keeps the reserved bits. -/
theorem reserved_statusWithFound {v : Word} (h : v &&& ~~~3#32 = 0#32) (b : Bool) :
    statusWithFound b v &&& ~~~3#32 = 0#32 := by
  rw [status_reserved_iff] at h ⊢
  intro i hi
  rw [statusWithFound_getLsbD, if_neg (by omega), h i hi]

/-! ### `ERR` (R15) -/

theorem code_le (e : ErrCode) : e.code.toNat ≤ 4 := by cases e <;> decide

@[simp] theorem code_eq_zero_iff (e : ErrCode) : e.code = 0 ↔ e = .none := by cases e <;> decide

/-! ### A byte and its bits (41_bitstream_packer.md R80, R81) -/

/-- A bit is 0 or 1. -/
theorem bit_cases (b : Bit) : b = 0 ∨ b = 1 := by revert b; decide

theorem bit_ne_zero_iff (b : Bit) : b ≠ 0 ↔ b = 1 := by revert b; decide

/-- `TOBITS`'s bit `j` of a byte, as a number. -/
theorem bitOfByte_toNat (v : Byte) (j : Nat) :
    (bitOfByte v j).toNat = v.toNat / 2 ^ (7 - j) % 2 := by
  simp [bitOfByte, BitVec.extractLsb'_toNat, Nat.shiftRight_eq_div_pow]

/-- `TOBITS`'s bit `j` of a byte is its bit `7 - j` (R80). -/
theorem bitOfByte_eq (v : Byte) (j : Nat) : bitOfByte v j = BitVec.ofBool (v.getLsbD (7 - j)) := by
  refine BitVec.eq_of_getLsbD_eq fun i hi => ?_
  obtain rfl : i = 0 := by omega
  simp [bitOfByte]

/-- `EXTRACT`'s bit of a channel is its bit 0 (43_pixel_lsb_embedder.md R102). -/
theorem channelBit_eq (v : Byte) : channelBit v = BitVec.ofBool (v.getLsbD 0) := bitOfByte_eq v 7

/-- `TOBYTES` of the bits `TOBITS` makes of a byte is that byte. -/
theorem packBits_bitOfByte (v : Byte) : packBits ((List.range 8).map (bitOfByte v)) = v := by
  revert v; decide +kernel

/-- `TOBYTES`'s byte of eight bits, as a number (R81). -/
theorem packBits_eight (a b c d e f g h : Bit) :
    (packBits [a, b, c, d, e, f, g, h]).toNat =
      128 * a.toNat + 64 * b.toNat + 32 * c.toNat + 16 * d.toNat + 8 * e.toNat + 4 * f.toNat + 2 * g.toNat + h.toNat := by
  revert a b c d e f g h; decide +kernel

/-- `TOBITS`'s bits of the byte `TOBYTES` makes of eight bits are those bits. -/
theorem bitOfByte_packBits (bs : List Bit) (h : bs.length = 8) (j : Nat) (hj : j < 8) :
    bs[j]? = some (bitOfByte (packBits bs) j) := by
  match bs, h with
  | [a, b, c, d, e, f, g, k], _ => revert a b c d e f g k j; decide +kernel

/-! ### A channel value (43_pixel_lsb_embedder.md R102) -/

@[simp] theorem channelBit_embedBit (v : Byte) (b : Bit) : channelBit (embedBit v b) = b := by
  revert v b; decide +kernel

/-- Bits 7:1 of a written channel are kept. -/
theorem embedBit_high (v : Byte) (b : Bit) : embedBit v b &&& 0xFE#8 = v &&& 0xFE#8 := by
  revert v b; decide +kernel

end Sys2Proof.Machine
end

