-- ==== Sys2Proof/Laws/Numbers.lean ====
section
/-! SUPPORT. The numbers: what the parameters' constraints (spec 00_scope.md R6, R7) say of registers, and the arithmetic
of the scan (43_pixel_lsb_embedder.md R100). -/

namespace Sys2Proof.Machine

/-- What R6 and R7 say, as inequalities. -/
theorem Sizes.wf_iff (z : Sizes) :
    z.wf = true ↔ (1 ≤ z.keyMax ∧ z.keyMax < 2 ^ 32) ∧ z.byteMax < 2 ^ 32 ∧ (32 ≤ z.bitMax ∧ z.bitMax < 2 ^ 32) ∧
      3 ≤ z.nch ∧ 3 * z.wMax * z.hMax ≤ z.bitMax ∧ z.pixCells < 2 ^ 32 := by
  simp [Sizes.wf, Sizes.keyOk, Sizes.byteOk, Sizes.bitOk, Sizes.nchOk, Sizes.scanOk, Sizes.gridOk, and_assoc]

/-- A number below `2^32` is stored in a register as it is. -/
theorem regOf_toNat {n : Nat} (h : n < 2 ^ 32) : (regOf n).toNat = n := by
  simp only [regOf, BitVec.toNat_ofNat]; exact Nat.mod_eq_of_lt h

/-- A register that counts goes up by one while it stays below `2^32`. -/
theorem toNat_add_one {x : Word} (h : x.toNat + 1 < 2 ^ 32) : (x + 1).toNat = x.toNat + 1 := by
  rw [BitVec.toNat_add, show (1 : Word).toNat = 1 from rfl]; exact Nat.mod_eq_of_lt h

theorem toNat_eq_zero_iff (x : Word) : x.toNat = 0 ↔ x = 0 := by
  constructor
  · intro h; exact BitVec.eq_of_toNat_eq (by simpa using h)
  · rintro rfl; rfl

theorem gridOk_iff (s : State) : s.gridOk = true ↔ s.gridW.toNat ≤ s.sizes.wMax ∧ s.gridH.toNat ≤ s.sizes.hMax := by
  simp [State.gridOk]

/-- A legal grid has at most `W_MAX * H_MAX` pixels. -/
theorem pixels_le {s : State} (hg : s.gridOk = true) :
    s.gridW.toNat * s.gridH.toNat ≤ s.sizes.wMax * s.sizes.hMax :=
  Nat.mul_le_mul ((gridOk_iff s).1 hg).1 ((gridOk_iff s).1 hg).2

/-- The scan of a legal grid does not outrun `BITBUF` (R101). -/
theorem channels_le {s : State} (hz : s.sizes.wf = true) (hg : s.gridOk = true) : s.channels ≤ s.sizes.bitMax := by
  have h := ((Sizes.wf_iff _).1 hz).2.2.2.2.1
  have := pixels_le hg
  rw [State.channels, Nat.mul_assoc]
  rw [Nat.mul_assoc] at h
  omega

theorem channels_lt {s : State} (hz : s.sizes.wf = true) (hg : s.gridOk = true) : s.channels < 2 ^ 32 :=
  lt_of_le_of_lt (channels_le hz hg) ((Sizes.wf_iff _).1 hz).2.2.1.2

/-- Every channel of a legal grid has its cell in `PIXMEM` (R101). -/
theorem pixCell_lt {s : State} (hz : s.sizes.wf = true) (hg : s.gridOk = true) {k : Nat} (hk : k < s.channels) :
    pixCell s.sizes.nch k < s.sizes.pixCells := by
  have hn : 3 ≤ s.sizes.nch := ((Sizes.wf_iff _).1 hz).2.2.2.1
  have hp := pixels_le hg
  rw [State.channels, Nat.mul_assoc] at hk
  have hk3 : k / 3 + 1 ≤ s.sizes.wMax * s.sizes.hMax := by omega
  have := Nat.mul_le_mul_right s.sizes.nch hk3
  simp only [pixCell, Sizes.pixCells]
  rw [Nat.add_mul] at this
  omega

/-- The channel index of a cell is the one whose cell it is (R100, R103). -/
theorem channelOf_iff {nch : Nat} (hn : 3 ≤ nch) (a k : Nat) : channelOf nch a = some k ↔ a = pixCell nch k := by
  have hdm := Nat.div_add_mod a nch
  simp only [channelOf, pixCell]
  constructor
  · intro h
    split at h
    · obtain rfl := Option.some.inj h
      rw [show (3 * (a / nch) + a % nch) / 3 = a / nch by omega, show (3 * (a / nch) + a % nch) % 3 = a % nch by omega,
        Nat.mul_comm]
      omega
    · cases h
  · rintro rfl
    have hk := Nat.mod_lt k (show 0 < 3 by omega)
    have e1 : (k / 3 * nch + k % 3) / nch = k / 3 := by
      rw [Nat.add_comm, Nat.add_mul_div_right _ _ (by omega), Nat.div_eq_of_lt (by omega)]; omega
    have e2 : (k / 3 * nch + k % 3) % nch = k % 3 := by
      rw [Nat.add_comm, Nat.add_mul_mod_self_right]; exact Nat.mod_eq_of_lt (by omega)
    rw [e1, e2, if_pos hk]
    congr 1; omega

/-- Two channels have two cells. -/
theorem pixCell_inj {nch : Nat} (hn : 3 ≤ nch) {j k : Nat} (h : pixCell nch j = pixCell nch k) : j = k :=
  Option.some.inj (((channelOf_iff hn _ j).2 rfl).symm.trans ((channelOf_iff hn _ k).2 h))

end Sys2Proof.Machine
end

