-- ==== Sys2Proof/Laws/State.lean ====
section
/-! SUPPORT. One lemma per field per update of the state, so that no proof unfolds a record update. -/

namespace Sys2Proof.Machine

/-! ### `STATUS.BUSY <- b` -/

@[simp] theorem setBusy_sizes (s : State) (b : Bool) : (s.setBusy b).sizes = s.sizes := rfl
@[simp] theorem setBusy_cmd (s : State) (b : Bool) : (s.setBusy b).cmd = s.cmd := rfl
@[simp] theorem setBusy_status (s : State) (b : Bool) : (s.setBusy b).status = statusWithBusy b s.status := rfl
@[simp] theorem setBusy_err (s : State) (b : Bool) : (s.setBusy b).err = s.err := rfl
@[simp] theorem setBusy_keyLen (s : State) (b : Bool) : (s.setBusy b).keyLen = s.keyLen := rfl
@[simp] theorem setBusy_byteLen (s : State) (b : Bool) : (s.setBusy b).byteLen = s.byteLen := rfl
@[simp] theorem setBusy_bitLen (s : State) (b : Bool) : (s.setBusy b).bitLen = s.bitLen := rfl
@[simp] theorem setBusy_gridW (s : State) (b : Bool) : (s.setBusy b).gridW = s.gridW := rfl
@[simp] theorem setBusy_gridH (s : State) (b : Bool) : (s.setBusy b).gridH = s.gridH := rfl
@[simp] theorem setBusy_cap (s : State) (b : Bool) : (s.setBusy b).cap = s.cap := rfl
@[simp] theorem setBusy_xcKidx (s : State) (b : Bool) : (s.setBusy b).xcKidx = s.xcKidx := rfl
@[simp] theorem setBusy_peCursor (s : State) (b : Bool) : (s.setBusy b).peCursor = s.peCursor := rfl
@[simp] theorem setBusy_keymem (s : State) (b : Bool) : (s.setBusy b).keymem = s.keymem := rfl
@[simp] theorem setBusy_bytebuf (s : State) (b : Bool) : (s.setBusy b).bytebuf = s.bytebuf := rfl
@[simp] theorem setBusy_bitbuf (s : State) (b : Bool) : (s.setBusy b).bitbuf = s.bitbuf := rfl
@[simp] theorem setBusy_pixmem (s : State) (b : Bool) : (s.setBusy b).pixmem = s.pixmem := rfl
@[simp] theorem setBusy_inputs (s : State) (b : Bool) : (s.setBusy b).inputs = s.inputs := rfl
@[simp] theorem setBusy_readLog (s : State) (b : Bool) : (s.setBusy b).readLog = s.readLog := rfl
@[simp] theorem setBusy_freeCount (s : State) (b : Bool) : (s.setBusy b).freeCount = s.freeCount := rfl

/-! ### `STATUS.FOUND <- b` -/

@[simp] theorem setFound_sizes (s : State) (b : Bool) : (s.setFound b).sizes = s.sizes := rfl
@[simp] theorem setFound_cmd (s : State) (b : Bool) : (s.setFound b).cmd = s.cmd := rfl
@[simp] theorem setFound_status (s : State) (b : Bool) : (s.setFound b).status = statusWithFound b s.status := rfl
@[simp] theorem setFound_err (s : State) (b : Bool) : (s.setFound b).err = s.err := rfl
@[simp] theorem setFound_keyLen (s : State) (b : Bool) : (s.setFound b).keyLen = s.keyLen := rfl
@[simp] theorem setFound_byteLen (s : State) (b : Bool) : (s.setFound b).byteLen = s.byteLen := rfl
@[simp] theorem setFound_bitLen (s : State) (b : Bool) : (s.setFound b).bitLen = s.bitLen := rfl
@[simp] theorem setFound_gridW (s : State) (b : Bool) : (s.setFound b).gridW = s.gridW := rfl
@[simp] theorem setFound_gridH (s : State) (b : Bool) : (s.setFound b).gridH = s.gridH := rfl
@[simp] theorem setFound_cap (s : State) (b : Bool) : (s.setFound b).cap = s.cap := rfl
@[simp] theorem setFound_xcKidx (s : State) (b : Bool) : (s.setFound b).xcKidx = s.xcKidx := rfl
@[simp] theorem setFound_peCursor (s : State) (b : Bool) : (s.setFound b).peCursor = s.peCursor := rfl
@[simp] theorem setFound_keymem (s : State) (b : Bool) : (s.setFound b).keymem = s.keymem := rfl
@[simp] theorem setFound_bytebuf (s : State) (b : Bool) : (s.setFound b).bytebuf = s.bytebuf := rfl
@[simp] theorem setFound_bitbuf (s : State) (b : Bool) : (s.setFound b).bitbuf = s.bitbuf := rfl
@[simp] theorem setFound_pixmem (s : State) (b : Bool) : (s.setFound b).pixmem = s.pixmem := rfl
@[simp] theorem setFound_inputs (s : State) (b : Bool) : (s.setFound b).inputs = s.inputs := rfl
@[simp] theorem setFound_readLog (s : State) (b : Bool) : (s.setFound b).readLog = s.readLog := rfl
@[simp] theorem setFound_freeCount (s : State) (b : Bool) : (s.setFound b).freeCount = s.freeCount := rfl

/-! ### A write of `keymem` -/

@[simp] theorem writeKey_sizes (i : Nat) (v : Byte) (s : State) : (writeKey i v s).sizes = s.sizes := rfl
@[simp] theorem writeKey_cmd (i : Nat) (v : Byte) (s : State) : (writeKey i v s).cmd = s.cmd := rfl
@[simp] theorem writeKey_status (i : Nat) (v : Byte) (s : State) : (writeKey i v s).status = s.status := rfl
@[simp] theorem writeKey_err (i : Nat) (v : Byte) (s : State) : (writeKey i v s).err = s.err := rfl
@[simp] theorem writeKey_keyLen (i : Nat) (v : Byte) (s : State) : (writeKey i v s).keyLen = s.keyLen := rfl
@[simp] theorem writeKey_byteLen (i : Nat) (v : Byte) (s : State) : (writeKey i v s).byteLen = s.byteLen := rfl
@[simp] theorem writeKey_bitLen (i : Nat) (v : Byte) (s : State) : (writeKey i v s).bitLen = s.bitLen := rfl
@[simp] theorem writeKey_gridW (i : Nat) (v : Byte) (s : State) : (writeKey i v s).gridW = s.gridW := rfl
@[simp] theorem writeKey_gridH (i : Nat) (v : Byte) (s : State) : (writeKey i v s).gridH = s.gridH := rfl
@[simp] theorem writeKey_cap (i : Nat) (v : Byte) (s : State) : (writeKey i v s).cap = s.cap := rfl
@[simp] theorem writeKey_xcKidx (i : Nat) (v : Byte) (s : State) : (writeKey i v s).xcKidx = s.xcKidx := rfl
@[simp] theorem writeKey_peCursor (i : Nat) (v : Byte) (s : State) : (writeKey i v s).peCursor = s.peCursor := rfl
@[simp] theorem writeKey_keymem (i : Nat) (v : Byte) (s : State) : (writeKey i v s).keymem = Memory.set s.keymem i v := rfl
@[simp] theorem writeKey_bytebuf (i : Nat) (v : Byte) (s : State) : (writeKey i v s).bytebuf = s.bytebuf := rfl
@[simp] theorem writeKey_bitbuf (i : Nat) (v : Byte) (s : State) : (writeKey i v s).bitbuf = s.bitbuf := rfl
@[simp] theorem writeKey_pixmem (i : Nat) (v : Byte) (s : State) : (writeKey i v s).pixmem = s.pixmem := rfl
@[simp] theorem writeKey_inputs (i : Nat) (v : Byte) (s : State) : (writeKey i v s).inputs = s.inputs := rfl
@[simp] theorem writeKey_readLog (i : Nat) (v : Byte) (s : State) : (writeKey i v s).readLog = s.readLog := rfl
@[simp] theorem writeKey_freeCount (i : Nat) (v : Byte) (s : State) : (writeKey i v s).freeCount = s.freeCount := rfl

/-! ### A write of `bytebuf` -/

@[simp] theorem writeByte_sizes (i : Nat) (v : Byte) (s : State) : (writeByte i v s).sizes = s.sizes := rfl
@[simp] theorem writeByte_cmd (i : Nat) (v : Byte) (s : State) : (writeByte i v s).cmd = s.cmd := rfl
@[simp] theorem writeByte_status (i : Nat) (v : Byte) (s : State) : (writeByte i v s).status = s.status := rfl
@[simp] theorem writeByte_err (i : Nat) (v : Byte) (s : State) : (writeByte i v s).err = s.err := rfl
@[simp] theorem writeByte_keyLen (i : Nat) (v : Byte) (s : State) : (writeByte i v s).keyLen = s.keyLen := rfl
@[simp] theorem writeByte_byteLen (i : Nat) (v : Byte) (s : State) : (writeByte i v s).byteLen = s.byteLen := rfl
@[simp] theorem writeByte_bitLen (i : Nat) (v : Byte) (s : State) : (writeByte i v s).bitLen = s.bitLen := rfl
@[simp] theorem writeByte_gridW (i : Nat) (v : Byte) (s : State) : (writeByte i v s).gridW = s.gridW := rfl
@[simp] theorem writeByte_gridH (i : Nat) (v : Byte) (s : State) : (writeByte i v s).gridH = s.gridH := rfl
@[simp] theorem writeByte_cap (i : Nat) (v : Byte) (s : State) : (writeByte i v s).cap = s.cap := rfl
@[simp] theorem writeByte_xcKidx (i : Nat) (v : Byte) (s : State) : (writeByte i v s).xcKidx = s.xcKidx := rfl
@[simp] theorem writeByte_peCursor (i : Nat) (v : Byte) (s : State) : (writeByte i v s).peCursor = s.peCursor := rfl
@[simp] theorem writeByte_keymem (i : Nat) (v : Byte) (s : State) : (writeByte i v s).keymem = s.keymem := rfl
@[simp] theorem writeByte_bytebuf (i : Nat) (v : Byte) (s : State) : (writeByte i v s).bytebuf = Memory.set s.bytebuf i v := rfl
@[simp] theorem writeByte_bitbuf (i : Nat) (v : Byte) (s : State) : (writeByte i v s).bitbuf = s.bitbuf := rfl
@[simp] theorem writeByte_pixmem (i : Nat) (v : Byte) (s : State) : (writeByte i v s).pixmem = s.pixmem := rfl
@[simp] theorem writeByte_inputs (i : Nat) (v : Byte) (s : State) : (writeByte i v s).inputs = s.inputs := rfl
@[simp] theorem writeByte_readLog (i : Nat) (v : Byte) (s : State) : (writeByte i v s).readLog = s.readLog := rfl
@[simp] theorem writeByte_freeCount (i : Nat) (v : Byte) (s : State) : (writeByte i v s).freeCount = s.freeCount := rfl

/-! ### A write of `bitbuf` -/

@[simp] theorem writeBit_sizes (i : Nat) (v : Bit) (s : State) : (writeBit i v s).sizes = s.sizes := rfl
@[simp] theorem writeBit_cmd (i : Nat) (v : Bit) (s : State) : (writeBit i v s).cmd = s.cmd := rfl
@[simp] theorem writeBit_status (i : Nat) (v : Bit) (s : State) : (writeBit i v s).status = s.status := rfl
@[simp] theorem writeBit_err (i : Nat) (v : Bit) (s : State) : (writeBit i v s).err = s.err := rfl
@[simp] theorem writeBit_keyLen (i : Nat) (v : Bit) (s : State) : (writeBit i v s).keyLen = s.keyLen := rfl
@[simp] theorem writeBit_byteLen (i : Nat) (v : Bit) (s : State) : (writeBit i v s).byteLen = s.byteLen := rfl
@[simp] theorem writeBit_bitLen (i : Nat) (v : Bit) (s : State) : (writeBit i v s).bitLen = s.bitLen := rfl
@[simp] theorem writeBit_gridW (i : Nat) (v : Bit) (s : State) : (writeBit i v s).gridW = s.gridW := rfl
@[simp] theorem writeBit_gridH (i : Nat) (v : Bit) (s : State) : (writeBit i v s).gridH = s.gridH := rfl
@[simp] theorem writeBit_cap (i : Nat) (v : Bit) (s : State) : (writeBit i v s).cap = s.cap := rfl
@[simp] theorem writeBit_xcKidx (i : Nat) (v : Bit) (s : State) : (writeBit i v s).xcKidx = s.xcKidx := rfl
@[simp] theorem writeBit_peCursor (i : Nat) (v : Bit) (s : State) : (writeBit i v s).peCursor = s.peCursor := rfl
@[simp] theorem writeBit_keymem (i : Nat) (v : Bit) (s : State) : (writeBit i v s).keymem = s.keymem := rfl
@[simp] theorem writeBit_bytebuf (i : Nat) (v : Bit) (s : State) : (writeBit i v s).bytebuf = s.bytebuf := rfl
@[simp] theorem writeBit_bitbuf (i : Nat) (v : Bit) (s : State) : (writeBit i v s).bitbuf = Memory.set s.bitbuf i v := rfl
@[simp] theorem writeBit_pixmem (i : Nat) (v : Bit) (s : State) : (writeBit i v s).pixmem = s.pixmem := rfl
@[simp] theorem writeBit_inputs (i : Nat) (v : Bit) (s : State) : (writeBit i v s).inputs = s.inputs := rfl
@[simp] theorem writeBit_readLog (i : Nat) (v : Bit) (s : State) : (writeBit i v s).readLog = s.readLog := rfl
@[simp] theorem writeBit_freeCount (i : Nat) (v : Bit) (s : State) : (writeBit i v s).freeCount = s.freeCount := rfl

/-! ### A write of `pixmem` -/

@[simp] theorem writePix_sizes (i : Nat) (v : Byte) (s : State) : (writePix i v s).sizes = s.sizes := rfl
@[simp] theorem writePix_cmd (i : Nat) (v : Byte) (s : State) : (writePix i v s).cmd = s.cmd := rfl
@[simp] theorem writePix_status (i : Nat) (v : Byte) (s : State) : (writePix i v s).status = s.status := rfl
@[simp] theorem writePix_err (i : Nat) (v : Byte) (s : State) : (writePix i v s).err = s.err := rfl
@[simp] theorem writePix_keyLen (i : Nat) (v : Byte) (s : State) : (writePix i v s).keyLen = s.keyLen := rfl
@[simp] theorem writePix_byteLen (i : Nat) (v : Byte) (s : State) : (writePix i v s).byteLen = s.byteLen := rfl
@[simp] theorem writePix_bitLen (i : Nat) (v : Byte) (s : State) : (writePix i v s).bitLen = s.bitLen := rfl
@[simp] theorem writePix_gridW (i : Nat) (v : Byte) (s : State) : (writePix i v s).gridW = s.gridW := rfl
@[simp] theorem writePix_gridH (i : Nat) (v : Byte) (s : State) : (writePix i v s).gridH = s.gridH := rfl
@[simp] theorem writePix_cap (i : Nat) (v : Byte) (s : State) : (writePix i v s).cap = s.cap := rfl
@[simp] theorem writePix_xcKidx (i : Nat) (v : Byte) (s : State) : (writePix i v s).xcKidx = s.xcKidx := rfl
@[simp] theorem writePix_peCursor (i : Nat) (v : Byte) (s : State) : (writePix i v s).peCursor = s.peCursor := rfl
@[simp] theorem writePix_keymem (i : Nat) (v : Byte) (s : State) : (writePix i v s).keymem = s.keymem := rfl
@[simp] theorem writePix_bytebuf (i : Nat) (v : Byte) (s : State) : (writePix i v s).bytebuf = s.bytebuf := rfl
@[simp] theorem writePix_bitbuf (i : Nat) (v : Byte) (s : State) : (writePix i v s).bitbuf = s.bitbuf := rfl
@[simp] theorem writePix_pixmem (i : Nat) (v : Byte) (s : State) : (writePix i v s).pixmem = Memory.set s.pixmem i v := rfl
@[simp] theorem writePix_inputs (i : Nat) (v : Byte) (s : State) : (writePix i v s).inputs = s.inputs := rfl
@[simp] theorem writePix_readLog (i : Nat) (v : Byte) (s : State) : (writePix i v s).readLog = s.readLog := rfl
@[simp] theorem writePix_freeCount (i : Nat) (v : Byte) (s : State) : (writePix i v s).freeCount = s.freeCount := rfl

/-! ### A cell's value, or the next free byte: only the counter moves -/

@[simp] theorem byteOrFree_sizes (c : Option Byte) (s : State) : ((byteOrFree c s).2).sizes = s.sizes := by cases c <;> rfl
@[simp] theorem byteOrFree_cmd (c : Option Byte) (s : State) : ((byteOrFree c s).2).cmd = s.cmd := by cases c <;> rfl
@[simp] theorem byteOrFree_status (c : Option Byte) (s : State) : ((byteOrFree c s).2).status = s.status := by cases c <;> rfl
@[simp] theorem byteOrFree_err (c : Option Byte) (s : State) : ((byteOrFree c s).2).err = s.err := by cases c <;> rfl
@[simp] theorem byteOrFree_keyLen (c : Option Byte) (s : State) : ((byteOrFree c s).2).keyLen = s.keyLen := by cases c <;> rfl
@[simp] theorem byteOrFree_byteLen (c : Option Byte) (s : State) : ((byteOrFree c s).2).byteLen = s.byteLen := by cases c <;> rfl
@[simp] theorem byteOrFree_bitLen (c : Option Byte) (s : State) : ((byteOrFree c s).2).bitLen = s.bitLen := by cases c <;> rfl
@[simp] theorem byteOrFree_gridW (c : Option Byte) (s : State) : ((byteOrFree c s).2).gridW = s.gridW := by cases c <;> rfl
@[simp] theorem byteOrFree_gridH (c : Option Byte) (s : State) : ((byteOrFree c s).2).gridH = s.gridH := by cases c <;> rfl
@[simp] theorem byteOrFree_cap (c : Option Byte) (s : State) : ((byteOrFree c s).2).cap = s.cap := by cases c <;> rfl
@[simp] theorem byteOrFree_xcKidx (c : Option Byte) (s : State) : ((byteOrFree c s).2).xcKidx = s.xcKidx := by cases c <;> rfl
@[simp] theorem byteOrFree_peCursor (c : Option Byte) (s : State) : ((byteOrFree c s).2).peCursor = s.peCursor := by cases c <;> rfl
@[simp] theorem byteOrFree_keymem (c : Option Byte) (s : State) : ((byteOrFree c s).2).keymem = s.keymem := by cases c <;> rfl
@[simp] theorem byteOrFree_bytebuf (c : Option Byte) (s : State) : ((byteOrFree c s).2).bytebuf = s.bytebuf := by cases c <;> rfl
@[simp] theorem byteOrFree_bitbuf (c : Option Byte) (s : State) : ((byteOrFree c s).2).bitbuf = s.bitbuf := by cases c <;> rfl
@[simp] theorem byteOrFree_pixmem (c : Option Byte) (s : State) : ((byteOrFree c s).2).pixmem = s.pixmem := by cases c <;> rfl
@[simp] theorem byteOrFree_inputs (c : Option Byte) (s : State) : ((byteOrFree c s).2).inputs = s.inputs := by cases c <;> rfl
@[simp] theorem byteOrFree_readLog (c : Option Byte) (s : State) : ((byteOrFree c s).2).readLog = s.readLog := by cases c <;> rfl

/-! ### A cell's value, or the next free bit: only the counter moves -/

@[simp] theorem bitOrFree_sizes (c : Option Bit) (s : State) : ((bitOrFree c s).2).sizes = s.sizes := by cases c <;> rfl
@[simp] theorem bitOrFree_cmd (c : Option Bit) (s : State) : ((bitOrFree c s).2).cmd = s.cmd := by cases c <;> rfl
@[simp] theorem bitOrFree_status (c : Option Bit) (s : State) : ((bitOrFree c s).2).status = s.status := by cases c <;> rfl
@[simp] theorem bitOrFree_err (c : Option Bit) (s : State) : ((bitOrFree c s).2).err = s.err := by cases c <;> rfl
@[simp] theorem bitOrFree_keyLen (c : Option Bit) (s : State) : ((bitOrFree c s).2).keyLen = s.keyLen := by cases c <;> rfl
@[simp] theorem bitOrFree_byteLen (c : Option Bit) (s : State) : ((bitOrFree c s).2).byteLen = s.byteLen := by cases c <;> rfl
@[simp] theorem bitOrFree_bitLen (c : Option Bit) (s : State) : ((bitOrFree c s).2).bitLen = s.bitLen := by cases c <;> rfl
@[simp] theorem bitOrFree_gridW (c : Option Bit) (s : State) : ((bitOrFree c s).2).gridW = s.gridW := by cases c <;> rfl
@[simp] theorem bitOrFree_gridH (c : Option Bit) (s : State) : ((bitOrFree c s).2).gridH = s.gridH := by cases c <;> rfl
@[simp] theorem bitOrFree_cap (c : Option Bit) (s : State) : ((bitOrFree c s).2).cap = s.cap := by cases c <;> rfl
@[simp] theorem bitOrFree_xcKidx (c : Option Bit) (s : State) : ((bitOrFree c s).2).xcKidx = s.xcKidx := by cases c <;> rfl
@[simp] theorem bitOrFree_peCursor (c : Option Bit) (s : State) : ((bitOrFree c s).2).peCursor = s.peCursor := by cases c <;> rfl
@[simp] theorem bitOrFree_keymem (c : Option Bit) (s : State) : ((bitOrFree c s).2).keymem = s.keymem := by cases c <;> rfl
@[simp] theorem bitOrFree_bytebuf (c : Option Bit) (s : State) : ((bitOrFree c s).2).bytebuf = s.bytebuf := by cases c <;> rfl
@[simp] theorem bitOrFree_bitbuf (c : Option Bit) (s : State) : ((bitOrFree c s).2).bitbuf = s.bitbuf := by cases c <;> rfl
@[simp] theorem bitOrFree_pixmem (c : Option Bit) (s : State) : ((bitOrFree c s).2).pixmem = s.pixmem := by cases c <;> rfl
@[simp] theorem bitOrFree_inputs (c : Option Bit) (s : State) : ((bitOrFree c s).2).inputs = s.inputs := by cases c <;> rfl
@[simp] theorem bitOrFree_readLog (c : Option Bit) (s : State) : ((bitOrFree c s).2).readLog = s.readLog := by cases c <;> rfl

/-! ### A read of `keymem` -/

@[simp] theorem readKey_sizes (i : Nat) (s : State) : ((readKey i s).2).sizes = s.sizes := by simp [readKey]
@[simp] theorem readKey_cmd (i : Nat) (s : State) : ((readKey i s).2).cmd = s.cmd := by simp [readKey]
@[simp] theorem readKey_status (i : Nat) (s : State) : ((readKey i s).2).status = s.status := by simp [readKey]
@[simp] theorem readKey_err (i : Nat) (s : State) : ((readKey i s).2).err = s.err := by simp [readKey]
@[simp] theorem readKey_keyLen (i : Nat) (s : State) : ((readKey i s).2).keyLen = s.keyLen := by simp [readKey]
@[simp] theorem readKey_byteLen (i : Nat) (s : State) : ((readKey i s).2).byteLen = s.byteLen := by simp [readKey]
@[simp] theorem readKey_bitLen (i : Nat) (s : State) : ((readKey i s).2).bitLen = s.bitLen := by simp [readKey]
@[simp] theorem readKey_gridW (i : Nat) (s : State) : ((readKey i s).2).gridW = s.gridW := by simp [readKey]
@[simp] theorem readKey_gridH (i : Nat) (s : State) : ((readKey i s).2).gridH = s.gridH := by simp [readKey]
@[simp] theorem readKey_cap (i : Nat) (s : State) : ((readKey i s).2).cap = s.cap := by simp [readKey]
@[simp] theorem readKey_xcKidx (i : Nat) (s : State) : ((readKey i s).2).xcKidx = s.xcKidx := by simp [readKey]
@[simp] theorem readKey_peCursor (i : Nat) (s : State) : ((readKey i s).2).peCursor = s.peCursor := by simp [readKey]
@[simp] theorem readKey_keymem (i : Nat) (s : State) : ((readKey i s).2).keymem = s.keymem := by simp [readKey]
@[simp] theorem readKey_bytebuf (i : Nat) (s : State) : ((readKey i s).2).bytebuf = s.bytebuf := by simp [readKey]
@[simp] theorem readKey_bitbuf (i : Nat) (s : State) : ((readKey i s).2).bitbuf = s.bitbuf := by simp [readKey]
@[simp] theorem readKey_pixmem (i : Nat) (s : State) : ((readKey i s).2).pixmem = s.pixmem := by simp [readKey]
@[simp] theorem readKey_inputs (i : Nat) (s : State) : ((readKey i s).2).inputs = s.inputs := by simp [readKey]
@[simp] theorem readKey_readLog (i : Nat) (s : State) : ((readKey i s).2).readLog = s.readLog := by simp [readKey]

/-! ### A read of `bytebuf` -/

@[simp] theorem readByte_sizes (i : Nat) (s : State) : ((readByte i s).2).sizes = s.sizes := by simp [readByte]
@[simp] theorem readByte_cmd (i : Nat) (s : State) : ((readByte i s).2).cmd = s.cmd := by simp [readByte]
@[simp] theorem readByte_status (i : Nat) (s : State) : ((readByte i s).2).status = s.status := by simp [readByte]
@[simp] theorem readByte_err (i : Nat) (s : State) : ((readByte i s).2).err = s.err := by simp [readByte]
@[simp] theorem readByte_keyLen (i : Nat) (s : State) : ((readByte i s).2).keyLen = s.keyLen := by simp [readByte]
@[simp] theorem readByte_byteLen (i : Nat) (s : State) : ((readByte i s).2).byteLen = s.byteLen := by simp [readByte]
@[simp] theorem readByte_bitLen (i : Nat) (s : State) : ((readByte i s).2).bitLen = s.bitLen := by simp [readByte]
@[simp] theorem readByte_gridW (i : Nat) (s : State) : ((readByte i s).2).gridW = s.gridW := by simp [readByte]
@[simp] theorem readByte_gridH (i : Nat) (s : State) : ((readByte i s).2).gridH = s.gridH := by simp [readByte]
@[simp] theorem readByte_cap (i : Nat) (s : State) : ((readByte i s).2).cap = s.cap := by simp [readByte]
@[simp] theorem readByte_xcKidx (i : Nat) (s : State) : ((readByte i s).2).xcKidx = s.xcKidx := by simp [readByte]
@[simp] theorem readByte_peCursor (i : Nat) (s : State) : ((readByte i s).2).peCursor = s.peCursor := by simp [readByte]
@[simp] theorem readByte_keymem (i : Nat) (s : State) : ((readByte i s).2).keymem = s.keymem := by simp [readByte]
@[simp] theorem readByte_bytebuf (i : Nat) (s : State) : ((readByte i s).2).bytebuf = s.bytebuf := by simp [readByte]
@[simp] theorem readByte_bitbuf (i : Nat) (s : State) : ((readByte i s).2).bitbuf = s.bitbuf := by simp [readByte]
@[simp] theorem readByte_pixmem (i : Nat) (s : State) : ((readByte i s).2).pixmem = s.pixmem := by simp [readByte]
@[simp] theorem readByte_inputs (i : Nat) (s : State) : ((readByte i s).2).inputs = s.inputs := by simp [readByte]
@[simp] theorem readByte_readLog (i : Nat) (s : State) : ((readByte i s).2).readLog = s.readLog := by simp [readByte]

/-! ### A read of `bitbuf` -/

@[simp] theorem readBit_sizes (i : Nat) (s : State) : ((readBit i s).2).sizes = s.sizes := by simp [readBit]
@[simp] theorem readBit_cmd (i : Nat) (s : State) : ((readBit i s).2).cmd = s.cmd := by simp [readBit]
@[simp] theorem readBit_status (i : Nat) (s : State) : ((readBit i s).2).status = s.status := by simp [readBit]
@[simp] theorem readBit_err (i : Nat) (s : State) : ((readBit i s).2).err = s.err := by simp [readBit]
@[simp] theorem readBit_keyLen (i : Nat) (s : State) : ((readBit i s).2).keyLen = s.keyLen := by simp [readBit]
@[simp] theorem readBit_byteLen (i : Nat) (s : State) : ((readBit i s).2).byteLen = s.byteLen := by simp [readBit]
@[simp] theorem readBit_bitLen (i : Nat) (s : State) : ((readBit i s).2).bitLen = s.bitLen := by simp [readBit]
@[simp] theorem readBit_gridW (i : Nat) (s : State) : ((readBit i s).2).gridW = s.gridW := by simp [readBit]
@[simp] theorem readBit_gridH (i : Nat) (s : State) : ((readBit i s).2).gridH = s.gridH := by simp [readBit]
@[simp] theorem readBit_cap (i : Nat) (s : State) : ((readBit i s).2).cap = s.cap := by simp [readBit]
@[simp] theorem readBit_xcKidx (i : Nat) (s : State) : ((readBit i s).2).xcKidx = s.xcKidx := by simp [readBit]
@[simp] theorem readBit_peCursor (i : Nat) (s : State) : ((readBit i s).2).peCursor = s.peCursor := by simp [readBit]
@[simp] theorem readBit_keymem (i : Nat) (s : State) : ((readBit i s).2).keymem = s.keymem := by simp [readBit]
@[simp] theorem readBit_bytebuf (i : Nat) (s : State) : ((readBit i s).2).bytebuf = s.bytebuf := by simp [readBit]
@[simp] theorem readBit_bitbuf (i : Nat) (s : State) : ((readBit i s).2).bitbuf = s.bitbuf := by simp [readBit]
@[simp] theorem readBit_pixmem (i : Nat) (s : State) : ((readBit i s).2).pixmem = s.pixmem := by simp [readBit]
@[simp] theorem readBit_inputs (i : Nat) (s : State) : ((readBit i s).2).inputs = s.inputs := by simp [readBit]
@[simp] theorem readBit_readLog (i : Nat) (s : State) : ((readBit i s).2).readLog = s.readLog := by simp [readBit]

/-! ### A read of `pixmem` -/

@[simp] theorem readPix_sizes (i : Nat) (s : State) : ((readPix i s).2).sizes = s.sizes := by simp [readPix]
@[simp] theorem readPix_cmd (i : Nat) (s : State) : ((readPix i s).2).cmd = s.cmd := by simp [readPix]
@[simp] theorem readPix_status (i : Nat) (s : State) : ((readPix i s).2).status = s.status := by simp [readPix]
@[simp] theorem readPix_err (i : Nat) (s : State) : ((readPix i s).2).err = s.err := by simp [readPix]
@[simp] theorem readPix_keyLen (i : Nat) (s : State) : ((readPix i s).2).keyLen = s.keyLen := by simp [readPix]
@[simp] theorem readPix_byteLen (i : Nat) (s : State) : ((readPix i s).2).byteLen = s.byteLen := by simp [readPix]
@[simp] theorem readPix_bitLen (i : Nat) (s : State) : ((readPix i s).2).bitLen = s.bitLen := by simp [readPix]
@[simp] theorem readPix_gridW (i : Nat) (s : State) : ((readPix i s).2).gridW = s.gridW := by simp [readPix]
@[simp] theorem readPix_gridH (i : Nat) (s : State) : ((readPix i s).2).gridH = s.gridH := by simp [readPix]
@[simp] theorem readPix_cap (i : Nat) (s : State) : ((readPix i s).2).cap = s.cap := by simp [readPix]
@[simp] theorem readPix_xcKidx (i : Nat) (s : State) : ((readPix i s).2).xcKidx = s.xcKidx := by simp [readPix]
@[simp] theorem readPix_peCursor (i : Nat) (s : State) : ((readPix i s).2).peCursor = s.peCursor := by simp [readPix]
@[simp] theorem readPix_keymem (i : Nat) (s : State) : ((readPix i s).2).keymem = s.keymem := by simp [readPix]
@[simp] theorem readPix_bytebuf (i : Nat) (s : State) : ((readPix i s).2).bytebuf = s.bytebuf := by simp [readPix]
@[simp] theorem readPix_bitbuf (i : Nat) (s : State) : ((readPix i s).2).bitbuf = s.bitbuf := by simp [readPix]
@[simp] theorem readPix_pixmem (i : Nat) (s : State) : ((readPix i s).2).pixmem = s.pixmem := by simp [readPix]
@[simp] theorem readPix_inputs (i : Nat) (s : State) : ((readPix i s).2).inputs = s.inputs := by simp [readPix]
@[simp] theorem readPix_readLog (i : Nat) (s : State) : ((readPix i s).2).readLog = s.readLog := by simp [readPix]

/-! ### A command is taken -/

@[simp] theorem startCommand_sizes (w : Word) (s : State) : (startCommand w s).sizes = s.sizes := rfl
@[simp] theorem startCommand_cmd (w : Word) (s : State) : (startCommand w s).cmd = w := rfl
@[simp] theorem startCommand_status (w : Word) (s : State) : (startCommand w s).status = statusWithBusy true s.status := rfl
@[simp] theorem startCommand_err (w : Word) (s : State) : (startCommand w s).err = s.err := rfl
@[simp] theorem startCommand_keyLen (w : Word) (s : State) : (startCommand w s).keyLen = s.keyLen := rfl
@[simp] theorem startCommand_byteLen (w : Word) (s : State) : (startCommand w s).byteLen = s.byteLen := rfl
@[simp] theorem startCommand_bitLen (w : Word) (s : State) : (startCommand w s).bitLen = s.bitLen := rfl
@[simp] theorem startCommand_gridW (w : Word) (s : State) : (startCommand w s).gridW = s.gridW := rfl
@[simp] theorem startCommand_gridH (w : Word) (s : State) : (startCommand w s).gridH = s.gridH := rfl
@[simp] theorem startCommand_cap (w : Word) (s : State) : (startCommand w s).cap = s.cap := rfl
@[simp] theorem startCommand_xcKidx (w : Word) (s : State) : (startCommand w s).xcKidx = s.xcKidx := rfl
@[simp] theorem startCommand_peCursor (w : Word) (s : State) : (startCommand w s).peCursor = s.peCursor := rfl
@[simp] theorem startCommand_keymem (w : Word) (s : State) : (startCommand w s).keymem = s.keymem := rfl
@[simp] theorem startCommand_bytebuf (w : Word) (s : State) : (startCommand w s).bytebuf = s.bytebuf := rfl
@[simp] theorem startCommand_bitbuf (w : Word) (s : State) : (startCommand w s).bitbuf = s.bitbuf := rfl
@[simp] theorem startCommand_pixmem (w : Word) (s : State) : (startCommand w s).pixmem = s.pixmem := rfl
@[simp] theorem startCommand_inputs (w : Word) (s : State) : (startCommand w s).inputs = s.inputs := rfl
@[simp] theorem startCommand_readLog (w : Word) (s : State) : (startCommand w s).readLog = s.readLog := rfl
@[simp] theorem startCommand_freeCount (w : Word) (s : State) : (startCommand w s).freeCount = s.freeCount := rfl

/-! ### A command's outcome is recorded -/

@[simp] theorem endWith_sizes (e : ErrCode) (s : State) : (endWith e s).sizes = s.sizes := rfl
@[simp] theorem endWith_cmd (e : ErrCode) (s : State) : (endWith e s).cmd = s.cmd := rfl
@[simp] theorem endWith_status (e : ErrCode) (s : State) : (endWith e s).status = statusWithBusy false s.status := rfl
@[simp] theorem endWith_err (e : ErrCode) (s : State) : (endWith e s).err = e.code := rfl
@[simp] theorem endWith_keyLen (e : ErrCode) (s : State) : (endWith e s).keyLen = s.keyLen := rfl
@[simp] theorem endWith_byteLen (e : ErrCode) (s : State) : (endWith e s).byteLen = s.byteLen := rfl
@[simp] theorem endWith_bitLen (e : ErrCode) (s : State) : (endWith e s).bitLen = s.bitLen := rfl
@[simp] theorem endWith_gridW (e : ErrCode) (s : State) : (endWith e s).gridW = s.gridW := rfl
@[simp] theorem endWith_gridH (e : ErrCode) (s : State) : (endWith e s).gridH = s.gridH := rfl
@[simp] theorem endWith_cap (e : ErrCode) (s : State) : (endWith e s).cap = s.cap := rfl
@[simp] theorem endWith_xcKidx (e : ErrCode) (s : State) : (endWith e s).xcKidx = s.xcKidx := rfl
@[simp] theorem endWith_peCursor (e : ErrCode) (s : State) : (endWith e s).peCursor = s.peCursor := rfl
@[simp] theorem endWith_keymem (e : ErrCode) (s : State) : (endWith e s).keymem = s.keymem := rfl
@[simp] theorem endWith_bytebuf (e : ErrCode) (s : State) : (endWith e s).bytebuf = s.bytebuf := rfl
@[simp] theorem endWith_bitbuf (e : ErrCode) (s : State) : (endWith e s).bitbuf = s.bitbuf := rfl
@[simp] theorem endWith_pixmem (e : ErrCode) (s : State) : (endWith e s).pixmem = s.pixmem := rfl
@[simp] theorem endWith_inputs (e : ErrCode) (s : State) : (endWith e s).inputs = s.inputs := rfl
@[simp] theorem endWith_readLog (e : ErrCode) (s : State) : (endWith e s).readLog = s.readLog := rfl
@[simp] theorem endWith_freeCount (e : ErrCode) (s : State) : (endWith e s).freeCount = s.freeCount := rfl

/-! ### A reset -/

@[simp] theorem resetRegs_sizes (s : State) : (resetRegs s).sizes = s.sizes := rfl
@[simp] theorem resetRegs_cmd (s : State) : (resetRegs s).cmd = 0 := rfl
@[simp] theorem resetRegs_status (s : State) : (resetRegs s).status = 0 := rfl
@[simp] theorem resetRegs_err (s : State) : (resetRegs s).err = 0 := rfl
@[simp] theorem resetRegs_keyLen (s : State) : (resetRegs s).keyLen = 0 := rfl
@[simp] theorem resetRegs_byteLen (s : State) : (resetRegs s).byteLen = 0 := rfl
@[simp] theorem resetRegs_bitLen (s : State) : (resetRegs s).bitLen = 0 := rfl
@[simp] theorem resetRegs_gridW (s : State) : (resetRegs s).gridW = 0 := rfl
@[simp] theorem resetRegs_gridH (s : State) : (resetRegs s).gridH = 0 := rfl
@[simp] theorem resetRegs_cap (s : State) : (resetRegs s).cap = 0 := rfl
@[simp] theorem resetRegs_xcKidx (s : State) : (resetRegs s).xcKidx = 0 := rfl
@[simp] theorem resetRegs_peCursor (s : State) : (resetRegs s).peCursor = 0 := rfl
@[simp] theorem resetRegs_keymem (s : State) : (resetRegs s).keymem = s.keymem := rfl
@[simp] theorem resetRegs_bytebuf (s : State) : (resetRegs s).bytebuf = s.bytebuf := rfl
@[simp] theorem resetRegs_bitbuf (s : State) : (resetRegs s).bitbuf = s.bitbuf := rfl
@[simp] theorem resetRegs_pixmem (s : State) : (resetRegs s).pixmem = s.pixmem := rfl
@[simp] theorem resetRegs_inputs (s : State) : (resetRegs s).inputs = s.inputs := rfl
@[simp] theorem resetRegs_readLog (s : State) : (resetRegs s).readLog = s.readLog := rfl
@[simp] theorem resetRegs_freeCount (s : State) : (resetRegs s).freeCount = s.freeCount := rfl

/-! ### A command is stopped before its end -/

@[simp] theorem tear_sizes (i : Instr) (s : State) : (tear i s).sizes = s.sizes := rfl
@[simp] theorem tear_cmd (i : Instr) (s : State) : (tear i s).cmd = s.cmd := rfl
@[simp] theorem tear_status (i : Instr) (s : State) : (tear i s).status = s.status := rfl
@[simp] theorem tear_err (i : Instr) (s : State) : (tear i s).err = s.err := rfl
@[simp] theorem tear_keyLen (i : Instr) (s : State) : (tear i s).keyLen = s.keyLen := rfl
@[simp] theorem tear_byteLen (i : Instr) (s : State) : (tear i s).byteLen = s.byteLen := rfl
@[simp] theorem tear_bitLen (i : Instr) (s : State) : (tear i s).bitLen = s.bitLen := rfl
@[simp] theorem tear_gridW (i : Instr) (s : State) : (tear i s).gridW = s.gridW := rfl
@[simp] theorem tear_gridH (i : Instr) (s : State) : (tear i s).gridH = s.gridH := rfl
@[simp] theorem tear_cap (i : Instr) (s : State) : (tear i s).cap = s.cap := rfl
@[simp] theorem tear_xcKidx (i : Instr) (s : State) : (tear i s).xcKidx = s.xcKidx := rfl
@[simp] theorem tear_peCursor (i : Instr) (s : State) : (tear i s).peCursor = s.peCursor := rfl
@[simp] theorem tear_keymem (i : Instr) (s : State) : (tear i s).keymem = s.keymem := rfl
@[simp] theorem tear_inputs (i : Instr) (s : State) : (tear i s).inputs = s.inputs := rfl
@[simp] theorem tear_readLog (i : Instr) (s : State) : (tear i s).readLog = s.readLog := rfl
@[simp] theorem tear_bytebuf (i : Instr) (s : State) :
    (tear i s).bytebuf = tornCells i s .bytebuf (fun a _ => Config.tornByte s.freeCount .bytebuf a) s.bytebuf := rfl
@[simp] theorem tear_bitbuf (i : Instr) (s : State) :
    (tear i s).bitbuf = tornCells i s .bitbuf (fun a _ => Config.tornBit s.freeCount a) s.bitbuf := rfl
@[simp] theorem tear_pixmem (i : Instr) (s : State) :
    (tear i s).pixmem = tornCells i s .pixmem (fun a old => embedBit (old.getD (Config.tornByte s.freeCount .pixmem a))
      (channelBit (Config.tornByte s.freeCount .pixmem a))) s.pixmem := rfl
@[simp] theorem tear_freeCount (i : Instr) (s : State) :
    (tear i s).freeCount = (stageBody i s).state.freeCount + 1 := rfl

end Sys2Proof.Machine
end

