-- ==== Sys2Proof/Laws/Capacity.lean ====
section
/-! SUPPORT. What the pseudocode of `CAPCHK` can do (spec 44_capacity_guard.md R115). -/

namespace Sys2Proof.Machine

/-- The endings of `CAPCHK`'s pseudocode. -/
theorem capchkBody_cases {s : State} (hz : s.sizes.wf = true) :
    (s.gridOk = false ∨ s.sizes.bitMax < s.bitLen.toNat → capchkBody s = .raised .bufferRange s) ∧
    (s.gridOk = true → s.bitLen.toNat ≤ s.sizes.bitMax → ∃ c : Word, c.toNat = s.channels ∧
      (s.channels < s.bitLen.toNat → capchkBody s = .raised .capacityExceeded { s with cap := c }) ∧
      (s.bitLen.toNat ≤ s.channels → capchkBody s = .done { s with cap := c })) := by
  constructor
  · intro h; rw [capchkBody, if_pos h]; rfl
  · intro hg hb
    have hc : (regOf s.channels).toNat = s.channels := regOf_toNat (channels_lt hz hg)
    refine ⟨regOf s.channels, hc, fun h => ?_, fun h => ?_⟩
    · rw [capchkBody, if_neg (by simp [hg]; omega)]
      simp only [hc]
      rw [if_pos h]; rfl
    · rw [capchkBody, if_neg (by simp [hg]; omega)]
      simp only [hc]
      rw [if_neg (by omega)]

end Sys2Proof.Machine
end

