-- ==== Sys2Proof/Laws/Loop.lean ====
section
/-! SUPPORT. The one induction over a loop: what holds before it and is kept by each iteration holds after it. -/

namespace Sys2Proof.Machine

@[simp] theorem forUpTo_zero (body : Nat → State → State) (s : State) : forUpTo 0 body s = s := rfl

theorem forUpTo_succ (n : Nat) (body : Nat → State → State) (s : State) :
    forUpTo (n + 1) body s = body n (forUpTo n body s) := rfl

/-- An invariant indexed by the number of iterations done holds at the end of the loop. -/
theorem forUpTo_induct {n : Nat} {body : Nat → State → State} {s : State} {P : Nat → State → Prop} (h0 : P 0 s)
    (hstep : ∀ i t, i < n → P i t → P (i + 1) (body i t)) : P n (forUpTo n body s) := by
  induction n with
  | zero => exact h0
  | succ n ih => exact hstep n _ (by omega) (ih fun i t hi => hstep i t (by omega))

end Sys2Proof.Machine
end

