-- ==== Sys2Proof/Laws/Memory.lean ====
section
/-! SUPPORT. The laws of a memory: a read after a write, and that every operation keeps the canonical form and the cells
inside the memory. -/

namespace Sys2Proof.Machine

variable {w : Nat}

@[simp] theorem Memory.get_nil (i : Nat) : Memory.get ([] : Memory w) i = none := rfl

/-- A read of cell `j` after a write of cell `i`. -/
theorem Memory.get_set (m : Memory w) (i : Nat) (v : BitVec w) (j : Nat) :
    Memory.get (Memory.set m i v) j = if i = j then some v else Memory.get m j := by
  induction m with
  | nil => simp [Memory.set, Memory.get]
  | cons c rest ih =>
    obtain ⟨a, u⟩ := c
    by_cases h1 : a < i
    · simp only [Memory.set, h1, if_true, Memory.get, ih]
      by_cases h2 : i = j
      · simp [h2, show a ≠ j by omega]
      · simp [h2]
    · by_cases h2 : a = i
      · subst h2; by_cases h3 : a = j <;> simp [Memory.set, Memory.get, h3]
      · simp [Memory.set, h1, h2, Memory.get]

@[simp] theorem Memory.get_set_same (m : Memory w) (i : Nat) (v : BitVec w) :
    Memory.get (Memory.set m i v) i = some v := by simp [Memory.get_set]

theorem Memory.get_set_ne (m : Memory w) {i j : Nat} (v : BitVec w) (h : i ≠ j) :
    Memory.get (Memory.set m i v) j = Memory.get m j := by simp [Memory.get_set, h]

/-- The cells listed after a write: the written one, and cells listed before. -/
theorem Memory.mem_set {m : Memory w} {i : Nat} {v : BitVec w} {c : Nat × BitVec w} (h : c ∈ Memory.set m i v) :
    c = (i, v) ∨ c ∈ m := by
  induction m with
  | nil => simpa [Memory.set] using h
  | cons d rest ih =>
    obtain ⟨a, u⟩ := d
    simp only [Memory.set] at h
    split at h
    · rcases List.mem_cons.1 h with h | h
      · exact .inr (h ▸ List.mem_cons_self)
      · exact (ih h).imp_right (List.mem_cons_of_mem _)
    · split at h
      · rcases List.mem_cons.1 h with h | h
        · exact .inl h
        · exact .inr (List.mem_cons_of_mem _ h)
      · rcases List.mem_cons.1 h with h | h
        · exact .inl h
        · exact .inr h

/-- A write keeps the canonical form. -/
theorem Memory.wf_set {m : Memory w} (h : Memory.wf m) (i : Nat) (v : BitVec w) : Memory.wf (Memory.set m i v) := by
  induction m with
  | nil => simp [Memory.set]
  | cons d rest ih =>
    obtain ⟨a, u⟩ := d
    obtain ⟨hd, hr⟩ := List.pairwise_cons.1 h
    simp only [Memory.set]
    split
    · refine List.pairwise_cons.2 ⟨fun c hc => ?_, ih hr⟩
      rcases Memory.mem_set hc with rfl | hc
      · assumption
      · exact hd c hc
    · split
      · rename_i _ ha; subst ha
        exact List.pairwise_cons.2 ⟨hd, hr⟩
      · refine List.pairwise_cons.2 ⟨fun c hc => ?_, h⟩
        rcases List.mem_cons.1 hc with rfl | hc
        · simp; omega
        · have := hd c hc; simp at this ⊢; omega

/-- A write of a cell the memory has lists only cells it has. -/
theorem Memory.inside_set {m : Memory w} {n : Nat} (h : Memory.inside m n) {i : Nat} (hi : i < n) (v : BitVec w) :
    Memory.inside (Memory.set m i v) n := fun _ hc => (Memory.mem_set hc).elim (fun e => e ▸ hi) (h _)

/-- A read of cell `j` after some cells were rewritten. -/
theorem Memory.get_rewrite (n : Nat) (f : Nat → Option (BitVec w)) (m : Memory w) (j : Nat) :
    Memory.get (Memory.rewrite n f m) j = if j < n then (f j).or (Memory.get m j) else Memory.get m j := by
  induction n with
  | zero => rfl
  | succ n ih =>
    rw [Memory.rewrite]
    obtain h | rfl | h := Nat.lt_trichotomy j n
    · cases f n <;> simp [Memory.get_set, ih, h, h.ne', Nat.lt_succ_of_lt h]
    · cases f j <;> simp [ih]
    · cases f n <;> simp [Memory.get_set, ih, h.ne, show ¬ j < n by omega, show ¬ j < n + 1 by omega]

/-- Rewriting keeps the canonical form. -/
theorem Memory.wf_rewrite {m : Memory w} (h : Memory.wf m) (n : Nat) (f : Nat → Option (BitVec w)) :
    Memory.wf (Memory.rewrite n f m) := by
  induction n with
  | zero => exact h
  | succ n ih =>
    rw [Memory.rewrite]
    split
    · exact Memory.wf_set ih _ _
    · exact ih

/-- Rewriting cells the memory has lists only cells it has. -/
theorem Memory.inside_rewrite {m : Memory w} {z : Nat} (h : Memory.inside m z) {n : Nat} (hn : n ≤ z)
    (f : Nat → Option (BitVec w)) : Memory.inside (Memory.rewrite n f m) z := by
  induction n with
  | zero => exact h
  | succ n ih =>
    rw [Memory.rewrite]
    split
    · exact Memory.inside_set (ih (by omega)) (by omega) _
    · exact ih (by omega)

end Sys2Proof.Machine
end

