-- ==== Sys2Proof/Laws/Reads.lean ====
section
/-! SUPPORT. What a read can do: it gives the cell's value, or any value where nothing has written the cell, and of the
state only the counter of the free values may move. -/

namespace Sys2Proof.Machine

theorem Reads.of_get {w : Nat} {m : Memory w} {a : Nat} {v : BitVec w} (h : Memory.get m a = some v) : Reads m a v :=
  fun u hu => by simpa [h] using hu

theorem Reads.eq {w : Nat} {m : Memory w} {a : Nat} {u v : BitVec w} (h : Reads m a v) (hu : Memory.get m a = some u) :
    v = u := h u hu

/-- Every cell has a value that a read of it can give. -/
theorem exists_reads {w : Nat} (m : Memory w) : ∃ f : Nat → BitVec w, ∀ a, Reads m a (f a) :=
  ⟨fun a => (Memory.get m a).getD 0, fun a u hu => by simp [hu]⟩

theorem byteOrFree_cases (c : Option Byte) (s : State) :
    ∃ v n, (∀ u, c = some u → v = u) ∧ byteOrFree c s = (v, { s with freeCount := n }) := by
  cases c with
  | none => exact ⟨_, _, by simp, rfl⟩
  | some v => exact ⟨v, s.freeCount, by simp, rfl⟩

theorem bitOrFree_cases (c : Option Bit) (s : State) :
    ∃ v n, (∀ u, c = some u → v = u) ∧ bitOrFree c s = (v, { s with freeCount := n }) := by
  cases c with
  | none => exact ⟨_, _, by simp, rfl⟩
  | some v => exact ⟨v, s.freeCount, by simp, rfl⟩

theorem readKey_cases (i : Nat) (s : State) :
    ∃ v n, Reads s.keymem i v ∧ readKey i s = (v, { s with freeCount := n }) := byteOrFree_cases _ s

theorem readByte_cases (i : Nat) (s : State) :
    ∃ v n, Reads s.bytebuf i v ∧ readByte i s = (v, { s with freeCount := n }) := byteOrFree_cases _ s

theorem readBit_cases (i : Nat) (s : State) :
    ∃ v n, Reads s.bitbuf i v ∧ readBit i s = (v, { s with freeCount := n }) := bitOrFree_cases _ s

theorem readPix_cases (i : Nat) (s : State) :
    ∃ v n, Reads s.pixmem i v ∧ readPix i s = (v, { s with freeCount := n }) := byteOrFree_cases _ s

/-- A read of a written cell gives its value and changes nothing (spec 20_memory.md R46). -/
theorem readKey_written {i : Nat} {s : State} {v : Byte} (h : Memory.get s.keymem i = some v) : readKey i s = (v, s) := by
  simp [readKey, h, byteOrFree]

theorem readByte_written {i : Nat} {s : State} {v : Byte} (h : Memory.get s.bytebuf i = some v) :
    readByte i s = (v, s) := by simp [readByte, h, byteOrFree]

theorem readBit_written {i : Nat} {s : State} {v : Bit} (h : Memory.get s.bitbuf i = some v) : readBit i s = (v, s) := by
  simp [readBit, h, bitOrFree]

theorem readPix_written {i : Nat} {s : State} {v : Byte} (h : Memory.get s.pixmem i = some v) : readPix i s = (v, s) := by
  simp [readPix, h, byteOrFree]

/-- Several bits in a row: bit `j` of the list is a value a read of cell `start + j` can give. -/
theorem readBits_cases (start n : Nat) (s : State) :
    ∃ (f : Nat → Bit) (c : Nat), (∀ j, j < n → Reads s.bitbuf (start + j) (f j)) ∧
      readBits start n s = ((List.range n).map f, { s with freeCount := c }) := by
  induction n with
  | zero => exact ⟨fun _ => 0, s.freeCount, by simp, rfl⟩
  | succ n ih =>
    obtain ⟨f, c, hf, he⟩ := ih
    obtain ⟨v, c', hv, hr⟩ := readBit_cases (start + n) { s with freeCount := c }
    refine ⟨fun j => if j = n then v else f j, c', fun j hj => ?_, ?_⟩
    · by_cases h : j = n
      · subst h; simpa using hv
      · simpa [h] using hf j (by omega)
    · have hm : (List.range n).map (fun j => if j = n then v else f j) = (List.range n).map f :=
        List.map_congr_left fun j hj => by simp [(List.mem_range.1 hj).ne]
      simp [readBits, he, hr, List.range_succ, hm]

/-- The detection predicate (42_framing_terminator.md R93) of a bit sequence that reads of `BITBUF` can give. -/
theorem termTest_cases (n : Nat) (s : State) :
    ∃ (f : Nat → Bit) (c : Nat), (∀ j, Reads s.bitbuf j (f j)) ∧
      (termTest n s).2 = { s with freeCount := c } ∧ ((termTest n s).1 = true ↔ TermAt f n) := by
  obtain ⟨g, hg⟩ := exists_reads s.bitbuf
  by_cases hn : n < 32
  · exact ⟨g, s.freeCount, hg, by simp [termTest, hn], by simp [termTest, hn, TermAt]⟩
  · obtain ⟨f, c, hf, he⟩ := readBits_cases (n - 32) 32 s
    refine ⟨fun j => if n - 32 ≤ j ∧ j < n then f (j - (n - 32)) else g j, c, fun j => ?_, by simp [termTest, hn, he], ?_⟩
    · by_cases h : n - 32 ≤ j ∧ j < n
      · simp only [h, and_self, if_true]
        have := hf (j - (n - 32)) (by omega)
        rwa [show n - 32 + (j - (n - 32)) = j by omega] at this
      · simp only [h, if_false]; exact hg j
    · simp only [termTest, hn, if_false, he, List.all_eq_true, List.mem_map, List.mem_range, beq_iff_eq,
        forall_exists_index, and_imp, forall_apply_eq_imp_iff₂, TermAt]
      constructor
      · intro h
        refine ⟨by omega, fun j h1 h2 => ?_⟩
        simp only [h1, h2, and_self, if_true]
        exact h _ (by omega)
      · intro ⟨_, h⟩ j hj
        have := h (n - 32 + j) (by omega) (by omega)
        simpa [show n - 32 + j < n by omega, show n - 32 + j - (n - 32) = j by omega] using this

/-- With the 32 bits of the window written, the test reads what is there and changes nothing. -/
theorem termTest_written {n : Nat} {s : State} {f : Nat → Bit} (h : ∀ j, j < n → Memory.get s.bitbuf j = some (f j)) :
    (termTest n s).2 = s ∧ ((termTest n s).1 = true ↔ TermAt f n) := by
  by_cases hn : n < 32
  · exact ⟨by simp [termTest, hn], by simp [termTest, hn, TermAt]⟩
  · have hr (k : Nat) (hk : n - 32 + k ≤ n) :
        readBits (n - 32) k s = ((List.range k).map (fun j => f (n - 32 + j)), s) := by
      induction k with
      | zero => rfl
      | succ k ih =>
        simp [readBits, ih (by omega), readBit_written (h (n - 32 + k) (by omega)), List.range_succ]
    refine ⟨by simp [termTest, hn, hr 32 (by omega)], ?_⟩
    simp only [termTest, hn, if_false, hr 32 (by omega), List.all_eq_true, List.mem_map, List.mem_range, beq_iff_eq,
      forall_exists_index, and_imp, forall_apply_eq_imp_iff₂, TermAt]
    constructor
    · intro h
      refine ⟨by omega, fun j h1 h2 => ?_⟩
      have := h (j - (n - 32)) (by omega)
      rwa [show n - 32 + (j - (n - 32)) = j by omega] at this
    · exact fun ⟨_, h⟩ j hj => h _ (by omega) (by omega)

end Sys2Proof.Machine
end

