-- ==== Sys2Proof/Laws/Cipher.lean ====
section
/-! SUPPORT. What `MASK`'s pseudocode can do (spec 40_xor_stream_cipher.md R70, R71). -/

namespace Sys2Proof.Machine

/-- One iteration: the byte is XORed with the key byte at the key index, and the index moves on. -/
theorem maskStep_cases (i : Nat) (s : State) :
    ∃ b k n, Reads s.bytebuf i b ∧ Reads s.keymem s.xcKidx.toNat k ∧
      maskStep i s = { s with
        bytebuf := Memory.set s.bytebuf i (b ^^^ k), xcKidx := nextKidx s.xcKidx s.keyLen, freeCount := n } := by
  obtain ⟨b, n, hb, hbe⟩ := readByte_cases i s
  obtain ⟨k, n', hk, hke⟩ := readKey_cases s.xcKidx.toNat { s with freeCount := n }
  exact ⟨b, k, n', hb, hk, by simp [maskStep, hbe, hke, writeByte]⟩

/-- The key index is the number of bytes done, modulo the key length (R71). -/
theorem nextKidx_toNat {x l : Word} {i : Nat} (hl : l ≠ 0) (hx : x.toNat = i % l.toNat) :
    (nextKidx x l).toNat = (i + 1) % l.toNat := by
  have hpos : 0 < l.toNat := Nat.pos_of_ne_zero fun h => hl ((toNat_eq_zero_iff l).1 h)
  have hlt : x.toNat < l.toNat := hx ▸ Nat.mod_lt _ hpos
  have ha : (x + 1).toNat = x.toNat + 1 := toNat_add_one (lt_of_le_of_lt hlt l.isLt)
  have hm : (i + 1) % l.toNat = (x.toNat + 1) % l.toNat := by rw [hx, Nat.mod_add_mod]
  simp only [nextKidx]
  split
  · rename_i h
    rw [hm, ← ha, h, Nat.mod_self]; rfl
  · rename_i h
    have : x.toNat + 1 ≠ l.toNat := fun e => h (BitVec.eq_of_toNat_eq (ha.trans e))
    rw [hm, ha, Nat.mod_eq_of_lt (by omega)]

/-- The whole loop of `MASK`, run on `n` bytes with the key index cleared. -/
theorem maskLoop_cases (n : Nat) (s : State) (hl : s.keyLen ≠ 0) :
    ∃ m x c, forUpTo n maskStep { s with xcKidx := 0 } = { s with bytebuf := m, xcKidx := x, freeCount := c } ∧
      (∀ i, i < n → ∃ b k, Reads s.bytebuf i b ∧ Reads s.keymem (i % s.keyLen.toNat) k ∧
        Memory.get m i = some (b ^^^ k)) ∧
      (∀ a, n ≤ a → Memory.get m a = Memory.get s.bytebuf a) ∧ x.toNat = n % s.keyLen.toNat ∧
      (Memory.wf s.bytebuf → Memory.wf m) ∧ (∀ z, n ≤ z → Memory.inside s.bytebuf z → Memory.inside m z) := by
  induction n with
  | zero => exact ⟨s.bytebuf, 0, s.freeCount, rfl, by simp, by simp, by simp, id, fun _ _ => id⟩
  | succ n ih =>
    obtain ⟨m, x, c, he, hv, hf, hx, hw, hi⟩ := ih
    obtain ⟨b, k, c', hb, hk, hs⟩ := maskStep_cases n { s with bytebuf := m, xcKidx := x, freeCount := c }
    refine ⟨Memory.set m n (b ^^^ k), nextKidx x s.keyLen, c', by rw [forUpTo_succ, he, hs], ?_, ?_,
      nextKidx_toNat hl hx, fun h => Memory.wf_set (hw h) _ _,
      fun z hz h => Memory.inside_set (hi z (by omega) h) (by omega) _⟩
    · intro i hlt
      by_cases hin : i = n
      · subst hin
        refine ⟨b, k, fun u hu => hb u ?_, by simpa [hx] using hk, by simp⟩
        simpa [hf i le_rfl] using hu
      · obtain ⟨b', k', h1, h2, h3⟩ := hv i (by omega)
        exact ⟨b', k', h1, h2, by rw [Memory.get_set_ne _ _ (Ne.symm hin), h3]⟩
    · intro a ha
      rw [Memory.get_set_ne _ _ (by omega), hf a (by omega)]

/-- Where `MASK`'s tests pass, what its pseudocode leaves. -/
theorem maskBody_done {s : State} (hl : s.keyLen ≠ 0) (hk : s.keyLen.toNat ≤ s.sizes.keyMax)
    (hb : s.byteLen.toNat ≤ s.sizes.byteMax) :
    ∃ m x c, maskBody s = .done { s with bytebuf := m, xcKidx := x, freeCount := c } ∧
      (∀ i, i < s.byteLen.toNat → ∃ b k, Reads s.bytebuf i b ∧ Reads s.keymem (i % s.keyLen.toNat) k ∧
        Memory.get m i = some (b ^^^ k)) ∧
      (∀ a, s.byteLen.toNat ≤ a → Memory.get m a = Memory.get s.bytebuf a) ∧
      x.toNat = s.byteLen.toNat % s.keyLen.toNat ∧
      (Memory.wf s.bytebuf → Memory.wf m) ∧
      (Memory.inside s.bytebuf s.sizes.byteMax → Memory.inside m s.sizes.byteMax) := by
  obtain ⟨m, x, c, he, hv, hf, hx, hw, hi⟩ := maskLoop_cases s.byteLen.toNat s hl
  refine ⟨m, x, c, ?_, hv, hf, hx, hw, hi _ hb⟩
  rw [maskBody, if_neg hl, if_neg (by omega), he]

/-- The endings of `MASK`'s pseudocode: `InvalidKey` first, then `BufferRange`, with nothing written (R70, R142). -/
theorem maskBody_raised (s : State) :
    (s.keyLen = 0 → maskBody s = .raised .invalidKey s) ∧
    (s.keyLen ≠ 0 → s.sizes.keyMax < s.keyLen.toNat ∨ s.sizes.byteMax < s.byteLen.toNat →
      maskBody s = .raised .bufferRange s) := by
  constructor
  · intro h; rw [maskBody, if_pos h]; rfl
  · intro h h'; rw [maskBody, if_neg h, if_pos h']; rfl

end Sys2Proof.Machine
end

