-- ==== Sys2Proof/Laws/Embedder.lean ====
section
/-! SUPPORT. What the pseudocode of `EMBED` and `EXTRACT` can do (spec 43_pixel_lsb_embedder.md R104, R107). -/

namespace Sys2Proof.Machine

/-- One channel of `EMBED`'s scan. -/
theorem embedStep_cases (k : Nat) (s : State) :
    (s.bitLen.toNat ≤ s.peCursor.toNat ∧ embedStep k s = s) ∨
    (s.peCursor.toNat < s.bitLen.toNat ∧ ∃ v b n, Reads s.pixmem (pixCell s.sizes.nch k) v ∧
      Reads s.bitbuf s.peCursor.toNat b ∧ embedStep k s = { s with
        pixmem := Memory.set s.pixmem (pixCell s.sizes.nch k) (embedBit v b), peCursor := s.peCursor + 1,
        freeCount := n }) := by
  by_cases h : s.peCursor.toNat < s.bitLen.toNat
  · obtain ⟨v, n, hv, hve⟩ := readPix_cases (pixCell s.sizes.nch k) s
    obtain ⟨b, n', hb, hbe⟩ := readBit_cases s.peCursor.toNat { s with freeCount := n }
    exact .inr ⟨h, v, b, n', hv, hb, by rw [embedStep, if_pos h]; simp only [hve, hbe, writePix]⟩
  · exact .inl ⟨by omega, by rw [embedStep, if_neg h]⟩

/-- The whole loop of `EMBED`, run over `n` channels with the cursor cleared. -/
theorem embedLoop_cases (n : Nat) (s : State) (hn : n < 2 ^ 32) (hc : 3 ≤ s.sizes.nch) :
    ∃ m x c, forUpTo n embedStep { s with peCursor := 0 } = { s with pixmem := m, peCursor := x, freeCount := c } ∧
      x.toNat = min s.bitLen.toNat n ∧
      (∀ k, k < min s.bitLen.toNat n → ∃ v b, Reads s.pixmem (pixCell s.sizes.nch k) v ∧ Reads s.bitbuf k b ∧
        Memory.get m (pixCell s.sizes.nch k) = some (embedBit v b)) ∧
      (∀ a, (∀ k, k < min s.bitLen.toNat n → a ≠ pixCell s.sizes.nch k) → Memory.get m a = Memory.get s.pixmem a) ∧
      (Memory.wf s.pixmem → Memory.wf m) ∧
      (∀ z, (∀ k, k < n → pixCell s.sizes.nch k < z) → Memory.inside s.pixmem z → Memory.inside m z) := by
  induction n with
  | zero => exact ⟨s.pixmem, 0, s.freeCount, rfl, by simp, by simp, by simp, id, fun _ _ => id⟩
  | succ n ih =>
    obtain ⟨m, x, c, he, hx, hv, hf, hw, hi⟩ := ih (by omega)
    rcases embedStep_cases n { s with pixmem := m, peCursor := x, freeCount := c } with ⟨h, hs⟩ | ⟨h, v, b, c', hrv, hrb, hs⟩
    · simp only at h
      have hm : min s.bitLen.toNat (n + 1) = min s.bitLen.toNat n := by omega
      rw [hm]
      exact ⟨m, x, c, by rw [forUpTo_succ, he, hs], hx, hv, hf, hw, fun z hz => hi z fun k hk => hz k (by omega)⟩
    · simp only at h hrv hrb hs
      have hxn : x.toNat = n := by omega
      have hm : min s.bitLen.toNat (n + 1) = n + 1 := by omega
      have hm' : min s.bitLen.toNat n = n := by omega
      rw [hm'] at hv hf
      rw [hm]
      refine ⟨Memory.set m (pixCell s.sizes.nch n) (embedBit v b), x + 1, c', by rw [forUpTo_succ, he, hs], ?_, ?_, ?_,
        fun h => Memory.wf_set (hw h) _ _,
        fun z hz h => Memory.inside_set (hi z (fun k hk => hz k (by omega)) h) (hz n (by omega)) _⟩
      · rw [toNat_add_one (by omega)]; omega
      · intro k hk
        by_cases hkn : k = n
        · subst hkn
          refine ⟨v, b, ?_, hxn ▸ hrb, by simp⟩
          intro u hu
          refine hrv u ?_
          rwa [hf _ fun j hj hje => absurd (pixCell_inj hc hje) (by omega)]
        · obtain ⟨v', b', h1, h2, h3⟩ := hv k (by omega)
          exact ⟨v', b', h1, h2, by rw [Memory.get_set_ne _ _ fun e => hkn (pixCell_inj hc e).symm, h3]⟩
      · intro a ha
        rw [Memory.get_set_ne _ _ (Ne.symm (ha n (by omega))), hf a fun k hk => ha k (by omega)]

/-- Where `EMBED`'s tests pass, what its pseudocode leaves. -/
theorem embedBody_done {s : State} (hz : s.sizes.wf = true) (hg : s.gridOk = true)
    (hb : s.bitLen.toNat ≤ s.sizes.bitMax) :
    ∃ m x c, embedBody s = .done { s with pixmem := m, peCursor := x, freeCount := c } ∧
      x.toNat = min s.bitLen.toNat s.channels ∧
      (∀ k, k < min s.bitLen.toNat s.channels → ∃ v b, Reads s.pixmem (pixCell s.sizes.nch k) v ∧ Reads s.bitbuf k b ∧
        Memory.get m (pixCell s.sizes.nch k) = some (embedBit v b)) ∧
      (∀ a, (∀ k, k < min s.bitLen.toNat s.channels → a ≠ pixCell s.sizes.nch k) →
        Memory.get m a = Memory.get s.pixmem a) ∧
      (Memory.wf s.pixmem → Memory.wf m) ∧
      (Memory.inside s.pixmem s.sizes.pixCells → Memory.inside m s.sizes.pixCells) := by
  obtain ⟨m, x, c, he, hx, hv, hf, hw, hi⟩ :=
    embedLoop_cases s.channels s (channels_lt hz hg) ((Sizes.wf_iff _).1 hz).2.2.2.1
  refine ⟨m, x, c, ?_, hx, hv, hf, hw, hi _ fun k hk => pixCell_lt hz hg hk⟩
  rw [embedBody, if_neg (by simp [hg]; omega), he]

/-- `EMBED` raises `BufferRange` with nothing written (R104, R137). -/
theorem embedBody_raised {s : State} (h : s.gridOk = false ∨ s.sizes.bitMax < s.bitLen.toNat) :
    embedBody s = .raised .bufferRange s := by rw [embedBody, if_pos h]; rfl

/-! ### `EXTRACT` -/

/-- A channel read while the scan runs: its bit 0 is appended and the cursor moves on. -/
def appended (s : State) (b : Bit) (c : Nat) : State :=
  { s with
    bitbuf := Memory.set s.bitbuf s.bitLen.toNat b, bitLen := s.bitLen + 1, peCursor := s.peCursor + 1, freeCount := c }

/-- One channel of `EXTRACT`'s scan while it runs. -/
theorem extractStep_running (k : Nat) {s : State} (h : s.found = false) :
    ∃ v c, Reads s.pixmem (pixCell s.sizes.nch k) v ∧ extractStep k s =
      let r := termTest (appended s (channelBit v) c).bitLen.toNat (appended s (channelBit v) c)
      if r.1 then State.setFound { r.2 with bitLen := regOf (r.2.bitLen.toNat - 32) } true else r.2 := by
  obtain ⟨v, c, hv, hve⟩ := readPix_cases (pixCell s.sizes.nch k) s
  refine ⟨v, c, hv, ?_⟩
  rw [extractStep, h, if_neg Bool.false_ne_true]
  simp only [hve, writeBit, appended]
  rfl

/-- Once `FOUND` is 1 the scan does nothing more. -/
theorem extractStep_stopped (k : Nat) {s : State} (h : s.found = true) : extractStep k s = s := by
  rw [extractStep, h, if_pos rfl]

theorem regOf_add_one {x : Nat} (h : x + 1 < 2 ^ 32) : regOf x + 1 = regOf (x + 1) :=
  BitVec.eq_of_toNat_eq (by
    rw [toNat_add_one (by rw [regOf_toNat (by omega)]; exact h), regOf_toNat (by omega), regOf_toNat h])

/-- The state after a scan that has read `n` channels whose bits 0 are `f`, into the memory `m`. -/
def scanned (s : State) (m : Memory 1) (n bits : Nat) (found : Bool) (c : Nat) : State :=
  { s with
    bitbuf := m, bitLen := regOf bits, peCursor := regOf n, status := statusWithFound found s.status, freeCount := c }

theorem appended_scanned {s : State} {m : Memory 1} {k c c' : Nat} {b : Bit} (h : k + 1 < 2 ^ 32) :
    appended (scanned s m k k false c) b c' = scanned s (Memory.set m k b) (k + 1) (k + 1) false c' := by
  have hk : (regOf k).toNat = k := regOf_toNat (by omega)
  simp only [appended, scanned, hk, regOf_add_one h]

/-- The whole loop of `EXTRACT`, run over `n` channels from an empty accumulator: it has read them all and met no
terminator, or it stopped at the first `k` where the last 32 bits are zero (42_framing_terminator.md R96). -/
theorem extractLoop_cases (n : Nat) (s : State) (hn : n < 2 ^ 32) :
    ∃ (f : Nat → Bit) (m : Memory 1) (c k : Nat), k ≤ n ∧
      (∀ j, j < k → ∃ v, Reads s.pixmem (pixCell s.sizes.nch j) v ∧ f j = channelBit v) ∧
      (∀ a, Memory.get m a = if a < k then some (f a) else Memory.get s.bitbuf a) ∧
      (∀ j, j < k → ¬ TermAt f j) ∧
      ((k = n ∧ ¬ TermAt f n ∧ forUpTo n extractStep (State.setFound { s with bitLen := 0, peCursor := 0 } false) =
          scanned s m n n false c) ∨
        (TermAt f k ∧ forUpTo n extractStep (State.setFound { s with bitLen := 0, peCursor := 0 } false) =
          scanned s m k (k - 32) true c)) ∧
      (Memory.wf s.bitbuf → Memory.wf m) ∧ (∀ z, n ≤ z → Memory.inside s.bitbuf z → Memory.inside m z) := by
  induction n with
  | zero =>
    exact ⟨fun _ => 0, s.bitbuf, s.freeCount, 0, le_rfl, by simp, by simp, by simp,
      .inl ⟨rfl, fun h => absurd h.1 (by omega), rfl⟩, id, fun _ _ => id⟩
  | succ n ih =>
    obtain ⟨f, m, c, k, hk, hr, hg, hno, hend, hw, hi⟩ := ih (by omega)
    rcases hend with ⟨rfl, hnt, he⟩ | ⟨ht, he⟩
    · -- not stopped yet: channel `k` is read
      have hfound : (scanned s m k k false c).found = false := found_setFound s false
      obtain ⟨v, c', hv, hs⟩ := extractStep_running k hfound
      rw [appended_scanned (by omega)] at hs
      let f' : Nat → Bit := fun j => if j = k then channelBit v else f j
      have hff (j : Nat) (hj : j < k) : f' j = f j := if_neg (by omega)
      have hterm (j : Nat) (hj : j ≤ k) (h : TermAt f' j) : TermAt f j :=
        ⟨h.1, fun i h1 h2 => (hff i (by omega)) ▸ h.2 i h1 h2⟩
      have hgu (a : Nat) : Memory.get (Memory.set m k (channelBit v)) a =
          if a < k + 1 then some (f' a) else Memory.get s.bitbuf a := by
        rw [Memory.get_set, hg]
        by_cases h : k = a
        · subst h; rw [if_pos rfl, if_pos (by omega)]; simp [f']
        · rw [if_neg h]
          by_cases h2 : a < k
          · rw [if_pos h2, if_pos (by omega), hff a h2]
          · rw [if_neg h2, if_neg (by omega)]
      have hw' : Memory.wf s.bitbuf → Memory.wf (Memory.set m k (channelBit v)) := fun h => Memory.wf_set (hw h) _ _
      have hi' (z : Nat) (hz : k + 1 ≤ z) (h : Memory.inside s.bitbuf z) :
          Memory.inside (Memory.set m k (channelBit v)) z := Memory.inside_set (hi z (by omega) h) (by omega) _
      generalize Memory.set m k (channelBit v) = m' at hs hgu hw' hi'
      have hut : (scanned s m' (k + 1) (k + 1) false c').bitLen.toNat = k + 1 := regOf_toNat hn
      obtain ⟨h2, h1⟩ := termTest_written (n := k + 1) (s := scanned s m' (k + 1) (k + 1) false c') (f := f')
        fun j hj => by rw [show (scanned s m' (k + 1) (k + 1) false c').bitbuf = m' from rfl, hgu, if_pos hj]
      rw [hut] at hs
      simp only [h2, hut] at hs
      have htop : forUpTo (k + 1) extractStep (State.setFound { s with bitLen := 0, peCursor := 0 } false) =
          extractStep k (scanned s m k k false c) := by rw [forUpTo_succ, he]
      refine ⟨f', m', c', k + 1, le_rfl, fun j hj => ?_, hgu, fun j hj h => ?_, ?_, hw', hi'⟩
      · by_cases h : j = k
        · subst h; exact ⟨v, hv, by simp [f']⟩
        · obtain ⟨v', h1, h2⟩ := hr j (by omega)
          exact ⟨v', h1, by rw [hff j (by omega), h2]⟩
      · by_cases hjk : j = k
        · subst hjk; exact hnt (hterm j le_rfl h)
        · exact hno j (by omega) (hterm j (by omega) h)
      · by_cases ht : TermAt f' (k + 1)
        · refine .inr ⟨ht, ?_⟩
          rw [htop, hs, if_pos (h1.2 ht)]
          simp only [scanned, State.setFound, statusWithFound_twice]
        · refine .inl ⟨rfl, ht, ?_⟩
          rw [htop, hs, if_neg fun e => ht (h1.1 e)]
    · -- stopped: the rest of the scan does nothing
      have hfound : (scanned s m k (k - 32) true c).found = true := found_setFound s true
      exact ⟨f, m, c, k, by omega, hr, hg, hno, .inr ⟨ht, by rw [forUpTo_succ, he, extractStep_stopped _ hfound]⟩, hw,
        fun z hz => hi z (by omega)⟩

/-- Where `EXTRACT`'s test passes, what its pseudocode leaves: `k` channels were read, their bits 0 are `f`. -/
theorem extractBody_done {s : State} (hz : s.sizes.wf = true) (hg : s.gridOk = true) :
    ∃ (f : Nat → Bit) (m : Memory 1) (c k : Nat), k ≤ s.channels ∧
      (∀ j, j < k → ∃ v, Reads s.pixmem (pixCell s.sizes.nch j) v ∧ f j = channelBit v) ∧
      (∀ a, Memory.get m a = if a < k then some (f a) else Memory.get s.bitbuf a) ∧
      (∀ j, j < k → ¬ TermAt f j) ∧
      ((k = s.channels ∧ ¬ TermAt f k ∧ extractBody s = .done (scanned s m k k false c)) ∨
        (TermAt f k ∧ extractBody s = .done (scanned s m k (k - 32) true c))) ∧
      (Memory.wf s.bitbuf → Memory.wf m) ∧ (Memory.inside s.bitbuf s.sizes.bitMax → Memory.inside m s.sizes.bitMax) := by
  obtain ⟨f, m, c, k, hk, hr, hget, hno, hend, hw, hi⟩ := extractLoop_cases s.channels s (channels_lt hz hg)
  have he : extractBody s =
      .done (forUpTo s.channels extractStep (State.setFound { s with bitLen := 0, peCursor := 0 } false)) := by
    rw [extractBody, if_neg (by simp [hg])]
  refine ⟨f, m, c, k, hk, hr, hget, hno, ?_, hw, hi _ (channels_le hz hg)⟩
  rcases hend with ⟨rfl, hnt, h⟩ | ⟨ht, h⟩
  · exact .inl ⟨rfl, hnt, by rw [he, h]⟩
  · exact .inr ⟨ht, by rw [he, h]⟩

/-- `EXTRACT` raises `BufferRange` with nothing written (R107, R137). -/
theorem extractBody_raised {s : State} (h : s.gridOk = false) : extractBody s = .raised .bufferRange s := by
  rw [extractBody, if_pos h]; rfl

end Sys2Proof.Machine
end

