-- ==== Sys2Proof/Laws/Packer.lean ====
section
/-! SUPPORT. What the pseudocode of `TOBITS` and `TOBYTES` can do (spec 41_bitstream_packer.md R80, R81). -/

namespace Sys2Proof.Machine

/-- Writing a run of bits from cell `start` on. -/
theorem writeRun (start n : Nat) (f : Nat → Bit) (s : State) :
    ∃ m, forUpTo n (fun j => writeBit (start + j) (f j)) s = { s with bitbuf := m } ∧
      (∀ a, Memory.get m a = if start ≤ a ∧ a < start + n then some (f (a - start)) else Memory.get s.bitbuf a) ∧
      (Memory.wf s.bitbuf → Memory.wf m) ∧
      (∀ z, start + n ≤ z → Memory.inside s.bitbuf z → Memory.inside m z) := by
  induction n with
  | zero => exact ⟨s.bitbuf, rfl, fun a => by rw [if_neg (by omega)], id, fun _ _ => id⟩
  | succ n ih =>
    obtain ⟨m, he, hg, hw, hi⟩ := ih
    refine ⟨Memory.set m (start + n) (f n), by rw [forUpTo_succ, he]; rfl, fun a => ?_,
      fun h => Memory.wf_set (hw h) _ _, fun z hz h => Memory.inside_set (hi z (by omega) h) (by omega) _⟩
    rw [Memory.get_set, hg]
    by_cases h : start + n = a
    · subst h; simp
    · rw [if_neg h]
      congr 1
      simp only [eq_iff_iff]
      omega

/-- The whole loop of `TOBITS`, run on `n` bytes: one function gives the bytes read. -/
theorem tobitsLoop_cases (n : Nat) (s : State) :
    ∃ m c, ∃ f : Nat → Byte, forUpTo n tobitsStep s = { s with bitbuf := m, freeCount := c } ∧
      (∀ i, i < n → Reads s.bytebuf i (f i)) ∧
      (∀ a, Memory.get m a = if a < 8 * n then some (payloadBit f a) else Memory.get s.bitbuf a) ∧
      (Memory.wf s.bitbuf → Memory.wf m) ∧ (∀ z, 8 * n ≤ z → Memory.inside s.bitbuf z → Memory.inside m z) := by
  induction n with
  | zero => exact ⟨s.bitbuf, s.freeCount, fun _ => 0, rfl, by simp, by simp, id, fun _ _ => id⟩
  | succ n ih =>
    obtain ⟨m, c, f, he, hr, hg, hw, hi⟩ := ih
    obtain ⟨b, c', hb, hbe⟩ := readByte_cases n { s with bitbuf := m, freeCount := c }
    obtain ⟨m', he', hg', hw', hi'⟩ := writeRun (8 * n) 8 (bitOfByte b) { s with bitbuf := m, freeCount := c' }
    refine ⟨m', c', fun i => if i = n then b else f i, by rw [forUpTo_succ, he]; simp only [tobitsStep, hbe, he'],
      fun i hin => ?_, fun a => ?_, fun h => hw' (hw h), fun z hz h => hi' z (by omega) (hi z (by omega) h)⟩
    · by_cases h : i = n
      · subst h; simpa using hb
      · simpa [h] using hr i (by omega)
    · rw [hg', hg]
      simp only [payloadBit]
      by_cases h1 : 8 * n ≤ a ∧ a < 8 * n + 8
      · rw [if_pos h1, if_pos (by omega), if_pos (show a / 8 = n by omega), show a - 8 * n = a % 8 by omega]
      · rw [if_neg h1]
        by_cases h2 : a < 8 * n
        · rw [if_pos h2, if_pos (by omega), if_neg (by omega)]
        · rw [if_neg h2, if_neg (by omega)]

/-- Where `TOBITS`'s tests pass, what its pseudocode leaves. -/
theorem tobitsBody_done {s : State} (hz : s.sizes.wf = true) (hb : s.byteLen.toNat ≤ s.sizes.byteMax)
    (hn : 8 * s.byteLen.toNat ≤ s.sizes.bitMax) :
    ∃ m l c, ∃ f : Nat → Byte, tobitsBody s = .done { s with bitbuf := m, bitLen := l, freeCount := c } ∧
      (∀ i, i < s.byteLen.toNat → Reads s.bytebuf i (f i)) ∧ l.toNat = 8 * s.byteLen.toNat ∧
      (∀ a, Memory.get m a = if a < 8 * s.byteLen.toNat then some (payloadBit f a) else Memory.get s.bitbuf a) ∧
      (Memory.wf s.bitbuf → Memory.wf m) ∧ (Memory.inside s.bitbuf s.sizes.bitMax → Memory.inside m s.sizes.bitMax) := by
  obtain ⟨m, c, f, he, hr, hg, hw, hi⟩ := tobitsLoop_cases s.byteLen.toNat s
  refine ⟨m, regOf (8 * s.byteLen.toNat), c, f, ?_, hr, regOf_toNat ?_, hg, hw, hi _ hn⟩
  · rw [tobitsBody, if_neg (by omega), he]
  · exact lt_of_le_of_lt hn ((Sizes.wf_iff _).1 hz).2.2.1.2

/-- `TOBITS` raises `BufferRange` with nothing written (R80, R137). -/
theorem tobitsBody_raised {s : State} (h : s.sizes.byteMax < s.byteLen.toNat ∨ s.sizes.bitMax < 8 * s.byteLen.toNat) :
    tobitsBody s = .raised .bufferRange s := by simp [tobitsBody, h, raise]

/-- The whole loop of `TOBYTES`, run on `n` chunks: one function gives the bits read. -/
theorem tobytesLoop_cases (n : Nat) (s : State) :
    ∃ m c, ∃ f : Nat → Bit, forUpTo n tobytesStep s = { s with bytebuf := m, freeCount := c } ∧
      (∀ a, a < 8 * n → Reads s.bitbuf a (f a)) ∧
      (∀ a, Memory.get m a =
        if a < n then some (packBits ((List.range 8).map fun j => f (8 * a + j))) else Memory.get s.bytebuf a) ∧
      (Memory.wf s.bytebuf → Memory.wf m) ∧ (∀ z, n ≤ z → Memory.inside s.bytebuf z → Memory.inside m z) := by
  induction n with
  | zero => exact ⟨s.bytebuf, s.freeCount, fun _ => 0, rfl, by simp, by simp, id, fun _ _ => id⟩
  | succ n ih =>
    obtain ⟨m, c, f, he, hr, hg, hw, hi⟩ := ih
    obtain ⟨g, c', hb, hbe⟩ := readBits_cases (8 * n) 8 { s with bytebuf := m, freeCount := c }
    refine ⟨Memory.set m n (packBits ((List.range 8).map g)), c', fun a => if 8 * n ≤ a then g (a - 8 * n) else f a,
      by rw [forUpTo_succ, he]; simp only [tobytesStep, hbe, writeByte], fun a ha => ?_, fun a => ?_,
      fun h => Memory.wf_set (hw h) _ _, fun z hz h => Memory.inside_set (hi z (by omega) h) (by omega) _⟩
    · by_cases h : 8 * n ≤ a
      · have := hb (a - 8 * n) (by omega)
        rw [show 8 * n + (a - 8 * n) = a by omega] at this
        simpa [h] using this
      · simpa [h] using hr a (by omega)
    · rw [Memory.get_set, hg]
      by_cases h : n = a
      · subst h
        rw [if_pos rfl, if_pos (by omega)]
        refine congrArg _ (congrArg _ (List.map_congr_left fun j _ => ?_))
        show g j = if 8 * n ≤ 8 * n + j then g (8 * n + j - 8 * n) else f (8 * n + j)
        rw [if_pos (by omega), Nat.add_sub_cancel_left]
      · rw [if_neg h]
        by_cases h2 : a < n
        · rw [if_pos h2, if_pos (by omega)]
          refine congrArg _ (congrArg _ (List.map_congr_left fun j hj => ?_))
          have := List.mem_range.1 hj
          show f (8 * a + j) = if 8 * n ≤ 8 * a + j then g (8 * a + j - 8 * n) else f (8 * a + j)
          rw [if_neg (by omega)]
        · rw [if_neg h2, if_neg (by omega)]

/-- Where `TOBYTES`'s tests pass, what its pseudocode leaves. -/
theorem tobytesBody_done {s : State} (hb : s.bitLen.toNat ≤ s.sizes.bitMax)
    (hn : s.bitLen.toNat / 8 ≤ s.sizes.byteMax) :
    ∃ m l c, ∃ f : Nat → Bit, tobytesBody s = .done { s with bytebuf := m, byteLen := l, freeCount := c } ∧
      (∀ a, a < 8 * (s.bitLen.toNat / 8) → Reads s.bitbuf a (f a)) ∧ l.toNat = s.bitLen.toNat / 8 ∧
      (∀ a, Memory.get m a =
        if a < s.bitLen.toNat / 8 then some (packBits ((List.range 8).map fun j => f (8 * a + j)))
        else Memory.get s.bytebuf a) ∧
      (Memory.wf s.bytebuf → Memory.wf m) ∧
      (Memory.inside s.bytebuf s.sizes.byteMax → Memory.inside m s.sizes.byteMax) := by
  obtain ⟨m, c, f, he, hr, hg, hw, hi⟩ := tobytesLoop_cases (s.bitLen.toNat / 8) s
  refine ⟨m, regOf (s.bitLen.toNat / 8), c, f, ?_, hr, regOf_toNat ?_, hg, hw, hi _ hn⟩
  · rw [tobytesBody, if_neg (by omega), he]
  · have := s.bitLen.isLt; omega

/-- `TOBYTES` raises `BufferRange` with nothing written (R81, R137). -/
theorem tobytesBody_raised {s : State} (h : s.sizes.bitMax < s.bitLen.toNat ∨ s.sizes.byteMax < s.bitLen.toNat / 8) :
    tobytesBody s = .raised .bufferRange s := by simp [tobytesBody, h, raise]

end Sys2Proof.Machine
end

