-- ==== Sys2Proof/Laws/Framing.lean ====
section
/-! SUPPORT. What the pseudocode of `APPTERM` and `DETSTRIP` can do (spec 42_framing_terminator.md R90, R92, R93). -/

namespace Sys2Proof.Machine

/-- Where `APPTERM`'s test passes, what its pseudocode leaves. -/
theorem apptermBody_done {s : State} (hz : s.sizes.wf = true) (h : s.bitLen.toNat + 32 ≤ s.sizes.bitMax) :
    ∃ m l, apptermBody s = .done { s with bitbuf := m, bitLen := l } ∧ l.toNat = s.bitLen.toNat + 32 ∧
      (∀ a, Memory.get m a = if s.bitLen.toNat ≤ a ∧ a < s.bitLen.toNat + 32 then some 0 else Memory.get s.bitbuf a) ∧
      (Memory.wf s.bitbuf → Memory.wf m) ∧ (Memory.inside s.bitbuf s.sizes.bitMax → Memory.inside m s.sizes.bitMax) := by
  obtain ⟨m, he, hg, hw, hi⟩ := writeRun s.bitLen.toNat 32 (fun _ => 0) s
  have hloop : forUpTo 32 (fun j u => writeBit (u.bitLen.toNat + j) 0 u) s = { s with bitbuf := m } := by
    have key (n : Nat) : forUpTo n (fun j u => writeBit (u.bitLen.toNat + j) 0 u) s =
        forUpTo n (fun j => writeBit (s.bitLen.toNat + j) 0) s ∧
        (forUpTo n (fun j => writeBit (s.bitLen.toNat + j) 0) s).bitLen = s.bitLen := by
      induction n with
      | zero => exact ⟨rfl, rfl⟩
      | succ n ih => exact ⟨by rw [forUpTo_succ, ih.1, forUpTo_succ, ih.2], by rw [forUpTo_succ, writeBit_bitLen, ih.2]⟩
    rw [(key 32).1, he]
  refine ⟨m, regOf (s.bitLen.toNat + 32), ?_, regOf_toNat ?_, hg, hw, hi _ h⟩
  · rw [apptermBody, if_neg (by omega), hloop]
  · exact lt_of_le_of_lt h ((Sizes.wf_iff _).1 hz).2.2.1.2

/-- `APPTERM` raises `BufferRange` with nothing written (R90, R137). -/
theorem apptermBody_raised {s : State} (h : s.sizes.bitMax < s.bitLen.toNat + 32) :
    apptermBody s = .raised .bufferRange s := by rw [apptermBody, if_pos h]; rfl

/-- Where `DETSTRIP`'s test passes, what its pseudocode leaves: one function gives the bits read. -/
theorem detstripBody_done {s : State} (h : s.bitLen.toNat ≤ s.sizes.bitMax) :
    ∃ (f : Nat → Bit) (c : Nat), (∀ j, Reads s.bitbuf j (f j)) ∧
      ((TermAt f s.bitLen.toNat ∧ ∃ l, l.toNat + 32 = s.bitLen.toNat ∧
        detstripBody s = .done { s with bitLen := l, status := statusWithFound true s.status, freeCount := c }) ∨
      (¬ TermAt f s.bitLen.toNat ∧
        detstripBody s = .done { s with status := statusWithFound false s.status, freeCount := c })) := by
  obtain ⟨f, c, hf, h2, h1⟩ := termTest_cases s.bitLen.toNat s
  refine ⟨f, c, hf, ?_⟩
  by_cases ht : TermAt f s.bitLen.toNat
  · refine .inl ⟨ht, regOf (s.bitLen.toNat - 32), ?_, ?_⟩
    · rw [regOf_toNat (by have := s.bitLen.isLt; omega)]
      have := ht.1; omega
    · rw [detstripBody, if_neg (by omega)]
      simp only [h1.2 ht, if_true, h2]
      rfl
  · refine .inr ⟨ht, ?_⟩
    rw [detstripBody, if_neg (by omega)]
    have hf1 : (termTest s.bitLen.toNat s).1 = false := Bool.eq_false_iff.2 fun e => ht (h1.1 e)
    simp only [hf1, h2]
    rfl

/-- `DETSTRIP` raises `BufferRange` with nothing written (R92, R137). -/
theorem detstripBody_raised {s : State} (h : s.sizes.bitMax < s.bitLen.toNat) :
    detstripBody s = .raised .bufferRange s := by rw [detstripBody, if_pos h]; rfl

end Sys2Proof.Machine
end

