-- ==== Sys2Proof/Laws/Step.lean ====
section
/-! SUPPORT. What `exec`, a started command and a step can do. -/

namespace Sys2Proof.Machine

/-- Every command is its pseudocode and the recording of its outcome (spec 30_encoding.md R60, 60_exceptions.md R141). -/
theorem exec_eq (i : Instr) (s : State) : exec i s = .next (complete (stageBody i s)) := by cases i <;> rfl

@[simp] theorem complete_done (s : State) : complete (.done s) = endWith .none s := rfl

@[simp] theorem complete_raised (e : ErrCode) (s : State) : complete (.raised e s) = endWith e s := rfl

@[simp] theorem state_done (s : State) : (Ending.done s).state = s := rfl

@[simp] theorem state_raised (e : ErrCode) (s : State) : (Ending.raised e s).state = s := rfl

@[simp] theorem andThen_done (s : State) (next : State → Ending) : (Ending.done s).andThen next = next s := rfl

@[simp] theorem andThen_raised (e : ErrCode) (s : State) (next : State → Ending) :
    (Ending.raised e s).andThen next = .raised e s := rfl

theorem endWith_eq (e : ErrCode) (s : State) : endWith e s = s.ended e := rfl

/-- A started command reaches its end (45_orchestration.md R126). -/
theorem runCommand_next (s : State) : ∃ e t, runCommand s = .next (endWith e t) := by
  simp only [runCommand, illegalCommand, raise]
  split
  · rename_i i _
    rw [exec_eq]
    cases h : stageBody i s with
    | done t => exact ⟨.none, t, rfl⟩
    | raised e t => exact ⟨e, t, rfl⟩
  · exact ⟨_, s, rfl⟩

/-- One input, the block idle. -/
theorem step_idle {s : State} (hz : s.sizes.wf = true) (hb : s.busy = false) {x : Input} {rest : List Input}
    (hi : s.inputs = x :: rest) : step s = idleInput x { s with inputs := rest } := by
  rw [step, if_pos hz, advance, hi]
  simp only [hb]
  rfl

/-- One input, a command running. -/
theorem step_busy {s : State} (hz : s.sizes.wf = true) (hb : s.busy = true) {x : Input} {rest : List Input}
    (hi : s.inputs = x :: rest) : step s = busyInput x { s with inputs := rest } s := by
  rw [step, if_pos hz, advance, hi]
  simp only [hb]
  rfl

/-- No input left. -/
theorem step_noInput {s : State} (hz : s.sizes.wf = true) (hi : s.inputs = []) :
    step s = if s.busy then runCommand s else .next s := by
  rw [step, if_pos hz, advance, hi]

/-- A transaction other than a `CMD` write changes the registers `KEY_LEN` to `GRID_H`, one memory cell, the read log
and the counter of the free values, and nothing else. -/
theorem takeTxn_cases (t : Txn) (s : State) :
    ∃ k b l w h km bb bt px lg c, takeTxn t s = { s with
        keyLen := k, byteLen := b, bitLen := l, gridW := w, gridH := h, keymem := km, bytebuf := bb, bitbuf := bt,
        pixmem := px, readLog := lg, freeCount := c } ∧
      (km = s.keymem ∨ ∃ i v, i < cellCount s.sizes .keymem ∧ km = Memory.set s.keymem i v) ∧
      (bb = s.bytebuf ∨ ∃ i v, i < cellCount s.sizes .bytebuf ∧ bb = Memory.set s.bytebuf i v) ∧
      (bt = s.bitbuf ∨ ∃ i v, i < cellCount s.sizes .bitbuf ∧ bt = Memory.set s.bitbuf i v) ∧
      (px = s.pixmem ∨ ∃ i v, i < cellCount s.sizes .pixmem ∧ px = Memory.set s.pixmem i v) := by
  by_cases hw : t.write
  · simp only [takeTxn, hw, if_true, hostWrite]
    split
    · simp only [writeReg]
      split <;> exact ⟨_, _, _, _, _, _, _, _, _, _, _, rfl, .inl rfl, .inl rfl, .inl rfl, .inl rfl⟩
    · rename_i m _
      simp only [writeMem]
      split
      · rename_i hlt
        cases m
        · exact ⟨_, _, _, _, _, _, _, _, _, _, _, rfl, .inr ⟨_, _, hlt, rfl⟩, .inl rfl, .inl rfl, .inl rfl⟩
        · exact ⟨_, _, _, _, _, _, _, _, _, _, _, rfl, .inl rfl, .inr ⟨_, _, hlt, rfl⟩, .inl rfl, .inl rfl⟩
        · exact ⟨_, _, _, _, _, _, _, _, _, _, _, rfl, .inl rfl, .inl rfl, .inr ⟨_, _, hlt, rfl⟩, .inl rfl⟩
        · exact ⟨_, _, _, _, _, _, _, _, _, _, _, rfl, .inl rfl, .inl rfl, .inl rfl, .inr ⟨_, _, hlt, rfl⟩⟩
      · exact ⟨_, _, _, _, _, _, _, _, _, _, _, rfl, .inl rfl, .inl rfl, .inl rfl, .inl rfl⟩
    · exact ⟨_, _, _, _, _, _, _, _, _, _, _, rfl, .inl rfl, .inl rfl, .inl rfl, .inl rfl⟩
  · have hread : ∃ c, (hostRead t s).2 = { s with freeCount := c } := by
      simp only [hostRead]
      split
      · exact ⟨_, rfl⟩
      · rename_i m _
        simp only [readMem]
        split
        · cases m
          · obtain ⟨v, c, _, h⟩ := readKey_cases t.index.toNat s; exact ⟨c, by simp only [zextByte, h]⟩
          · obtain ⟨v, c, _, h⟩ := readByte_cases t.index.toNat s; exact ⟨c, by simp only [zextByte, h]⟩
          · obtain ⟨v, c, _, h⟩ := readBit_cases t.index.toNat s; exact ⟨c, by simp only [zextBit, h]⟩
          · obtain ⟨v, c, _, h⟩ := readPix_cases t.index.toNat s; exact ⟨c, by simp only [zextByte, h]⟩
        · exact ⟨_, rfl⟩
      · exact ⟨_, rfl⟩
    obtain ⟨c, hc⟩ := hread
    simp only [takeTxn, hw, hc]
    exact ⟨_, _, _, _, _, _, _, _, _, _, _, rfl, .inl rfl, .inl rfl, .inl rfl, .inl rfl⟩

end Sys2Proof.Machine
end

