-- ==== Sys2Proof/Laws/Compose.lean ====
section
/-! SUPPORT. Stages one after another (spec 45_orchestration.md R120, R121, R123): no stage looks at `ERR` or `BUSY`, so a
stage runs the same from a state in which an earlier outcome has been recorded. -/

namespace Sys2Proof.Machine

/-- The ending with its state changed by `f`. -/
def Ending.map (f : State → State) : Ending → Ending
  | .done s => .done (f s)
  | .raised e s => .raised e (f s)

/-- `CMD`, `BUSY` and `ERR` set, as the start and the end of a command set them. -/
def touch (c : Word) (b : Bool) (e : Word) (s : State) : State :=
  { s with cmd := c, err := e, status := statusWithBusy b s.status }

@[simp] theorem touch_sizes (c : Word) (b : Bool) (e : Word) (s : State) : (touch c b e s).sizes = s.sizes := rfl
@[simp] theorem touch_keyLen (c : Word) (b : Bool) (e : Word) (s : State) : (touch c b e s).keyLen = s.keyLen := rfl
@[simp] theorem touch_byteLen (c : Word) (b : Bool) (e : Word) (s : State) : (touch c b e s).byteLen = s.byteLen := rfl
@[simp] theorem touch_bitLen (c : Word) (b : Bool) (e : Word) (s : State) : (touch c b e s).bitLen = s.bitLen := rfl
@[simp] theorem touch_gridW (c : Word) (b : Bool) (e : Word) (s : State) : (touch c b e s).gridW = s.gridW := rfl
@[simp] theorem touch_gridH (c : Word) (b : Bool) (e : Word) (s : State) : (touch c b e s).gridH = s.gridH := rfl
@[simp] theorem touch_cap (c : Word) (b : Bool) (e : Word) (s : State) : (touch c b e s).cap = s.cap := rfl
@[simp] theorem touch_xcKidx (c : Word) (b : Bool) (e : Word) (s : State) : (touch c b e s).xcKidx = s.xcKidx := rfl
@[simp] theorem touch_peCursor (c : Word) (b : Bool) (e : Word) (s : State) : (touch c b e s).peCursor = s.peCursor := rfl
@[simp] theorem touch_keymem (c : Word) (b : Bool) (e : Word) (s : State) : (touch c b e s).keymem = s.keymem := rfl
@[simp] theorem touch_bytebuf (c : Word) (b : Bool) (e : Word) (s : State) : (touch c b e s).bytebuf = s.bytebuf := rfl
@[simp] theorem touch_bitbuf (c : Word) (b : Bool) (e : Word) (s : State) : (touch c b e s).bitbuf = s.bitbuf := rfl
@[simp] theorem touch_pixmem (c : Word) (b : Bool) (e : Word) (s : State) : (touch c b e s).pixmem = s.pixmem := rfl
@[simp] theorem touch_inputs (c : Word) (b : Bool) (e : Word) (s : State) : (touch c b e s).inputs = s.inputs := rfl
@[simp] theorem touch_readLog (c : Word) (b : Bool) (e : Word) (s : State) : (touch c b e s).readLog = s.readLog := rfl
@[simp] theorem touch_freeCount (c : Word) (b : Bool) (e : Word) (s : State) : (touch c b e s).freeCount = s.freeCount := rfl

theorem endWith_eq_touch (e : ErrCode) (s : State) : endWith e s = touch s.cmd false e.code s := rfl

theorem startCommand_eq_touch (w : Word) (s : State) : startCommand w s = touch w true s.err s := rfl

@[simp] theorem found_touch (c : Word) (b : Bool) (e : Word) (s : State) : (touch c b e s).found = s.found :=
  statusWithBusy_getLsbD b s.status 1

/-- A stage runs the same whatever `CMD`, `BUSY` and `ERR` hold, and leaves them as they are. -/
def Quiet (B : State → Ending) : Prop := ∀ c b e s, B (touch c b e s) = (B s).map (touch c b e)

/-- A loop commutes with what its body commutes with. -/
theorem forUpTo_comm {f : State → State} {body : Nat → State → State} (h : ∀ i s, body i (f s) = f (body i s)) (n : Nat)
    (s : State) : forUpTo n body (f s) = f (forUpTo n body s) := by
  induction n with
  | zero => rfl
  | succ n ih => rw [forUpTo_succ, forUpTo_succ, ih, h]

/-! ### Reads -/

theorem readByte_touch (c : Word) (b : Bool) (e : Word) (i : Nat) (s : State) :
    readByte i (touch c b e s) = ((readByte i s).1, touch c b e (readByte i s).2) := by
  simp only [readByte, byteOrFree, touch_bytebuf]; split <;> rfl

theorem readKey_touch (c : Word) (b : Bool) (e : Word) (i : Nat) (s : State) :
    readKey i (touch c b e s) = ((readKey i s).1, touch c b e (readKey i s).2) := by
  simp only [readKey, byteOrFree, touch_keymem]; split <;> rfl

theorem readPix_touch (c : Word) (b : Bool) (e : Word) (i : Nat) (s : State) :
    readPix i (touch c b e s) = ((readPix i s).1, touch c b e (readPix i s).2) := by
  simp only [readPix, byteOrFree, touch_pixmem]; split <;> rfl

theorem readBit_touch (c : Word) (b : Bool) (e : Word) (i : Nat) (s : State) :
    readBit i (touch c b e s) = ((readBit i s).1, touch c b e (readBit i s).2) := by
  simp only [readBit, bitOrFree, touch_bitbuf]; split <;> rfl

theorem readBits_touch (c : Word) (b : Bool) (e : Word) (i n : Nat) (s : State) :
    readBits i n (touch c b e s) = ((readBits i n s).1, touch c b e (readBits i n s).2) := by
  induction n with
  | zero => rfl
  | succ n ih => simp only [readBits, ih, readBit_touch]

theorem termTest_touch (c : Word) (b : Bool) (e : Word) (n : Nat) (s : State) :
    termTest n (touch c b e s) = ((termTest n s).1, touch c b e (termTest n s).2) := by
  unfold termTest; split
  · rfl
  · simp only [readBits_touch]

theorem setFound_touch (c : Word) (b : Bool) (e : Word) (f : Bool) (s : State) :
    (touch c b e s).setFound f = touch c b e (s.setFound f) := by
  simp only [touch, State.setFound, statusWithBusy_statusWithFound]

/-! ### The stages -/

theorem maskStep_touch (c : Word) (b : Bool) (e : Word) (i : Nat) (s : State) :
    maskStep i (touch c b e s) = touch c b e (maskStep i s) := by
  simp only [maskStep, readByte_touch, readKey_touch, touch_xcKidx]
  rfl

theorem maskBody_quiet : Quiet maskBody := by
  intro c b e s
  rw [maskBody, maskBody]
  by_cases h : s.keyLen = 0
  · rw [if_pos h]; exact if_pos h
  · rw [if_neg h]; refine (if_neg h).trans ?_
    by_cases h' : s.sizes.keyMax < s.keyLen.toNat ∨ s.sizes.byteMax < s.byteLen.toNat
    · rw [if_pos h']; exact if_pos h'
    · rw [if_neg h']; refine (if_neg h').trans ?_
      exact congrArg Ending.done (forUpTo_comm (maskStep_touch c b e) _ { s with xcKidx := 0 })

theorem tobitsStep_touch (c : Word) (b : Bool) (e : Word) (i : Nat) (s : State) :
    tobitsStep i (touch c b e s) = touch c b e (tobitsStep i s) := by
  simp only [tobitsStep, readByte_touch]
  exact forUpTo_comm (f := touch c b e) (body := fun j => writeBit (8 * i + j) (bitOfByte (readByte i s).1 j))
    (fun _ _ => rfl) _ _

theorem tobitsBody_quiet : Quiet tobitsBody := by
  intro c b e s
  rw [tobitsBody, tobitsBody]
  by_cases h : s.sizes.byteMax < s.byteLen.toNat ∨ s.sizes.bitMax < 8 * s.byteLen.toNat
  · rw [if_pos h]; exact if_pos h
  · rw [if_neg h]; refine (if_neg h).trans ?_
    rw [touch_byteLen, forUpTo_comm (tobitsStep_touch c b e)]
    generalize forUpTo _ tobitsStep s = t
    rfl

theorem tobytesStep_touch (c : Word) (b : Bool) (e : Word) (i : Nat) (s : State) :
    tobytesStep i (touch c b e s) = touch c b e (tobytesStep i s) := by
  simp only [tobytesStep, readBits_touch]
  generalize readBits (8 * i) 8 s = r
  generalize packBits r.1 = v
  rfl

theorem tobytesBody_quiet : Quiet tobytesBody := by
  intro c b e s
  rw [tobytesBody, tobytesBody]
  by_cases h : s.sizes.bitMax < s.bitLen.toNat ∨ s.sizes.byteMax < s.bitLen.toNat / 8
  · rw [if_pos h]; exact if_pos h
  · rw [if_neg h]; refine (if_neg h).trans ?_
    rw [touch_bitLen, forUpTo_comm (tobytesStep_touch c b e)]
    generalize forUpTo _ tobytesStep s = t
    rfl

theorem apptermBody_quiet : Quiet apptermBody := by
  intro c b e s
  have hb : ∀ (i : Nat) (s : State), (fun j (u : State) => writeBit (u.bitLen.toNat + j) 0 u) i (touch c b e s) =
    touch c b e ((fun j (u : State) => writeBit (u.bitLen.toNat + j) 0 u) i s) := fun _ _ => rfl
  rw [apptermBody, apptermBody]
  by_cases h : s.sizes.bitMax < s.bitLen.toNat + 32
  · rw [if_pos h]; exact if_pos h
  · rw [if_neg h]; refine (if_neg h).trans ?_; rw [forUpTo_comm hb]; rfl

theorem detstripBody_quiet : Quiet detstripBody := by
  intro c b e s
  rw [detstripBody, detstripBody]
  by_cases h : s.sizes.bitMax < s.bitLen.toNat
  · rw [if_pos h]; exact if_pos h
  · rw [if_neg h]; refine (if_neg h).trans ?_
    simp only [touch_bitLen, termTest_touch]
    generalize termTest _ s = r
    cases r.1
    · exact congrArg Ending.done (setFound_touch c b e false r.2)
    · exact congrArg Ending.done (setFound_touch c b e true { r.2 with bitLen := regOf (r.2.bitLen.toNat - 32) })

theorem capchkBody_quiet : Quiet capchkBody := by
  intro c b e s
  rw [capchkBody, capchkBody]
  by_cases h : s.gridOk = false ∨ s.sizes.bitMax < s.bitLen.toNat
  · rw [if_pos h]; exact if_pos h
  · rw [if_neg h]; refine (if_neg h).trans ?_
    by_cases h' : (regOf s.channels).toNat < s.bitLen.toNat
    · simp only
      rw [if_pos h']; exact if_pos h'
    · simp only
      rw [if_neg h']; exact if_neg h'

theorem embedStep_touch (c : Word) (b : Bool) (e : Word) (i : Nat) (s : State) :
    embedStep i (touch c b e s) = touch c b e (embedStep i s) := by
  simp only [embedStep, readPix_touch, readBit_touch, touch_peCursor, touch_bitLen, touch_sizes]
  split <;> rfl

theorem embedBody_quiet : Quiet embedBody := by
  intro c b e s
  rw [embedBody, embedBody]
  by_cases h : s.gridOk = false ∨ s.sizes.bitMax < s.bitLen.toNat
  · rw [if_pos h]; exact if_pos h
  · rw [if_neg h]; refine (if_neg h).trans ?_
    exact congrArg Ending.done (forUpTo_comm (embedStep_touch c b e) _ { s with peCursor := 0 })

theorem extractStep_touch (c : Word) (b : Bool) (e : Word) (i : Nat) (s : State) :
    extractStep i (touch c b e s) = touch c b e (extractStep i s) := by
  simp only [extractStep, found_touch]
  split
  · rfl
  · simp only [readPix_touch, touch_sizes]
    generalize readPix _ s = r
    have hw (i : Nat) (v : Bit) (t : State) : writeBit i v (touch c b e t) = touch c b e (writeBit i v t) := rfl
    have hn (t : State) : ({ touch c b e t with bitLen := t.bitLen + 1, peCursor := t.peCursor + 1 } : State) =
      touch c b e { t with bitLen := t.bitLen + 1, peCursor := t.peCursor + 1 } := rfl
    simp only [touch_bitLen, touch_peCursor, hw, hn, termTest_touch]
    generalize termTest _ _ = q
    split
    · exact setFound_touch c b e true { q.2 with bitLen := regOf (q.2.bitLen.toNat - 32) }
    · rfl

theorem extractBody_quiet : Quiet extractBody := by
  intro c b e s
  rw [extractBody, extractBody]
  by_cases h : s.gridOk = false
  · rw [if_pos h]; exact if_pos h
  · rw [if_neg h]; refine (if_neg h).trans ?_
    have := forUpTo_comm (extractStep_touch c b e) s.channels (State.setFound { s with bitLen := 0, peCursor := 0 } false)
    rw [← setFound_touch] at this
    exact congrArg Ending.done this

/-- Two quiet stages in a row are a quiet stage. -/
theorem Quiet.andThen {A B : State → Ending} (ha : Quiet A) (hb : Quiet B) : Quiet (fun s => (A s).andThen B) := by
  intro c b e s
  show (A (touch c b e s)).andThen B = ((A s).andThen B).map (touch c b e)
  rw [ha]
  cases A s with
  | done t => exact hb c b e t
  | raised e' t => rfl

theorem stageBody_quiet (i : Instr) : Quiet (stageBody i) := by
  cases i
  case nop => exact fun _ _ _ _ => rfl
  case mask => exact maskBody_quiet
  case tobits => exact tobitsBody_quiet
  case tobytes => exact tobytesBody_quiet
  case appterm => exact apptermBody_quiet
  case detstrip => exact detstripBody_quiet
  case capchk => exact capchkBody_quiet
  case embed => exact embedBody_quiet
  case extract => exact extractBody_quiet
  case embmsg =>
    exact (((maskBody_quiet.andThen tobitsBody_quiet).andThen apptermBody_quiet).andThen capchkBody_quiet).andThen
      embedBody_quiet
  case extmsg => exact (extractBody_quiet.andThen tobytesBody_quiet).andThen maskBody_quiet

/-! ### Endings -/

/-- The last outcome recorded is the one that stays. -/
theorem endWith_endWith (a b : ErrCode) (s : State) : endWith a (endWith b s) = endWith a s := by
  simp [endWith, State.setBusy]

/-- What a command leaves, from a state that differs in `CMD`, `BUSY` and `ERR`: the same but for `CMD`. -/
theorem complete_map (c : Word) (b : Bool) (e : Word) (x : Ending) :
    complete (x.map (touch c b e)) = { complete x with cmd := c } := by
  cases x <;> simp [Ending.map, endWith, State.setBusy, touch]

/-- A command started and run to its end (30_encoding.md R60): `CMD` holds the word, and the rest is what the command
leaves from the state before its start. -/
theorem runCommand_startCommand {w : Word} {i : Instr} (hd : decode w = .ok i) (s : State) :
    runCommand (startCommand w s) = .next { complete (stageBody i s) with cmd := w } := by
  have hc : (startCommand w s).cmd = w := rfl
  rw [runCommand, hc, hd, startCommand_eq_touch]
  show exec i (touch w true s.err s) = _
  rw [exec_eq, stageBody_quiet, complete_map]

/-- `ERR` reads 0 exactly after a command that ran to its end. -/
theorem errRead_endWith {e : ErrCode} (s : State) : (endWith e s).errRead = 0 ↔ e = .none := by
  cases e <;> simp [State.errRead, ErrCode.code]

/-- A `raise` always carries an error. -/
theorem raised_ne_none {i : Instr} {s t : State} {e : ErrCode} (h : stageBody i s = .raised e t) : e ≠ .none := by
  have hm (s : State) : maskBody s ≠ .raised .none t := by
    unfold maskBody raise; split; simp; split <;> simp
  have h1 (s : State) : tobitsBody s ≠ .raised .none t := by unfold tobitsBody raise; split <;> simp
  have h2 (s : State) : tobytesBody s ≠ .raised .none t := by unfold tobytesBody raise; split <;> simp
  have h3 (s : State) : apptermBody s ≠ .raised .none t := by unfold apptermBody raise; split <;> simp
  have h4 (s : State) : detstripBody s ≠ .raised .none t := by
    unfold detstripBody raise; split; simp; dsimp only; split <;> simp
  have h5 (s : State) : capchkBody s ≠ .raised .none t := by
    unfold capchkBody raise; split; simp; dsimp only; split <;> simp
  have h6 (s : State) : embedBody s ≠ .raised .none t := by unfold embedBody raise; split <;> simp
  have h7 (s : State) : extractBody s ≠ .raised .none t := by unfold extractBody raise; split <;> simp
  have ha {a : Ending} {B : State → Ending} (ha : a ≠ .raised .none t) (hb : ∀ u, B u ≠ .raised .none t) :
      a.andThen B ≠ .raised .none t := by
    cases a with
    | done u => exact hb u
    | raised e u => exact ha
  rintro rfl
  cases i
  case nop => cases h
  case mask => exact hm _ h
  case tobits => exact h1 _ h
  case tobytes => exact h2 _ h
  case appterm => exact h3 _ h
  case detstrip => exact h4 _ h
  case capchk => exact h5 _ h
  case embed => exact h6 _ h
  case extract => exact h7 _ h
  case embmsg => exact ha (ha (ha (ha (hm s) h1) h3) h5) h6 h
  case extmsg => exact ha (ha (h7 s) h2) hm h

theorem andThen_assoc (a : Ending) (f g : State → Ending) :
    (a.andThen f).andThen g = a.andThen (fun s => (f s).andThen g) := by cases a <;> rfl

end Sys2Proof.Machine
end

