-- ==== Sys2Proof/Laws/Frame.lean ====
section
/-! SUPPORT. What no command writes (spec 10_state.md R12, the column "written by commands"; R26), said once for all
stages. -/

namespace Sys2Proof.Machine

/-- `t` differs from `s` only in what some command may write. -/
structure Kept (s t : State) : Prop where
  sizes : t.sizes = s.sizes
  cmd : t.cmd = s.cmd
  err : t.err = s.err
  busy : t.busy = s.busy
  keyLen : t.keyLen = s.keyLen
  gridW : t.gridW = s.gridW
  gridH : t.gridH = s.gridH
  keymem : t.keymem = s.keymem
  inputs : t.inputs = s.inputs
  readLog : t.readLog = s.readLog

theorem Kept.self (s : State) : Kept s s := ⟨rfl, rfl, rfl, rfl, rfl, rfl, rfl, rfl, rfl, rfl⟩

theorem Kept.trans {s t u : State} (h : Kept s t) (h' : Kept t u) : Kept s u :=
  ⟨h'.1.trans h.1, h'.2.trans h.2, h'.3.trans h.3, h'.4.trans h.4, h'.5.trans h.5, h'.6.trans h.6, h'.7.trans h.7,
    h'.8.trans h.8, h'.9.trans h.9, h'.10.trans h.10⟩

/-- Two stages in a row keep what each keeps. -/
theorem Kept.andThen {A B : State → Ending} (ha : ∀ s, s.sizes.wf = true → Kept s (A s).state)
    (hb : ∀ s, s.sizes.wf = true → Kept s (B s).state) (s : State) (hz : s.sizes.wf = true) :
    Kept s ((A s).andThen B).state := by
  have h := ha s hz
  revert h
  cases A s with
  | done t => exact fun h => h.trans (hb t (by rw [show t.sizes = s.sizes from h.1]; exact hz))
  | raised e t => exact id

theorem maskBody_kept (s : State) (_ : s.sizes.wf = true) : Kept s (maskBody s).state := by
  by_cases h : s.keyLen = 0
  · rw [(maskBody_raised s).1 h]; exact .self s
  by_cases h' : s.sizes.keyMax < s.keyLen.toNat ∨ s.sizes.byteMax < s.byteLen.toNat
  · rw [(maskBody_raised s).2 h h']; exact .self s
  obtain ⟨m, x, c, he, -⟩ := maskBody_done (s := s) h (by omega) (by omega)
  rw [he]; exact ⟨rfl, rfl, rfl, rfl, rfl, rfl, rfl, rfl, rfl, rfl⟩

theorem tobitsBody_kept (s : State) (hz : s.sizes.wf = true) : Kept s (tobitsBody s).state := by
  by_cases h : s.sizes.byteMax < s.byteLen.toNat ∨ s.sizes.bitMax < 8 * s.byteLen.toNat
  · rw [tobitsBody_raised h]; exact .self s
  obtain ⟨m, l, c, f, he, -⟩ := tobitsBody_done (s := s) hz (by omega) (by omega)
  rw [he]; exact ⟨rfl, rfl, rfl, rfl, rfl, rfl, rfl, rfl, rfl, rfl⟩

theorem tobytesBody_kept (s : State) (_ : s.sizes.wf = true) : Kept s (tobytesBody s).state := by
  by_cases h : s.sizes.bitMax < s.bitLen.toNat ∨ s.sizes.byteMax < s.bitLen.toNat / 8
  · rw [tobytesBody_raised h]; exact .self s
  obtain ⟨m, l, c, f, he, -⟩ := tobytesBody_done (s := s) (by omega) (by omega)
  rw [he]; exact ⟨rfl, rfl, rfl, rfl, rfl, rfl, rfl, rfl, rfl, rfl⟩

theorem apptermBody_kept (s : State) (hz : s.sizes.wf = true) : Kept s (apptermBody s).state := by
  by_cases h : s.sizes.bitMax < s.bitLen.toNat + 32
  · rw [apptermBody_raised h]; exact .self s
  obtain ⟨m, l, he, -⟩ := apptermBody_done (s := s) hz (by omega)
  rw [he]; exact ⟨rfl, rfl, rfl, rfl, rfl, rfl, rfl, rfl, rfl, rfl⟩

theorem detstripBody_kept (s : State) (_ : s.sizes.wf = true) : Kept s (detstripBody s).state := by
  by_cases h : s.sizes.bitMax < s.bitLen.toNat
  · rw [detstripBody_raised h]; exact .self s
  obtain ⟨f, c, -, ⟨-, l, -, he⟩ | ⟨-, he⟩⟩ := detstripBody_done (s := s) (by omega)
  all_goals
    rw [he]; exact ⟨rfl, rfl, rfl, busy_setFound s _, rfl, rfl, rfl, rfl, rfl, rfl⟩

theorem capchkBody_kept (s : State) (hz : s.sizes.wf = true) : Kept s (capchkBody s).state := by
  by_cases h : s.gridOk = false ∨ s.sizes.bitMax < s.bitLen.toNat
  · rw [(capchkBody_cases hz).1 h]; exact .self s
  obtain ⟨c, -, h1, h2⟩ := (capchkBody_cases hz).2 (by simpa using (not_or.1 h).1) (by omega)
  by_cases h' : s.channels < s.bitLen.toNat
  · rw [h1 h']; exact ⟨rfl, rfl, rfl, rfl, rfl, rfl, rfl, rfl, rfl, rfl⟩
  · rw [h2 (by omega)]; exact ⟨rfl, rfl, rfl, rfl, rfl, rfl, rfl, rfl, rfl, rfl⟩

theorem embedBody_kept (s : State) (hz : s.sizes.wf = true) : Kept s (embedBody s).state := by
  by_cases h : s.gridOk = false ∨ s.sizes.bitMax < s.bitLen.toNat
  · rw [embedBody_raised h]; exact .self s
  obtain ⟨m, x, c, he, -⟩ := embedBody_done (s := s) hz (by simpa using (not_or.1 h).1) (by omega)
  rw [he]; exact ⟨rfl, rfl, rfl, rfl, rfl, rfl, rfl, rfl, rfl, rfl⟩

theorem extractBody_kept (s : State) (hz : s.sizes.wf = true) : Kept s (extractBody s).state := by
  by_cases h : s.gridOk = false
  · rw [extractBody_raised h]; exact .self s
  obtain ⟨f, m, c, k, -, -, -, -, ⟨-, -, he⟩ | ⟨-, he⟩, -⟩ := extractBody_done (s := s) hz (by simpa using h)
  all_goals
    rw [he]; exact ⟨rfl, rfl, rfl, busy_setFound s _, rfl, rfl, rfl, rfl, rfl, rfl⟩

/-- No stage and no pipeline writes `CMD`, `ERR`, `BUSY`, `KEY_LEN`, the grid registers or `KEYMEM`. -/
theorem stageBody_kept (i : Instr) (s : State) (hz : s.sizes.wf = true) : Kept s (stageBody i s).state := by
  cases i
  case nop => exact .self s
  case mask => exact maskBody_kept s hz
  case tobits => exact tobitsBody_kept s hz
  case tobytes => exact tobytesBody_kept s hz
  case appterm => exact apptermBody_kept s hz
  case detstrip => exact detstripBody_kept s hz
  case capchk => exact capchkBody_kept s hz
  case embed => exact embedBody_kept s hz
  case extract => exact extractBody_kept s hz
  case embmsg =>
    exact Kept.andThen (Kept.andThen (Kept.andThen (Kept.andThen maskBody_kept tobitsBody_kept) apptermBody_kept)
      capchkBody_kept) embedBody_kept s hz
  case extmsg => exact Kept.andThen (Kept.andThen extractBody_kept tobytesBody_kept) maskBody_kept s hz

end Sys2Proof.Machine
end

