-- ==== Sys2Proof/Laws/PerInstr.lean ====
section
/-! SUPPORT. Statements made per command. `Encoding`: the command's word has the field `zero` 0, is read back as the
command, and is well formed (spec 30_encoding.md R61, R62). -/

namespace Sys2Proof.Laws.Encoding

def Statement (i : Instr) : Prop :=
  zeroField (encode i) = 0 ∧ opcodeField (encode i) = opcodeOf i ∧ decode (encode i) = .ok i ∧ i.wf = true

theorem nop : Statement .nop := by unfold Statement; decide
theorem mask : Statement .mask := by unfold Statement; decide
theorem tobits : Statement .tobits := by unfold Statement; decide
theorem tobytes : Statement .tobytes := by unfold Statement; decide
theorem appterm : Statement .appterm := by unfold Statement; decide
theorem detstrip : Statement .detstrip := by unfold Statement; decide
theorem capchk : Statement .capchk := by unfold Statement; decide
theorem embed : Statement .embed := by unfold Statement; decide
theorem extract : Statement .extract := by unfold Statement; decide
theorem embmsg : Statement .embmsg := by unfold Statement; decide
theorem extmsg : Statement .extmsg := by unfold Statement; decide

end Sys2Proof.Laws.Encoding
end

