-- ==== Sys2Proof/Laws/Reset.lean ====
section
/-! SUPPORT. What stopping a command can do (spec 70_reset_and_hazards.md R159): to a cell, to a memory, and to the counter
of the free values, which no command turns back. -/

namespace Sys2Proof.Machine

/-! ### The cells -/

/-- A cell after the command was stopped: as it was, or written with the value given for it. -/
theorem get_tornCells {w : Nat} (i : Instr) (s : State) (m : MemId) (value : Nat → Option (BitVec w) → BitVec w)
    (mem : Memory w) (a : Nat) :
    Memory.get (tornCells i s m value mem) a = Memory.get mem a ∨
      (writesCell i s m a = true ∧ Memory.get (tornCells i s m value mem) a = some (value a (Memory.get mem a))) := by
  rw [tornCells, Memory.get_rewrite]
  split
  · split
    · rename_i h
      exact .inr ⟨(Bool.and_eq_true_iff.1 h).1, rfl⟩
    · exact .inl rfl
  · exact .inl rfl

/-- A cell the command does not write is unchanged. -/
theorem get_tornCells_unwritten {w : Nat} {i : Instr} {s : State} {m : MemId} {a : Nat} (h : writesCell i s m a = false)
    (value : Nat → Option (BitVec w) → BitVec w) (mem : Memory w) :
    Memory.get (tornCells i s m value mem) a = Memory.get mem a :=
  (get_tornCells i s m value mem a).resolve_right fun h' => by simp [h] at h'

/-- A cell that held a value holds one. -/
theorem isSome_tornCells {w : Nat} {mem : Memory w} {a : Nat} (h : (Memory.get mem a).isSome = true) (i : Instr)
    (s : State) (m : MemId) (value : Nat → Option (BitVec w) → BitVec w) :
    (Memory.get (tornCells i s m value mem) a).isSome = true := by
  obtain e | ⟨-, e⟩ := get_tornCells i s m value mem a <;> rw [e]
  · exact h
  · rfl

theorem wf_tornCells {w : Nat} {mem : Memory w} (h : Memory.wf mem) (i : Instr) (s : State) (m : MemId)
    (value : Nat → Option (BitVec w) → BitVec w) : Memory.wf (tornCells i s m value mem) := Memory.wf_rewrite h _ _

theorem inside_tornCells {w : Nat} {mem : Memory w} {s : State} {m : MemId} (h : Memory.inside mem (cellCount s.sizes m))
    (i : Instr) (value : Nat → Option (BitVec w) → BitVec w) :
    Memory.inside (tornCells i s m value mem) (cellCount s.sizes m) := Memory.inside_rewrite h le_rfl _

/-! ### The counter of the free values -/

theorem byteOrFree_draws (c : Option Byte) (s : State) : s.freeCount ≤ (byteOrFree c s).2.freeCount := by
  cases c <;> simp [byteOrFree, drawByte]

theorem bitOrFree_draws (c : Option Bit) (s : State) : s.freeCount ≤ (bitOrFree c s).2.freeCount := by
  cases c <;> simp [bitOrFree, drawBit]

theorem readKey_draws (i : Nat) (s : State) : s.freeCount ≤ (readKey i s).2.freeCount := byteOrFree_draws _ s

theorem readByte_draws (i : Nat) (s : State) : s.freeCount ≤ (readByte i s).2.freeCount := byteOrFree_draws _ s

theorem readBit_draws (i : Nat) (s : State) : s.freeCount ≤ (readBit i s).2.freeCount := bitOrFree_draws _ s

theorem readPix_draws (i : Nat) (s : State) : s.freeCount ≤ (readPix i s).2.freeCount := byteOrFree_draws _ s

theorem readBits_draws (start n : Nat) (s : State) : s.freeCount ≤ (readBits start n s).2.freeCount := by
  induction n with
  | zero => exact le_rfl
  | succ n ih => exact ih.trans (readBit_draws _ _)

theorem termTest_draws (n : Nat) (s : State) : s.freeCount ≤ (termTest n s).2.freeCount := by
  have h := readBits_draws (n - 32) 32 s
  revert h
  rw [termTest]
  generalize readBits (n - 32) 32 s = r
  split
  · exact fun _ => le_rfl
  · exact id

theorem forUpTo_draws {body : Nat → State → State} (h : ∀ i s, s.freeCount ≤ (body i s).freeCount) (n : Nat) (s : State) :
    s.freeCount ≤ (forUpTo n body s).freeCount :=
  forUpTo_induct (P := fun _ t => s.freeCount ≤ t.freeCount) le_rfl fun i t _ ht => ht.trans (h i t)

theorem maskStep_draws (i : Nat) (s : State) : s.freeCount ≤ (maskStep i s).freeCount := by
  simp only [maskStep, writeByte]
  exact (readByte_draws i s).trans (readKey_draws _ _)

theorem tobitsStep_draws (i : Nat) (s : State) : s.freeCount ≤ (tobitsStep i s).freeCount := by
  rw [tobitsStep]
  have h := forUpTo_draws (body := fun j => writeBit (8 * i + j) (bitOfByte (readByte i s).1 j)) (fun _ _ => le_rfl) 8
    (readByte i s).2
  exact (readByte_draws i s).trans h

theorem tobytesStep_draws (i : Nat) (s : State) : s.freeCount ≤ (tobytesStep i s).freeCount := by
  simp only [tobytesStep, writeByte]
  exact readBits_draws (8 * i) 8 s

theorem embedStep_draws (k : Nat) (s : State) : s.freeCount ≤ (embedStep k s).freeCount := by
  simp only [embedStep, writePix]
  split
  · exact (readPix_draws _ s).trans (readBit_draws _ _)
  · exact le_rfl

theorem extractStep_draws (k : Nat) (s : State) : s.freeCount ≤ (extractStep k s).freeCount := by
  have h := readPix_draws (pixCell s.sizes.nch k) s
  revert h
  simp only [extractStep]
  generalize readPix (pixCell s.sizes.nch k) s = v
  generalize hu : ({ writeBit v.2.bitLen.toNat (channelBit v.1) v.2 with
    bitLen := (writeBit v.2.bitLen.toNat (channelBit v.1) v.2).bitLen + 1,
    peCursor := (writeBit v.2.bitLen.toNat (channelBit v.1) v.2).peCursor + 1 } : State) = u
  have hc : v.2.freeCount = u.freeCount := hu ▸ rfl
  generalize hq : termTest _ u = q
  have h' : u.freeCount ≤ q.2.freeCount := hq ▸ termTest_draws _ u
  intro h
  split
  · exact le_rfl
  · split <;> exact h.trans (hc ▸ h')

/-- A stage that only moves the counter up, after one that does. -/
theorem andThen_draws {a : Ending} {B : State → Ending} {n : Nat} (ha : n ≤ a.state.freeCount)
    (hb : ∀ t, t.freeCount ≤ (B t).state.freeCount) : n ≤ (a.andThen B).state.freeCount := by
  cases a with
  | done t => exact ha.trans (hb t)
  | raised e t => exact ha

theorem maskBody_draws (s : State) : s.freeCount ≤ (maskBody s).state.freeCount := by
  rw [maskBody, raise, raise]
  split
  · exact le_rfl
  split
  · exact le_rfl
  · exact forUpTo_draws maskStep_draws _ { s with xcKidx := 0 }

theorem tobitsBody_draws (s : State) : s.freeCount ≤ (tobitsBody s).state.freeCount := by
  rw [tobitsBody, raise]
  split
  · exact le_rfl
  · exact forUpTo_draws tobitsStep_draws _ s

theorem tobytesBody_draws (s : State) : s.freeCount ≤ (tobytesBody s).state.freeCount := by
  rw [tobytesBody, raise]
  split
  · exact le_rfl
  · exact forUpTo_draws tobytesStep_draws _ s

theorem apptermBody_draws (s : State) : s.freeCount ≤ (apptermBody s).state.freeCount := by
  rw [apptermBody, raise]
  split
  · exact le_rfl
  · exact forUpTo_draws (body := fun j u => writeBit (u.bitLen.toNat + j) 0 u) (fun _ _ => le_rfl) 32 s

theorem detstripBody_draws (s : State) : s.freeCount ≤ (detstripBody s).state.freeCount := by
  simp only [detstripBody, raise]
  split
  · exact le_rfl
  · split <;> exact termTest_draws _ s

theorem capchkBody_draws (s : State) : s.freeCount ≤ (capchkBody s).state.freeCount := by
  simp only [capchkBody, raise]
  split
  · exact le_rfl
  · split <;> exact le_rfl

theorem embedBody_draws (s : State) : s.freeCount ≤ (embedBody s).state.freeCount := by
  rw [embedBody, raise]
  split
  · exact le_rfl
  · exact forUpTo_draws embedStep_draws _ { s with peCursor := 0 }

theorem extractBody_draws (s : State) : s.freeCount ≤ (extractBody s).state.freeCount := by
  rw [extractBody, raise]
  split
  · exact le_rfl
  · exact forUpTo_draws extractStep_draws _ (State.setFound { s with bitLen := 0, peCursor := 0 } false)

/-- No stage and no pipeline turns the counter back. -/
theorem stageBody_draws (i : Instr) (s : State) : s.freeCount ≤ (stageBody i s).state.freeCount := by
  cases i
  case nop => exact le_rfl
  case mask => exact maskBody_draws s
  case tobits => exact tobitsBody_draws s
  case tobytes => exact tobytesBody_draws s
  case appterm => exact apptermBody_draws s
  case detstrip => exact detstripBody_draws s
  case capchk => exact capchkBody_draws s
  case embed => exact embedBody_draws s
  case extract => exact extractBody_draws s
  case embmsg =>
    exact andThen_draws (andThen_draws (andThen_draws (andThen_draws (maskBody_draws s) tobitsBody_draws)
      apptermBody_draws) capchkBody_draws) embedBody_draws
  case extmsg => exact andThen_draws (andThen_draws (extractBody_draws s) tobytesBody_draws) maskBody_draws

end Sys2Proof.Machine
end

