-- ==== Sys2Proof/Tests/Slice0.lean ====
section
/-! SUPPORT. Tests: the checks on the parameters, the command words written out from spec 30_encoding.md R61 and R62, one
step of each command with the expected values of spec 95_test_vectors.md (the vector is named), and for each statement
with hypotheses a state that meets them all. -/

namespace Sys2Proof.Tests

open Sys2Proof Sys2Proof.Machine

-- One theorem after another, so that their kernel evaluations do not add up in memory.
set_option Elab.async false

/-! ### The parameters: one set that breaks each check of R6 and R7 -/

/-- A small legal set: two key bytes, eight message bytes, 48 bits, a grid of up to 7 by 2. -/
def small : Sizes := { keyMax := 2, byteMax := 8, bitMax := 48, wMax := 7, hMax := 2, nch := 3 }

theorem test_sizes_small : small.wf = true := by decide
theorem test_sizes_vectors : Config.vectorSizes.wf = true := by decide
theorem test_sizes_key_none : ({ small with keyMax := 0 } : Sizes).wf = false := by decide
theorem test_sizes_key_wide : ({ small with keyMax := 2 ^ 32 } : Sizes).wf = false := by decide
theorem test_sizes_byte : ({ small with byteMax := 2 ^ 32 } : Sizes).wf = false := by decide
theorem test_sizes_bit_few : ({ small with bitMax := 31, wMax := 1 } : Sizes).wf = false := by decide
theorem test_sizes_bit_wide : ({ small with bitMax := 2 ^ 32 } : Sizes).wf = false := by decide
theorem test_sizes_nch : ({ small with nch := 2 } : Sizes).wf = false := by decide
theorem test_sizes_scan : ({ small with wMax := 8, hMax := 3 } : Sizes).wf = false := by decide
theorem test_sizes_grid : ({ small with nch := 2 ^ 32 } : Sizes).wf = false := by decide

/-! ### Decoding: the field `zero`, 24 bits, above the opcode, 8 bits (R61, R62) -/

theorem test_decode_nop : decode (0x000000#24 ++ 0b00000000#8) = .ok .nop := by decide
theorem test_decode_mask : decode (0x000000#24 ++ 0b00000001#8) = .ok .mask := by decide
theorem test_decode_tobits : decode (0x000000#24 ++ 0b00000010#8) = .ok .tobits := by decide
theorem test_decode_tobytes : decode (0x000000#24 ++ 0b00000011#8) = .ok .tobytes := by decide
theorem test_decode_appterm : decode (0x000000#24 ++ 0b00000100#8) = .ok .appterm := by decide
theorem test_decode_detstrip : decode (0x000000#24 ++ 0b00000101#8) = .ok .detstrip := by decide
theorem test_decode_capchk : decode (0x000000#24 ++ 0b00000110#8) = .ok .capchk := by decide
theorem test_decode_embed : decode (0x000000#24 ++ 0b00000111#8) = .ok .embed := by decide
theorem test_decode_extract : decode (0x000000#24 ++ 0b00001000#8) = .ok .extract := by decide
theorem test_decode_embmsg : decode (0x000000#24 ++ 0b00001001#8) = .ok .embmsg := by decide
theorem test_decode_extmsg : decode (0x000000#24 ++ 0b00001010#8) = .ok .extmsg := by decide
theorem test_decode_first_illegal : decode 0x0000000B#32 = .error .noSuchOpcode := by decide
theorem test_decode_last_illegal : decode 0x000000FF#32 = .error .noSuchOpcode := by decide
theorem test_decode_zero_field : decode 0x00000101#32 = .error .zeroFieldSet := by decide
theorem test_decode_top_bit : decode 0x80000001#32 = .error .zeroFieldSet := by decide
theorem test_decodeTableWord : decodeTableWord 8 0x0A = some .extmsg ∧ decodeTableWord 32 0x10A = none := by decide

/-! ### Small states -/

/-- The cells from `start` on hold the values. -/
def cells {w : Nat} (start : Nat) : List (BitVec w) → Memory w
  | [] => []
  | v :: rest => (start, v) :: cells (start + 1) rest

/-- Reset, then the key is loaded. -/
def key (l : List Byte) (s : State) : State := { s with keymem := cells 0 l, keyLen := regOf l.length }
/-- Then the message bytes. -/
def msg (l : List Byte) (s : State) : State := { s with bytebuf := cells 0 l, byteLen := regOf l.length }
/-- Then the bits. -/
def bits (l : List Bit) (s : State) : State := { s with bitbuf := cells 0 l, bitLen := regOf l.length }
/-- Then a grid whose cells hold the values. -/
def grid (w h : Nat) (l : List Byte) (s : State) : State :=
  { s with gridW := regOf w, gridH := regOf h, pixmem := cells 0 l }

/-- `n` zero bits. -/
def zeros (n : Nat) : List Bit := List.replicate n 0
/-- `n` pixels of one colour. -/
def fill (n : Nat) (colour : List Byte) : List Byte := (List.replicate n colour).flatten

/-- What a command leaves. -/
def after (i : Instr) (s : State) : State := complete (stageBody i s)

theorem exec_after (i : Instr) (s : State) : exec i s = .next (after i s) := exec_eq i s

/-! ### The commands -/

theorem test_nop : after .nop { State.reset with err := 3, status := 2 } = { State.reset with status := 2 } := by decide +kernel

/-- Vector M2. -/
theorem test_mask : after .mask (msg [0x00, 0xFF, 0x7A, 0x41, 0x80] (key [0x78, 0x79, 0x7A] .reset)) =
    { msg [0x78, 0x86, 0x00, 0x39, 0xF9] (key [0x78, 0x79, 0x7A] .reset) with xcKidx := 2 } := by decide +kernel

/-- Vector M8: the key test comes first. -/
theorem test_mask_key_first : (after .mask { State.reset with byteLen := 65 }).err = 1 := by decide +kernel

/-- Vector B3. -/
theorem test_tobits : after .tobits (msg [0x03, 0x02] .reset) =
    bits [0, 0, 0, 0, 0, 0, 1, 1, 0, 0, 0, 0, 0, 0, 1, 0] (msg [0x03, 0x02] .reset) := by decide +kernel

/-- Vector B4. -/
theorem test_tobits_range : after .tobits { State.reset with byteLen := 65 } =
    { State.reset with byteLen := 65, err := 3 } := by decide +kernel

/-- Vector Y4: the ninth bit is dropped. -/
theorem test_tobytes : after .tobytes (bits [1, 0, 1, 0, 0, 1, 0, 1, 1] .reset) =
    msg [0xA5] (bits [1, 0, 1, 0, 0, 1, 0, 1, 1] .reset) := by decide +kernel

/-- Vector Y9. -/
theorem test_tobytes_range : after .tobytes { State.reset with bitLen := 1025 } =
    { State.reset with bitLen := 1025, err := 3 } := by decide +kernel

/-- Vector A3. -/
theorem test_appterm : after .appterm (bits [1, 0, 1, 1, 0] .reset) = bits ([1, 0, 1, 1, 0] ++ zeros 32) .reset := by
  decide +kernel

/-- Vector A6. -/
theorem test_appterm_range : after .appterm { State.reset with bitLen := 993 } =
    { State.reset with bitLen := 993, err := 3 } := by decide +kernel

/-- Vector Z8. -/
theorem test_detstrip_found : after .detstrip (bits ([1, 0, 1] ++ zeros 32) .reset) =
    { bits ([1, 0, 1] ++ zeros 32) .reset with bitLen := 3, status := 2 } := by decide +kernel

/-- Vector Z6: `FOUND` is written in the other outcome too. -/
theorem test_detstrip_clears : after .detstrip { bits (zeros 16 ++ [1] ++ zeros 20) .reset with status := 2 } =
    bits (zeros 16 ++ [1] ++ zeros 20) .reset := by decide +kernel

/-- Vector K1: equal fits. -/
theorem test_capchk_fits : after .capchk { State.reset with gridW := 4, gridH := 4, bitLen := 48, cap := 7 } =
    { State.reset with gridW := 4, gridH := 4, bitLen := 48, cap := 48 } := by decide +kernel

/-- Vector K3. -/
theorem test_capchk_exceeds : after .capchk { State.reset with gridW := 3, gridH := 3, bitLen := 48, cap := 7 } =
    { State.reset with gridW := 3, gridH := 3, bitLen := 48, cap := 27, err := 2 } := by decide +kernel

/-- Vector E3: four channels per pixel, the fourth untouched. -/
theorem test_embed :
    let s : State := { State.reset with sizes := { Config.vectorSizes with nch := 4 } }
    let t := bits [1, 0, 1, 0, 1] s
    after .embed (grid 2 1 [0xC8, 0x64, 0x33, 0xFF, 0xC8, 0x64, 0x33, 0xFF] t) =
      { grid 2 1 [0xC9, 0x64, 0x33, 0xFF, 0xC8, 0x65, 0x33, 0xFF] t with peCursor := 5 } := by decide +kernel

/-- Vector E2: cut off at the end of the grid with no error. -/
theorem test_embed_cut : after .embed (grid 1 1 [0xC8, 0x64, 0x33] (bits [1, 1, 0, 1, 1] .reset)) =
    { grid 1 1 [0xC9, 0x65, 0x32] (bits [1, 1, 0, 1, 1] .reset) with peCursor := 3 } := by decide +kernel

/-- Vector X1. -/
theorem test_extract : after .extract (grid 2 2 (fill 4 [0xC8, 0x64, 0x33]) .reset) =
    { bits [0, 0, 1, 0, 0, 1, 0, 0, 1, 0, 0, 1] (grid 2 2 (fill 4 [0xC8, 0x64, 0x33]) .reset) with
      peCursor := 12 } := by decide +kernel

/-- Vector X2. -/
theorem test_extract_found : after .extract (grid 4 4 (fill 16 [0xC8, 0x64, 0x32]) .reset) =
    { bits (zeros 32) (grid 4 4 (fill 16 [0xC8, 0x64, 0x32]) .reset) with
      bitLen := 0, peCursor := 32, status := 2 } := by decide +kernel

/-- Program P1: the message `68 69`, the key `6A`, a grid of 4 by 4. -/
def p1 : State := grid 4 4 (fill 16 [0xC8, 0x64, 0x33]) (msg [0x68, 0x69] (key [0x6A] .reset))

/-- Program P1, the grid after `EMBMSG`. -/
def p1Pixels : List Byte :=
  [0xC8, 0x64, 0x32, 0xC8, 0x64, 0x32, 0xC9, 0x64, 0x32, 0xC8, 0x64, 0x32, 0xC8, 0x64, 0x33, 0xC9, 0x64, 0x32] ++
    fill 10 [0xC8, 0x64, 0x32]

/-- Program P1, the state after `EMBMSG`. -/
def p1Embedded : State :=
  { bits ([0, 0, 0, 0, 0, 0, 1, 0, 0, 0, 0, 0, 0, 0, 1, 1] ++ zeros 32)
      (grid 4 4 p1Pixels (msg [0x02, 0x03] (key [0x6A] .reset))) with
    cap := 48, peCursor := 48 }

theorem test_embmsg : after .embmsg p1 = p1Embedded := by decide +kernel

/-- Vector G9: `InvalidKey` with nothing changed. -/
theorem test_embmsg_no_key : after .embmsg { p1 with keyLen := 0 } = { p1 with keyLen := 0, err := 1 } := by
  decide +kernel

/-- Program P1, after `EXTMSG`. -/
theorem test_extmsg : after .extmsg p1Embedded =
    { p1Embedded with bitLen := 16, bytebuf := cells 0 [0x68, 0x69], status := 2 } := by decide +kernel

/-- Program P2, key `6B`: the last zero bit of the payload is lost, and with it a byte. -/
theorem test_extmsg_prefix :
    let t := after .extmsg (after .embmsg { p1 with keymem := cells 0 [0x6B] })
    t.bytebuf = cells 0 [0x68, 0x02] ∧ t.byteLen = 1 ∧ t.bitLen = 15 ∧ t.peCursor = 47 ∧ t.found = true ∧ t.err = 0 := by
  decide +kernel

/-! ### Steps -/

/-- The word placed by the host is the next command to run. -/
theorem test_withFetchWord : step (State.reset.withFetchWord 32 0x06) = .next { State.reset with cmd := 0x06 } := by
  rfl

/-- An illegal word as the first command after reset. -/
theorem test_step_illegal : step (State.reset.withFetchWord 32 0x0B) =
    .next { State.reset with cmd := 0x0B, err := 4 } := by rfl

/-- The pin `h_ready` while a command runs: a `STATUS` read only (20_memory.md R51). -/
theorem test_hReady :
    hReady { State.reset with status := 1 } { write := false, space := 0, index := 1, wdata := 0 } = true ∧
    hReady { State.reset with status := 1 } { write := false, space := 0, index := 2, wdata := 0 } = false ∧
    hReady { State.reset with status := 2 } { write := true, space := 0, index := 0, wdata := 0 } = true := by decide

/-- `EXTRACT` of 21 channels that nothing has written, stopped by `rst`: one read of `PIXMEM` for each (20_memory.md R49),
and the counter of the free values is beyond them all. -/
theorem test_tear_draws : (tear .extract { State.reset with gridW := 7, gridH := 1 }).freeCount = 22 := by decide +kernel

/-! ### Witnesses: for each statement with hypotheses, a state and operands that meet them all, and for a statement of
several clauses one for each clause at a boundary of its range -/

/-- An idle block of the parameters `small` with key, message and grid, and the given inputs. -/
def box (inputs : List Input) : State :=
  { grid 7 2 (fill 14 [0xC8, 0x64, 0x33]) (msg [0x68] (key [0x6A] (State.resetOf small))) with inputs := inputs }

/-- The same block with a command running. -/
def busyBox (w : Word) (inputs : List Input) : State := startCommand w (box inputs)

/-- A read by the host. -/
def hostReads (space : BitVec 3) (index : Word) : Txn := { write := false, space := space, index := index, wdata := 0 }
/-- A write by the host. -/
def hostWrites (space : BitVec 3) (index v : Word) : Txn := { write := true, space := space, index := index, wdata := v }

theorem writtenBelow_of {w : Nat} {m : Memory w} {n : Nat} (h : ∀ a, a < n → (Memory.get m a).isSome = true) :
    WrittenBelow m n := fun a ha => Option.isSome_iff_exists.1 (h a ha)

theorem witness_StepRunsTheDecodedCommand :
    (box [.txn (cmdWrite 0x09)]).sizes.wf = true ∧ (box [.txn (cmdWrite 0x09)]).busy = false ∧
    (box [.txn (cmdWrite 0x09)]).inputs = .txn { write := true, space := 0, index := 0, wdata := 0x09 } :: [] ∧
    decode 0x09 = .ok .embmsg := by decide

theorem witness_IllegalWordRaisesIllegalCommand :
    (box [.txn (cmdWrite 0x0B), .txn (cmdWrite 0x100)]).sizes.wf = true ∧
    (box [.txn (cmdWrite 0x0B), .txn (cmdWrite 0x100)]).busy = false ∧
    (0x0B : Word).toNat / 2 ^ 8 = 0 ∧ 0x0B ≤ (0x0B : Word).toNat % 2 ^ 8 ∧
    (0x100 : Word).toNat / 2 ^ 8 ≠ 0 ∧ (0x100 : Word).toNat % 2 ^ 8 = 0 := by decide

theorem witness_StartedCommandEndsAsOneTransition :
    (box []).sizes.wf = true ∧ (box []).busy = false ∧
    box [.txn (cmdWrite 0x09)] =
      { box [] with inputs := .txn { write := true, space := 0, index := 0, wdata := 0x09 } :: [] } := by decide +kernel

theorem witness_BusyBlockTakesOnlyStatusReads :
    (busyBox 0x01 [.txn (hostReads 0 1)]).sizes.wf = true ∧ (busyBox 0x01 [.txn (hostReads 0 1)]).busy = true ∧
    ((hostReads 0 1).write = false ∧ (hostReads 0 1).space = 0 ∧ (hostReads 0 1).index = 1) ∧
    ¬ ((hostReads 0 2).write = false ∧ (hostReads 0 2).space = 0 ∧ (hostReads 0 2).index = 1) ∧
    ¬ ((cmdWrite 0).write = false ∧ (cmdWrite 0).space = 0 ∧ (cmdWrite 0).index = 1) := by decide

theorem witness_RegisterReadReturnsTheRegister :
    (box [.txn (hostReads 0 10)]).sizes.wf = true ∧ (box [.txn (hostReads 0 10)]).busy = false ∧
    (box [.txn (hostReads 0 10)]).inputs = .txn { write := false, space := 0, index := 10, wdata := 0 } :: [] ∧
    (0 : Word).toNat = 0 ∧ (10 : Word).toNat = 10 ∧ 10 < (11 : Word).toNat := by decide

theorem witness_RegisterWriteIsStoredOrIgnored :
    (box [.txn (hostWrites 0 7 4)]).sizes.wf = true ∧ (box [.txn (hostWrites 0 7 4)]).busy = false ∧
    (box [.txn (hostWrites 0 7 4)]).inputs = .txn { write := true, space := 0, index := 7, wdata := 4 } :: [] ∧
    (1 : Word).toNat = 1 ∧ (2 : Word).toNat = 2 ∧ (3 : Word).toNat = 3 ∧ (7 : Word).toNat = 7 ∧ 8 ≤ (8 : Word).toNat := by
  decide

/-- The last cell of `PIXMEM`, read and written. -/
theorem witness_MemoryTransactionsMoveOneCell :
    (box [.txn (hostReads 4 41)]).sizes.wf = true ∧ (box [.txn (hostReads 4 41)]).busy = false ∧
    (41 : Word).toNat < cellCount (box []).sizes .pixmem ∧ spaceId .pixmem = 4 ∧
    (box [.txn (hostReads 4 41)]).inputs = .txn { write := false, space := spaceId .pixmem, index := 41, wdata := 0 } :: [] ∧
    hostCell (box []) .pixmem (41 : Word).toNat = some 0x33 ∧
    (box [.txn (hostWrites 4 41 5)]).inputs =
      .txn { write := true, space := spaceId .pixmem, index := 41, wdata := 5 } :: [] := by decide +kernel

theorem witness_UnrealTargetsAreHarmless :
    (box [.txn (hostReads 0 11)]).sizes.wf = true ∧ (box [.txn (hostReads 0 11)]).busy = false ∧
    ((hostReads 0 11).space = 0 ∧ 10 < (hostReads 0 11).index.toNat) ∧ 5 ≤ (hostReads 5 0).space.toNat ∧
    ((hostReads 3 48).space = spaceId .bitbuf ∧
      cellCount (box []).sizes .bitbuf ≤ (hostReads 3 48).index.toNat) ∧
    (hostReads 3 48).write = false ∧ (hostWrites 3 48 1).write = true := by decide

theorem witness_UnwrittenCellReadsAnyValue :
    (box [.txn (hostReads 3 47)]).sizes.wf = true ∧ (box [.txn (hostReads 3 47)]).busy = false ∧
    (47 : Word).toNat < cellCount (box []).sizes .bitbuf ∧ hostCell (box []) .bitbuf (47 : Word).toNat = none ∧
    (box [.txn (hostReads 3 47)]).inputs =
      .txn { write := false, space := spaceId .bitbuf, index := 47, wdata := 0 } :: [] := by decide +kernel

theorem witness_WriteThenReadReturnsTheValue :
    (box []).sizes.wf = true ∧ (box []).busy = false ∧ (7 : Word).toNat < cellCount (box []).sizes .bytebuf ∧
    (box [.txn (hostWrites 2 7 300), .txn (hostReads 2 7)]).inputs =
      .txn { write := true, space := spaceId .bytebuf, index := 7, wdata := 300 } ::
        .txn { write := false, space := spaceId .bytebuf, index := 7, wdata := 0 } :: [] ∧
    3 ≤ (7 : Word).toNat ∧ (7 : Word).toNat ≤ 7 ∧
    (box [.txn (hostWrites 0 7 300), .txn (hostReads 0 7)]).inputs =
      .txn { write := true, space := 0, index := 7, wdata := 300 } ::
        .txn { write := false, space := 0, index := 7, wdata := 0 } :: [] := by decide

theorem witness_IdleBlockKeepsItsState :
    (box []).sizes.wf = true ∧ (box []).busy = false ∧ (box []).inputs = [] ∧
    (box [.idle]).inputs = .idle :: [] := by decide

theorem witness_NoStepWithParametersNoBlockHas : (State.resetOf { small with keyMax := 0 }).sizes.wf = false := by decide

theorem witness_ResetClearsEveryRegister :
    (box [.reset]).sizes.wf = true ∧ (box [.reset]).busy = false ∧ (box [.reset]).inputs = .reset :: [] := by decide

theorem witness_CommandsAfterReset : small.wf = true ∧ State.resetOf small = State.resetOf small := ⟨by decide, rfl⟩

/-- `MASK` and `EMBED` stopped by `rst`: a cell they write, which held a value, and one they do not. -/
theorem witness_ResetDuringACommand :
    (busyBox 0x01 [.reset]).sizes.wf = true ∧ (busyBox 0x01 [.reset]).busy = true ∧
    decode (busyBox 0x01 [.reset]).cmd = .ok .mask ∧ (busyBox 0x01 [.reset]).inputs = .reset :: [] ∧
    writesCell .mask (busyBox 0x01 []) .bytebuf 0 = true ∧ writesCell .mask (busyBox 0x01 []) .bytebuf 1 = false ∧
    (hostCell (busyBox 0x01 [.reset]) .bytebuf 0).isSome = true ∧
    writesCell .embed { bits [1] (busyBox 0x07 []) with inputs := [] } .pixmem 0 = true ∧
    Memory.get (bits [1] (busyBox 0x07 [.reset])).pixmem 0 = some 0xC8 := by decide +kernel

theorem witness_MaskXorsWithTheCyclicKey :
    small.wf = true ∧ (State.resetOf small).keyLen = 0 ∧
    ({ box [] with keyLen := 3 } : State).sizes.keyMax < (3 : Word).toNat ∧
    (box []).sizes.byteMax < ({ box [] with byteLen := 9 } : State).byteLen.toNat ∧
    ({ box [] with keyLen := 2, byteLen := 8 } : State).keyLen ≠ 0 ∧
    ({ box [] with keyLen := 2, byteLen := 8 } : State).keyLen.toNat ≤ small.keyMax ∧
    ({ box [] with keyLen := 2, byteLen := 8 } : State).byteLen.toNat ≤ small.byteMax := by decide

/-- `8 * 6 = 48 = BIT_MAX`; one byte more does not fit. -/
theorem witness_TobitsExpandsMsbFirst :
    small.wf = true ∧ small.bitMax < 8 * ({ box [] with byteLen := 7 } : State).byteLen.toNat ∧
    ({ box [] with byteLen := 6 } : State).byteLen.toNat ≤ small.byteMax ∧
    8 * ({ box [] with byteLen := 6 } : State).byteLen.toNat ≤ small.bitMax := by decide

theorem witness_TobytesPacksWholeChunks :
    small.wf = true ∧ small.bitMax < ({ box [] with bitLen := 49 } : State).bitLen.toNat ∧
    ({ box [] with bitLen := 48 } : State).bitLen.toNat ≤ small.bitMax ∧
    ({ box [] with bitLen := 48 } : State).bitLen.toNat / 8 ≤ small.byteMax := by decide

theorem witness_ApptermAppendsTheTerminator :
    small.wf = true ∧ small.bitMax < ({ box [] with bitLen := 17 } : State).bitLen.toNat + 32 ∧
    ({ box [] with bitLen := 16 } : State).bitLen.toNat + 32 ≤ small.bitMax := by decide

/-- A sequence that ends with the terminator, and one that is a bit too short for it. -/
theorem witness_DetstripTestsTheLast32Bits :
    small.wf = true ∧ small.bitMax < ({ box [] with bitLen := 49 } : State).bitLen.toNat ∧
    (bits (zeros 32) (box [])).bitLen.toNat ≤ small.bitMax ∧
    (after .detstrip (bits (zeros 32) (box []))).found = true ∧
    (bits (zeros 31) (box [])).bitLen.toNat ≤ small.bitMax ∧
    (after .detstrip (bits (zeros 31) (box []))).found = false := by decide +kernel

theorem witness_CapchkComparesWithTheCapacity :
    small.wf = true ∧ small.wMax < ({ box [] with gridW := 8 } : State).gridW.toNat ∧
    small.hMax < ({ box [] with gridH := 3 } : State).gridH.toNat ∧
    (box []).gridW.toNat ≤ small.wMax ∧ (box []).gridH.toNat ≤ small.hMax ∧
    ({ box [] with bitLen := 43 } : State).bitLen.toNat ≤ small.bitMax ∧
    ({ box [] with bitLen := 42 } : State).bitLen.toNat ≤ 3 * (box []).gridW.toNat * (box []).gridH.toNat ∧
    3 * (box []).gridW.toNat * (box []).gridH.toNat < ({ box [] with bitLen := 43 } : State).bitLen.toNat := by decide

theorem witness_EmbedWritesBitZeroInScanOrder :
    small.wf = true ∧ small.wMax < ({ box [] with gridW := 8 } : State).gridW.toNat ∧
    (box []).gridW.toNat ≤ small.wMax ∧ (box []).gridH.toNat ≤ small.hMax ∧
    ({ box [] with bitLen := 48 } : State).bitLen.toNat ≤ small.bitMax := by decide

theorem witness_ExtractReadsUntilTheTerminator :
    small.wf = true ∧ small.hMax < ({ box [] with gridH := 3 } : State).gridH.toNat ∧
    (box []).gridW.toNat ≤ small.wMax ∧ (box []).gridH.toNat ≤ small.hMax := by decide

theorem witness_EmbmsgEmbedsTheFramedMessage :
    (box []).sizes.wf = true ∧ (box []).keyLen ≠ 0 ∧ (box []).keyLen.toNat ≤ (box []).sizes.keyMax ∧
    (box []).byteLen.toNat ≤ (box []).sizes.byteMax ∧ (box []).gridW.toNat ≤ (box []).sizes.wMax ∧
    (box []).gridH.toNat ≤ (box []).sizes.hMax ∧
    8 * (box []).byteLen.toNat + 32 ≤ 3 * (box []).gridW.toNat * (box []).gridH.toNat := by decide

/-- Each stage fails for its own reason: the key, the lengths, `TOBITS` (7 bytes), `APPTERM` (3 to 6 bytes), `CAPCHK` by
the grid and by the capacity (2 bytes). -/
theorem witness_EmbmsgStopsAtTheFailingStage :
    let noKey : State := { box [] with keyLen := 0 }
    let longKey : State := { box [] with keyLen := 3 }
    let longMessage : State := { box [] with byteLen := 9 }
    let seven : State := { box [] with byteLen := 7 }
    let three : State := { box [] with byteLen := 3 }
    let wide : State := { box [] with byteLen := 2, gridW := 8 }
    let two : State := { box [] with byteLen := 2 }
    small.wf = true ∧ noKey.keyLen = 0 ∧ (longKey.keyLen ≠ 0 ∧ longKey.sizes.keyMax < longKey.keyLen.toNat) ∧
    (longMessage.keyLen ≠ 0 ∧ longMessage.sizes.byteMax < longMessage.byteLen.toNat) ∧
    (seven.keyLen ≠ 0 ∧ seven.keyLen.toNat ≤ seven.sizes.keyMax ∧ seven.byteLen.toNat ≤ seven.sizes.byteMax ∧
      seven.sizes.bitMax < 8 * seven.byteLen.toNat) ∧
    (three.byteLen.toNat ≤ three.sizes.byteMax ∧ 8 * three.byteLen.toNat ≤ three.sizes.bitMax ∧
      three.sizes.bitMax < 8 * three.byteLen.toNat + 32) ∧
    (wide.byteLen.toNat ≤ wide.sizes.byteMax ∧ 8 * wide.byteLen.toNat + 32 ≤ wide.sizes.bitMax ∧
      wide.sizes.wMax < wide.gridW.toNat) ∧
    (two.byteLen.toNat ≤ two.sizes.byteMax ∧ 8 * two.byteLen.toNat + 32 ≤ two.sizes.bitMax ∧
      two.gridW.toNat ≤ two.sizes.wMax ∧ two.gridH.toNat ≤ two.sizes.hMax ∧
      3 * two.gridW.toNat * two.gridH.toNat < 8 * two.byteLen.toNat + 32) := by decide

/-- The scan of a grid of 42 channels without a terminator gives 5 bytes: with no byte cells they do not fit. -/
theorem witness_ExtmsgRecoversTheBytes :
    let wide : State := { box [] with gridW := 8 }
    let noRoom : State := { box [] with sizes := { small with byteMax := 0 } }
    let noKey : State := { box [] with keyLen := 0 }
    let longKey : State := { box [] with keyLen := 3 }
    (wide.sizes.wf = true ∧ wide.sizes.wMax < wide.gridW.toNat) ∧
    (noRoom.sizes.wf = true ∧ noRoom.gridW.toNat ≤ noRoom.sizes.wMax ∧ noRoom.gridH.toNat ≤ noRoom.sizes.hMax ∧
      noRoom.sizes.byteMax < (after .extmsg noRoom).bitLen.toNat / 8) ∧
    ((after .extmsg noKey).bitLen.toNat / 8 ≤ noKey.sizes.byteMax ∧ noKey.keyLen = 0) ∧
    ((after .extmsg longKey).bitLen.toNat / 8 ≤ longKey.sizes.byteMax ∧
      longKey.sizes.keyMax < longKey.keyLen.toNat) ∧
    ((box []).sizes.wf = true ∧ (box []).gridW.toNat ≤ small.wMax ∧ (box []).gridH.toNat ≤ small.hMax ∧
      (after .extmsg (box [])).bitLen.toNat / 8 ≤ (box []).sizes.byteMax ∧ (box []).keyLen ≠ 0 ∧
      (box []).keyLen.toNat ≤ (box []).sizes.keyMax) := by decide +kernel

theorem witness_ExtmsgCompletesOnAnyGrid :
    (box []).sizes.wf = true ∧ (box []).keyLen ≠ 0 ∧ (box []).keyLen.toNat ≤ (box []).sizes.keyMax ∧
    (box []).gridW.toNat ≤ (box []).sizes.wMax ∧ (box []).gridH.toNat ≤ (box []).sizes.hMax ∧
    3 * (box []).gridW.toNat * (box []).gridH.toNat / 8 ≤ (box []).sizes.byteMax := by decide

theorem witness_box_written :
    WrittenBelow (box []).keymem (box []).keyLen.toNat ∧ WrittenBelow (box []).bytebuf (box []).byteLen.toNat :=
  ⟨writtenBelow_of (by decide), writtenBelow_of (by decide)⟩

/-- The second `MASK` runs where the first ended; the legal lengths and the written cells are those of `box`. -/
theorem witness_MaskTwiceRestoresTheBytes :
    ((box []).sizes.wf = true ∧ (box []).keyLen ≠ 0 ∧ (box []).keyLen.toNat ≤ (box []).sizes.keyMax ∧
      (box []).byteLen.toNat ≤ (box []).sizes.byteMax) ∧
    (WrittenBelow (box []).keymem (box []).keyLen.toNat ∧ WrittenBelow (box []).bytebuf (box []).byteLen.toNat) ∧
    exec .mask (box []) = .next (after .mask (box [])) ∧
    ((after .mask (box [])).sizes = (box []).sizes ∧ (after .mask (box [])).keyLen = (box []).keyLen ∧
      (after .mask (box [])).byteLen = (box []).byteLen ∧ (after .mask (box [])).keymem = (box []).keymem) :=
  ⟨by decide, witness_box_written, exec_after _ _, by decide +kernel⟩

/-- Two blocks that differ in what earlier commands left. -/
theorem witness_MaskDependsOnlyOnItsOperands :
    ((box []).sizes.wf = true ∧ (box []).keyLen ≠ 0 ∧ (box []).keyLen.toNat ≤ (box []).sizes.keyMax ∧
      (box []).byteLen.toNat ≤ (box []).sizes.byteMax) ∧
    (WrittenBelow (box []).keymem (box []).keyLen.toNat ∧ WrittenBelow (box []).bytebuf (box []).byteLen.toNat) ∧
    (let s' : State := { box [] with xcKidx := 1, bitLen := 9, err := 3 }
     s' ≠ box [] ∧ s'.sizes = (box []).sizes ∧ s'.keyLen = (box []).keyLen ∧ s'.byteLen = (box []).byteLen ∧
      s'.keymem = (box []).keymem ∧ s'.bytebuf = (box []).bytebuf) :=
  ⟨by decide, witness_box_written, by decide +kernel⟩

theorem witness_TobitsThenTobytesIsIdentity :
    ((box []).sizes.wf = true ∧ (box []).byteLen.toNat ≤ (box []).sizes.byteMax ∧
      8 * (box []).byteLen.toNat ≤ (box []).sizes.bitMax) ∧
    WrittenBelow (box []).bytebuf (box []).byteLen.toNat ∧
    exec .tobits (box []) = .next (after .tobits (box [])) ∧ (after .tobits (box [])).sizes = (box []).sizes :=
  ⟨by decide, witness_box_written.2, exec_after _ _, by decide +kernel⟩

/-- Nine bits: one whole chunk and one bit more. -/
theorem witness_TobytesThenTobitsKeepsWholeChunks :
    let s := bits [1, 0, 1, 0, 0, 1, 0, 1, 1] (box [])
    (s.sizes.wf = true ∧ s.bitLen.toNat ≤ s.sizes.bitMax ∧ s.bitLen.toNat / 8 ≤ s.sizes.byteMax) ∧
    WrittenBelow s.bitbuf (8 * (s.bitLen.toNat / 8)) ∧ exec .tobytes s = .next (after .tobytes s) :=
  ⟨by decide +kernel, writtenBelow_of (by decide +kernel), exec_after _ _⟩

theorem witness_ApptermThenDetstripFinds :
    let s := bits [1, 0, 1] (box [])
    (s.sizes.wf = true ∧ s.bitLen.toNat + 32 ≤ s.sizes.bitMax ∧ (after .appterm s).sizes = s.sizes) ∧
    exec .appterm s = .next (after .appterm s) := ⟨by decide +kernel, exec_after _ _⟩

/-- A grid whose channels hold the bits, one pixel per three of them. -/
def planted (w h : Nat) (l : List Bit) (s : State) : State := grid w h (l.map fun b => embedBit 0x64 b) s

/-- The payload of a scan as a function of the index. -/
def payloadOf (l : List Bit) (k : Nat) : Bit := (l[k]?).getD 0

theorem planted_of {s : State} {f : Nat → Bit} {n : Nat}
    (h : ∀ k, k < n → (Memory.get s.pixmem (pixCell s.sizes.nch k)).any
      (fun v => f k == BitVec.ofBool (v.getLsbD 0)) = true) :
    ∀ k, k < n → ∃ v : Byte, Memory.get s.pixmem (pixCell s.sizes.nch k) = some v ∧ f k = BitVec.ofBool (v.getLsbD 0) := by
  intro k hk
  have := h k hk
  rw [Option.any_eq_true] at this
  obtain ⟨v, hv, e⟩ := this
  exact ⟨v, hv, by simpa using e⟩

/-- A payload of 40 bits: one, 32 zeros, then seven bits that end in a one. -/
def zeroRun : List Bit := [1] ++ zeros 32 ++ [0, 1, 0, 0, 0, 0, 1]
/-- A payload of 40 bits that ends in 31 zeros. -/
def zeroTail : List Bit := [1, 0, 1, 1, 0, 0, 1, 0, 1] ++ zeros 31

/-- Clause (a): the first run starts at bit 1. -/
theorem witness_ScanStopsAtTheFirstZeroRun_run :
    let s := planted 12 2 (zeroRun ++ zeros 32) State.reset
    let f := payloadOf zeroRun
    (s.sizes.wf = true ∧ s.gridW.toNat ≤ s.sizes.wMax ∧ s.gridH.toNat ≤ s.sizes.hMax ∧
      40 + 32 ≤ 3 * s.gridW.toNat * s.gridH.toNat) ∧
    (∀ k, k < 40 + 32 → ∃ v : Byte, Memory.get s.pixmem (pixCell s.sizes.nch k) = some v ∧
      f k = BitVec.ofBool (v.getLsbD 0)) ∧
    (∀ k, 40 ≤ k → k < 40 + 32 → f k = 0) ∧
    (1 + 32 ≤ 40 ∧ (∀ j, j < 32 → f (1 + j) = 0) ∧ ∀ y, y < 1 → ∃ j, j < 32 ∧ f (y + j) = 1) :=
  ⟨by decide +kernel, planted_of (by decide +kernel), fun k h _ => by
    simp only [payloadOf, List.getElem?_eq_none (show zeroRun.length ≤ k from h)]; rfl, by decide +kernel⟩

/-- Clause (b) at its boundary, 31 trailing zeros. -/
theorem witness_ScanStopsAtTheFirstZeroRun_tail :
    let s := planted 12 2 (zeroTail ++ zeros 32) State.reset
    let f := payloadOf zeroTail
    (s.sizes.wf = true ∧ s.gridW.toNat ≤ s.sizes.wMax ∧ s.gridH.toNat ≤ s.sizes.hMax ∧
      40 + 32 ≤ 3 * s.gridW.toNat * s.gridH.toNat) ∧
    (∀ k, k < 40 + 32 → ∃ v : Byte, Memory.get s.pixmem (pixCell s.sizes.nch k) = some v ∧
      f k = BitVec.ofBool (v.getLsbD 0)) ∧
    (∀ k, 40 ≤ k → k < 40 + 32 → f k = 0) ∧
    (∀ y, y < 9 → ∃ j, j < 32 ∧ f (y + j) = 1) ∧ (∀ j, j < 31 → f (9 + j) = 0) ∧ f (40 - 31 - 1) = 1 :=
  ⟨by decide +kernel, planted_of (by decide +kernel), fun k h _ => by
    simp only [payloadOf, List.getElem?_eq_none (show zeroTail.length ≤ k from h)]; rfl, by decide +kernel,
    by decide +kernel, by decide +kernel⟩

theorem witness_ScanOrderIsRowMajor : 1 < 2 ∧ 6 < 7 ∧ 2 < 3 ∧ pixCell 4 41 = pixCellAt 4 7 1 6 2 := by decide

theorem witness_ScanStaysInsideTheMemories : small.wf = true ∧ 7 ≤ small.wMax ∧ 2 ≤ small.hMax := by decide

/-- A grid without a terminator and one with it. -/
theorem witness_ExtractLeavesWhatItSays :
    ((box []).sizes.wf = true ∧ (box []).gridW.toNat ≤ (box []).sizes.wMax ∧ (box []).gridH.toNat ≤ (box []).sizes.hMax) ∧
    (after .extract (box [])).found = false ∧
    (after .extract (grid 7 2 (fill 14 [0xC8, 0x64, 0x32]) (box []))).found = true := by decide +kernel

theorem witness_EmbedThenExtractReadsBack :
    let s := bits [1, 0, 1] (box [])
    (s.sizes.wf = true ∧ s.gridW.toNat ≤ s.sizes.wMax ∧ s.gridH.toNat ≤ s.sizes.hMax ∧ s.bitLen.toNat ≤ s.sizes.bitMax) ∧
    WrittenBelow s.bitbuf s.bitLen.toNat ∧ exec .embed s = .next (after .embed s) ∧
    ((after .embed s).sizes = s.sizes ∧ (after .embed s).gridW = s.gridW ∧ (after .embed s).gridH = s.gridH) :=
  ⟨by decide +kernel, writtenBelow_of (by decide +kernel), exec_after _ _, by decide +kernel⟩

/-- Program P1, whose payload ends in a one, meets every hypothesis; so does P2, whose payload ends in a zero. -/
theorem witness_RoundTripRecoversTheMessage :
    (p1.sizes.wf = true ∧ p1.keyLen ≠ 0 ∧ p1.keyLen.toNat ≤ p1.sizes.keyMax ∧ p1.byteLen.toNat ≤ p1.sizes.byteMax ∧
      8 * p1.byteLen.toNat + 32 ≤ p1.sizes.bitMax ∧ p1.gridW.toNat ≤ p1.sizes.wMax ∧
      p1.gridH.toNat ≤ p1.sizes.hMax ∧ 8 * p1.byteLen.toNat + 32 ≤ 3 * p1.gridW.toNat * p1.gridH.toNat) ∧
    (WrittenBelow p1.keymem p1.keyLen.toNat ∧ WrittenBelow p1.bytebuf p1.byteLen.toNat) ∧
    (p1Embedded.sizes = p1.sizes ∧ p1Embedded.keyLen = p1.keyLen ∧ p1Embedded.gridW = p1.gridW ∧
      p1Embedded.gridH = p1.gridH ∧ p1Embedded.keymem = p1.keymem) ∧
    NoEarlyTerm (payloadBit fun i => [0x02, 0x03].getD i 0) 16 ∧
    ¬ NoEarlyTerm (payloadBit fun i => [0x03, 0x02].getD i 0) 16 :=
  ⟨by decide +kernel, ⟨writtenBelow_of (by decide +kernel), writtenBelow_of (by decide +kernel)⟩, by decide +kernel,
    .inr ⟨by decide +kernel, fun z hz => by omega⟩, fun h =>
      h.elim (by decide) (fun h => absurd h.1 (by decide +kernel))⟩

/-- Two blocks with the same grid and key that differ in all that an earlier message left. -/
theorem witness_ExtmsgDependsOnlyOnGridAndKey :
    ((box []).sizes.wf = true ∧ (box []).gridW.toNat ≤ (box []).sizes.wMax ∧ (box []).gridH.toNat ≤ (box []).sizes.hMax ∧
      ∀ k, k < 3 * (box []).gridW.toNat * (box []).gridH.toNat →
        (Memory.get (box []).pixmem (pixCell small.nch k)).isSome = true) ∧
    WrittenBelow (box []).keymem (box []).keyLen.toNat ∧
    (let s' : State := bits [1, 1] (msg [0xFF, 0xFF] { box [] with xcKidx := 1, status := 2, err := 1, cap := 9 })
     s' ≠ box [] ∧ s'.sizes = (box []).sizes ∧ s'.gridW = (box []).gridW ∧ s'.gridH = (box []).gridH ∧
      s'.keyLen = (box []).keyLen ∧ s'.pixmem = (box []).pixmem ∧ s'.keymem = (box []).keymem) :=
  ⟨by decide +kernel, witness_box_written.1, by decide +kernel⟩

/-- Every legal state serves the statements whose only hypothesis is `sizes.wf`. -/
theorem witness_legal_state : (box []).sizes.wf = true ∧ State.reset.sizes.wf = true := by decide

/-- An idle block for which every stage of both pipelines runs to its end. -/
theorem witness_PipelinesEqualTheirStages :
    (box []).sizes.wf = true ∧ (box []).busy = false ∧ (after .embmsg (box [])).err = 0 ∧
    (after .extmsg (box [])).err = 0 := by decide +kernel

theorem witness_ErrorPriority :
    small.wf = true ∧ (State.resetOf small).keyLen = 0 ∧ small.wMax < ({ box [] with gridW := 8 } : State).gridW.toNat ∧
    small.hMax < ({ box [] with gridH := 3 } : State).gridH.toNat := by decide

theorem witness_FailingCommandsLeaveTheGridAlone :
    (box []).sizes.wf = true ∧ exec .embmsg { box [] with keyLen := 0 } = .next (after .embmsg { box [] with keyLen := 0 }) ∧
    (after .embmsg { box [] with keyLen := 0 }).err ≠ 0 := ⟨by decide, exec_after _ _, by decide +kernel⟩

/-- Two bytes need 48 bits; the grid has 42. -/
theorem witness_RejectedPayloadLeavesTheGridUnchanged :
    let s := msg [0x68, 0x69] (box [])
    s.sizes.wf = true ∧ s.keyLen ≠ 0 ∧ s.keyLen.toNat ≤ s.sizes.keyMax ∧ s.byteLen.toNat ≤ s.sizes.byteMax ∧
    8 * s.byteLen.toNat + 32 ≤ s.sizes.bitMax ∧ s.gridW.toNat ≤ s.sizes.wMax ∧ s.gridH.toNat ≤ s.sizes.hMax ∧
    3 * s.gridW.toNat * s.gridH.toNat < 8 * s.byteLen.toNat + 32 := by decide

theorem witness_CommandsWriteOnlyTheirRegisters :
    (box []).sizes.wf = true ∧ exec .embmsg (box []) = .next (after .embmsg (box [])) := ⟨by decide, exec_after _ _⟩

/-- `EMBMSG` of one byte writes channel 39 of the grid and not channel 40. -/
theorem witness_CommandsWriteOnlyTheirCells :
    ((box []).sizes.wf = true ∧ exec .embmsg (box []) = .next (after .embmsg (box []))) ∧
    writesCell .embmsg (box []) .pixmem 39 = true ∧ writesCell .embmsg (box []) .pixmem 40 = false :=
  ⟨⟨by decide, exec_after _ _⟩, by decide +kernel, by decide +kernel⟩

theorem witness_EveryStepKeepsTheInvariant : State.reset.Inv ∧ step State.reset = .next State.reset :=
  ⟨⟨by decide, ⟨by decide, by decide, by decide, by decide, by decide, by decide, by decide, by decide⟩,
    ⟨by decide, by decide, by decide, by decide, by decide⟩⟩, rfl⟩

/-- Cell 0 of `BYTEBUF` holds a value; `MASK`, which writes it, is stopped by `rst`. -/
theorem witness_WrittenCellsStayWritten :
    step (busyBox 0x01 [.reset]) = .next (tornReset (busyBox 0x01 [])) ∧
    (hostCell (busyBox 0x01 [.reset]) .bytebuf 0).isSome = true := ⟨rfl, by decide⟩

/-- The last cell of `PIXMEM`, read twice. -/
theorem witness_TwoReadsOfAWrittenCellAgree :
    let s := box [.txn (hostReads 4 41), .txn (hostReads 4 41)]
    s.sizes.wf = true ∧ s.busy = false ∧ (41 : Word).toNat < cellCount s.sizes .pixmem ∧
    hostCell s .pixmem (41 : Word).toNat = some 0x33 ∧
    s.inputs = .txn { write := false, space := spaceId .pixmem, index := 41, wdata := 0 } ::
      .txn { write := false, space := spaceId .pixmem, index := 41, wdata := 0 } :: [] := by decide +kernel

end Sys2Proof.Tests
end

section

namespace Sys2Proof.Proofs
open Sys2Proof.Machine

/-- The case the step laws leave out: parameters outside R6 or R7, whatever the inputs and `BUSY`. -/
theorem step_illegalSizes {s : State} (hz : s.sizes.wf = false) : step s = .fault .illegalSizes := by
  have hlegal : ¬ s.sizes.wf = true := Bool.eq_false_iff.mp hz
  rw [step, if_neg hlegal]

/-- Settles O14: `step` tests the parameters before it looks at an input. -/
theorem noStepWithParametersNoBlockHas : Obligations.NoStepWithParametersNoBlockHas :=
  fun _ hz => step_illegalSizes hz

end Sys2Proof.Proofs
end

section
/-! SUPPORT. The frame of the registers that some commands write and others do not (spec 10_state.md R12, the column
"written by commands"), stage by stage; `Kept` covers the registers that none writes. -/

namespace Sys2Proof.Proofs
open Sys2Proof.Machine

/-- The registers that R12 gives to some commands and not to others. Every command writes `ERR` and `STATUS.BUSY`, but
its pseudocode leaves both alone: of `STATUS` it can change `FOUND` only. -/
inductive ResultReg where
  | status | byteLen | bitLen | cap | xcKidx | peCursor

def ResultReg.value : ResultReg → State → Word
  | .status, s => s.status
  | .byteLen, s => s.byteLen
  | .bitLen, s => s.bitLen
  | .cap, s => s.cap
  | .xcKidx, s => s.xcKidx
  | .peCursor, s => s.peCursor

/-- R12's column, read by stages. As in `stageWrites`, the two pipelines are covered by their stages. -/
def stageRegs : Instr → List ResultReg
  | .nop => []
  | .mask => [.xcKidx]
  | .tobits => [.bitLen]
  | .tobytes => [.byteLen]
  | .appterm => [.bitLen]
  | .detstrip => [.status, .bitLen]
  | .capchk => [.cap]
  | .embed => [.peCursor]
  | .extract => [.status, .bitLen, .peCursor]
  | .embmsg => []
  | .extmsg => []

/-- R12's column for a command: the registers of its stages (45_orchestration.md R120, R121). -/
def commandRegs (i : Instr) : List ResultReg := (stagesOf i).flatMap stageRegs

/-- R12's column as it stands: the commands that write the register. -/
def writers : ResultReg → List Instr
  | .status => [.detstrip, .extract, .extmsg]
  | .byteLen => [.tobytes, .extmsg]
  | .bitLen => [.tobits, .appterm, .detstrip, .extract, .embmsg, .extmsg]
  | .cap => [.capchk, .embmsg]
  | .xcKidx => [.mask, .embmsg, .extmsg]
  | .peCursor => [.embed, .extract, .embmsg, .extmsg]

/-- The column agrees with what the stages write. -/
theorem mem_commandRegs {r : ResultReg} {i : Instr} : r ∈ commandRegs i ↔ i ∈ writers r := by
  cases r <;> cases i <;> simp [commandRegs, stagesOf, stageRegs, writers]

/-- `t` is `s` as far as `Kept` and the registers outside `w` go. -/
structure KeptBut (w : List ResultReg) (s t : State) : Prop where
  kept : Kept s t
  value : ∀ r, r ∉ w → r.value t = r.value s

theorem KeptBut.self (w : List ResultReg) (s : State) : KeptBut w s s := ⟨.self s, fun _ _ => rfl⟩

/-- From every state with legal parameters, `B` writes no result register outside `w`. -/
def WritesOnly (w : List ResultReg) (B : State → Ending) : Prop :=
  ∀ s, s.sizes.wf = true → KeptBut w s (B s).state

/-- Two stages in a row write what either writes. -/
theorem WritesOnly.andThen {v w : List ResultReg} {A B : State → Ending} (ha : WritesOnly v A) (hb : WritesOnly w B) :
    WritesOnly (v ++ w) (fun s => (A s).andThen B) := by
  intro s hz
  refine ⟨Kept.andThen (fun s hz => (ha s hz).kept) (fun s hz => (hb s hz).kept) s hz, fun r hr => ?_⟩
  obtain ⟨hv, hw⟩ := not_or.mp (mt List.mem_append.mpr hr)
  have h := ha s hz
  show r.value ((A s).andThen B).state = r.value s
  revert h
  cases A s with
  | done t => exact fun h => ((hb t (h.kept.sizes.symm ▸ hz)).value r hw).trans (h.value r hv)
  | raised e t => exact fun h => h.value r hv

/-! ### The stages -/

theorem maskBody_writesOnly : WritesOnly (stageRegs .mask) maskBody := by
  intro s hz
  refine ⟨maskBody_kept s hz, fun r hr => ?_⟩
  by_cases h : s.keyLen = 0
  · rw [(maskBody_raised s).1 h]; rfl
  by_cases h' : s.sizes.keyMax < s.keyLen.toNat ∨ s.sizes.byteMax < s.byteLen.toNat
  · rw [(maskBody_raised s).2 h h']; rfl
  obtain ⟨m, x, c, he, -⟩ := maskBody_done (s := s) h (by omega) (by omega)
  rw [he]
  cases r with
  | xcKidx => simp [stageRegs] at hr
  | _ => rfl

theorem tobitsBody_writesOnly : WritesOnly (stageRegs .tobits) tobitsBody := by
  intro s hz
  refine ⟨tobitsBody_kept s hz, fun r hr => ?_⟩
  by_cases h : s.sizes.byteMax < s.byteLen.toNat ∨ s.sizes.bitMax < 8 * s.byteLen.toNat
  · rw [tobitsBody_raised h]; rfl
  obtain ⟨m, l, c, f, he, -⟩ := tobitsBody_done (s := s) hz (by omega) (by omega)
  rw [he]
  cases r with
  | bitLen => simp [stageRegs] at hr
  | _ => rfl

theorem tobytesBody_writesOnly : WritesOnly (stageRegs .tobytes) tobytesBody := by
  intro s hz
  refine ⟨tobytesBody_kept s hz, fun r hr => ?_⟩
  by_cases h : s.sizes.bitMax < s.bitLen.toNat ∨ s.sizes.byteMax < s.bitLen.toNat / 8
  · rw [tobytesBody_raised h]; rfl
  obtain ⟨m, l, c, f, he, -⟩ := tobytesBody_done (s := s) (by omega) (by omega)
  rw [he]
  cases r with
  | byteLen => simp [stageRegs] at hr
  | _ => rfl

theorem apptermBody_writesOnly : WritesOnly (stageRegs .appterm) apptermBody := by
  intro s hz
  refine ⟨apptermBody_kept s hz, fun r hr => ?_⟩
  by_cases h : s.sizes.bitMax < s.bitLen.toNat + 32
  · rw [apptermBody_raised h]; rfl
  obtain ⟨m, l, he, -⟩ := apptermBody_done (s := s) hz (by omega)
  rw [he]
  cases r with
  | bitLen => simp [stageRegs] at hr
  | _ => rfl

theorem detstripBody_writesOnly : WritesOnly (stageRegs .detstrip) detstripBody := by
  intro s hz
  refine ⟨detstripBody_kept s hz, fun r hr => ?_⟩
  by_cases h : s.sizes.bitMax < s.bitLen.toNat
  · rw [detstripBody_raised h]; rfl
  obtain ⟨f, c, -, ⟨-, l, -, he⟩ | ⟨-, he⟩⟩ := detstripBody_done (s := s) (by omega)
  all_goals
    rw [he]
    cases r with
    | status | bitLen => simp [stageRegs] at hr
    | _ => rfl

theorem capchkBody_writesOnly : WritesOnly (stageRegs .capchk) capchkBody := by
  intro s hz
  refine ⟨capchkBody_kept s hz, fun r hr => ?_⟩
  by_cases h : s.gridOk = false ∨ s.sizes.bitMax < s.bitLen.toNat
  · rw [(capchkBody_cases hz).1 h]; rfl
  obtain ⟨c, -, hexceeded, hfits⟩ := (capchkBody_cases hz).2 (by simpa using (not_or.1 h).1) (by omega)
  have he : (capchkBody s).state = { s with cap := c } := by
    obtain h' | h' := lt_or_ge s.channels s.bitLen.toNat
    · rw [hexceeded h', state_raised]
    · rw [hfits h', state_done]
  rw [he]
  cases r with
  | cap => simp [stageRegs] at hr
  | _ => rfl

theorem embedBody_writesOnly : WritesOnly (stageRegs .embed) embedBody := by
  intro s hz
  refine ⟨embedBody_kept s hz, fun r hr => ?_⟩
  by_cases h : s.gridOk = false ∨ s.sizes.bitMax < s.bitLen.toNat
  · rw [embedBody_raised h]; rfl
  obtain ⟨m, x, c, he, -⟩ := embedBody_done (s := s) hz (by simpa using (not_or.1 h).1) (by omega)
  rw [he]
  cases r with
  | peCursor => simp [stageRegs] at hr
  | _ => rfl

theorem extractBody_writesOnly : WritesOnly (stageRegs .extract) extractBody := by
  intro s hz
  refine ⟨extractBody_kept s hz, fun r hr => ?_⟩
  by_cases h : s.gridOk = false
  · rw [extractBody_raised h]; rfl
  obtain ⟨f, m, c, k, -, -, -, -, ⟨-, -, he⟩ | ⟨-, he⟩, -⟩ := extractBody_done (s := s) hz (by simpa using h)
  all_goals
    rw [he]
    cases r with
    | status | bitLen | peCursor => simp [stageRegs] at hr
    | _ => rfl

/-! ### The commands -/

/-- The pseudocode of a command writes only the registers R12 names for it. -/
theorem stageBody_writesOnly (i : Instr) : WritesOnly (commandRegs i) (stageBody i) := by
  cases i
  case nop => exact fun s _ => .self _ s
  case mask => exact maskBody_writesOnly
  case tobits => exact tobitsBody_writesOnly
  case tobytes => exact tobytesBody_writesOnly
  case appterm => exact apptermBody_writesOnly
  case detstrip => exact detstripBody_writesOnly
  case capchk => exact capchkBody_writesOnly
  case embed => exact embedBody_writesOnly
  case extract => exact extractBody_writesOnly
  case embmsg =>
    exact (((maskBody_writesOnly.andThen tobitsBody_writesOnly).andThen apptermBody_writesOnly).andThen
      capchkBody_writesOnly).andThen embedBody_writesOnly
  case extmsg => exact (extractBody_writesOnly.andThen tobytesBody_writesOnly).andThen maskBody_writesOnly

theorem complete_eq_endWith (a : Ending) : ∃ e, complete a = endWith e a.state := by
  cases a with
  | done s => exact ⟨.none, rfl⟩
  | raised e s => exact ⟨e, rfl⟩

/-- A command's next state is what its pseudocode leaves, with the outcome recorded (30_encoding.md R60). -/
theorem exec_next {i : Instr} {s t : State} (h : exec i s = .next t) : ∃ e, t = endWith e (stageBody i s).state := by
  rw [exec_eq] at h
  obtain ⟨e, he⟩ := complete_eq_endWith (stageBody i s)
  exact ⟨e, (Host.Outcome.next.inj h).symm.trans he⟩

/-- The pseudocode of a command that R12 does not name for a register leaves the register as it was. -/
theorem stageBody_keeps_value {i : Instr} {s : State} (hz : s.sizes.wf = true) {r : ResultReg} (h : i ∉ writers r) :
    r.value (stageBody i s).state = r.value s := (stageBody_writesOnly i s hz).value r (mt mem_commandRegs.mp h)

/-- Settles O49: `Kept` is the first clause, R12's column `writers` gives one clause for each of its registers, and
recording the outcome then writes `ERR` and `BUSY` alone. -/
theorem commandsWriteOnlyTheirRegisters : Obligations.CommandsWriteOnlyTheirRegisters := by
  intro i s t hz hexec
  obtain ⟨e, rfl⟩ := exec_next hexec
  have hk : Kept s (stageBody i s).state := stageBody_kept i s hz
  have hv {r : ResultReg} (h : i ∉ writers r) := stageBody_keeps_value hz h
  refine ⟨⟨hk.sizes, hk.cmd, hk.keyLen, hk.gridW, hk.gridH, hk.keymem, hk.inputs, hk.readLog⟩, ?_, ?_, ?_, ?_, ?_, ?_⟩
  · intro hdetstrip hextract hextmsg
    have hstatus := hv (r := .status) (by simp [writers, hdetstrip, hextract, hextmsg])
    exact congrArg (statusWithBusy false) hstatus
  · intro htobytes hextmsg
    exact hv (r := .byteLen) (by simp [writers, htobytes, hextmsg])
  · intro hi
    exact hv (r := .bitLen) (by rcases hi with rfl | rfl | rfl | rfl | rfl <;> simp [writers])
  · intro hcapchk hembmsg
    exact hv (r := .cap) (by simp [writers, hcapchk, hembmsg])
  · intro hmask hembmsg hextmsg
    exact hv (r := .xcKidx) (by simp [writers, hmask, hembmsg, hextmsg])
  · intro hembed hextract hembmsg hextmsg
    exact hv (r := .peCursor) (by simp [writers, hembed, hextract, hembmsg, hextmsg])

end Sys2Proof.Proofs
end

section
/-! SUPPORT. What one step can do (spec 20_memory.md R52), and what every operation keeps: the canonical memories, the
cells that hold a value, and the ranges of the registers that only the block writes. -/

namespace Sys2Proof.Proofs
open Sys2Proof.Machine

/-! ### What a step can do -/

/-- A started command's next state: its pseudocode runs, or the word in `CMD` is illegal and nothing does (R136), and
then the outcome is recorded. -/
theorem runCommand_cases {s t : State} (h : runCommand s = .next t) :
    ∃ e, t = endWith e s ∨ ∃ i, t = endWith e (stageBody i s).state := by
  rw [runCommand] at h
  split at h
  · rename_i i _
    obtain ⟨e, he⟩ := exec_next h
    exact ⟨e, .inr ⟨i, he⟩⟩
  · exact ⟨.illegalCommand, .inl (Host.Outcome.next.inj h).symm⟩

/-- What the block does with one input, from a state that lists the inputs left. -/
inductive Effect (s : State) : State → Prop where
  | nothing : Effect s s
  | txn (x : Txn) : Effect s (takeTxn x s)
  | start (w : Word) : Effect s (startCommand w s)
  | finish {t : State} : runCommand s = .next t → Effect s t
  | command (w : Word) {t : State} : runCommand (startCommand w s) = .next t → Effect s t
  | reset : Effect s (resetRegs s)
  | tornReset : Effect s (tornReset s)

theorem idleInput_effect {x : Input} {s t : State} (h : idleInput x s = .next t) : Effect s t := by
  cases x with
  | txn x =>
    rw [idleInput] at h
    split at h
    · exact .command x.wdata h
    · cases h; exact .txn x
  | start w => cases h; exact .start w
  | idle => cases h; exact .nothing
  | reset => cases h; exact .reset

/-- A transaction that waits, and a started one, leave the input in the list: then `s` itself is the state. -/
theorem busyInput_effect {x : Input} {p s t : State} (h : busyInput x p s = .next t) : Effect p t ∨ Effect s t := by
  cases x with
  | txn x =>
    rw [busyInput] at h
    split at h
    · cases h; exact .inl (.txn x)
    · exact .inr (.finish h)
  | start w => exact .inr (.finish h)
  | idle => exact .inl (.finish h)
  | reset => cases h; exact .inl .tornReset

/-- The inversion of `step`: the parameters are legal, and one input has its effect. -/
theorem step_effect {s t : State} (h : step s = .next t) :
    s.sizes.wf = true ∧ ∃ rest, Effect { s with inputs := rest } t := by
  rw [step] at h
  split at h
  case isFalse => cases h
  case isTrue hz =>
    refine ⟨hz, ?_⟩
    rw [advance] at h
    split at h
    · split at h
      · exact ⟨s.inputs, .finish h⟩
      · cases h; exact ⟨s.inputs, .nothing⟩
    · rename_i x rest _
      dsimp only at h
      split at h
      · obtain h | h := busyInput_effect h
        · exact ⟨rest, h⟩
        · exact ⟨s.inputs, h⟩
      · exact ⟨rest, idleInput_effect h⟩

/-! ### What a memory keeps -/

/-- `m'` is what an operation may make of the memory `m` of `n` cells: the canonical form (20_memory.md R41) and the
bound are kept, and a cell that held a value holds one (R46). -/
structure MemoryKept {w : Nat} (n : Nat) (m m' : Memory w) : Prop where
  wf : Memory.wf m → Memory.wf m'
  inside : Memory.inside m n → Memory.inside m' n
  written : ∀ a, (Memory.get m a).isSome = true → (Memory.get m' a).isSome = true

theorem MemoryKept.self {w : Nat} (n : Nat) (m : Memory w) : MemoryKept n m m := ⟨id, id, fun _ => id⟩

theorem MemoryKept.trans {w n : Nat} {m m' m'' : Memory w} (h : MemoryKept n m m') (h' : MemoryKept n m' m'') :
    MemoryKept n m m'' :=
  ⟨h'.wf ∘ h.wf, h'.inside ∘ h.inside, fun a => h'.written a ∘ h.written a⟩

/-- A cell that is as it was or has been written holds a value if it held one. -/
theorem MemoryKept.of_get {w n : Nat} {m m' : Memory w} (hw : Memory.wf m → Memory.wf m')
    (hi : Memory.inside m n → Memory.inside m' n)
    (hget : ∀ a, Memory.get m' a = Memory.get m a ∨ ∃ v, Memory.get m' a = some v) : MemoryKept n m m' := by
  refine ⟨hw, hi, fun a ha => ?_⟩
  obtain h | ⟨v, h⟩ := hget a <;> rw [h]
  · exact ha
  · rfl

/-- The same where one condition says which cells have been written. -/
theorem MemoryKept.of_get_ite {w n : Nat} {m m' : Memory w} {p : Nat → Prop} [DecidablePred p] {f : Nat → BitVec w}
    (hw : Memory.wf m → Memory.wf m') (hi : Memory.inside m n → Memory.inside m' n)
    (hget : ∀ a, Memory.get m' a = if p a then some (f a) else Memory.get m a) : MemoryKept n m m' := by
  refine .of_get hw hi fun a => ?_
  by_cases ha : p a
  · exact .inr ⟨f a, by rw [hget, if_pos ha]⟩
  · exact .inl (by rw [hget, if_neg ha])

theorem MemoryKept.set {w n i : Nat} (m : Memory w) (hi : i < n) (v : BitVec w) :
    MemoryKept n m (Memory.set m i v) :=
  .of_get_ite (fun h => Memory.wf_set h i v) (fun h => Memory.inside_set h hi v) fun a => Memory.get_set m i v a

theorem MemoryKept.tornCells {w : Nat} (i : Instr) (s : State) (m : MemId) (value : Nat → Option (BitVec w) → BitVec w)
    (mem : Memory w) : MemoryKept (cellCount s.sizes m) mem (tornCells i s m value mem) :=
  ⟨fun h => wf_tornCells h i s m value, fun h => inside_tornCells h i value,
    fun _ ha => isSome_tornCells ha i s m value⟩

/-! ### What a state keeps -/

/-- `t` keeps of `s` what the invariant and R46 ask: the parameters, the memories' form and their written cells, and the
ranges of the registers where `s` meets them. -/
structure SafeFrom (s t : State) : Prop where
  sizes : t.sizes = s.sizes
  keymem : MemoryKept (cellCount s.sizes .keymem) s.keymem t.keymem
  bytebuf : MemoryKept (cellCount s.sizes .bytebuf) s.bytebuf t.bytebuf
  bitbuf : MemoryKept (cellCount s.sizes .bitbuf) s.bitbuf t.bitbuf
  pixmem : MemoryKept (cellCount s.sizes .pixmem) s.pixmem t.pixmem
  registers : s.RegistersOk → t.RegistersOk

/-- An operation that leaves the memories alone is judged by the registers. -/
theorem SafeFrom.of_registers {s t : State} (hz : t.sizes = s.sizes) (hk : t.keymem = s.keymem)
    (hy : t.bytebuf = s.bytebuf) (hb : t.bitbuf = s.bitbuf) (hp : t.pixmem = s.pixmem)
    (hr : s.RegistersOk → t.RegistersOk) : SafeFrom s t :=
  ⟨hz, hk ▸ .self _ _, hy ▸ .self _ _, hb ▸ .self _ _, hp ▸ .self _ _, hr⟩

theorem SafeFrom.self (s : State) : SafeFrom s s := .of_registers rfl rfl rfl rfl rfl id

theorem SafeFrom.trans {s t u : State} (h : SafeFrom s t) (h' : SafeFrom t u) : SafeFrom s u := by
  obtain ⟨hz, hk, hy, hb, hp, hr⟩ := h'
  rw [h.sizes] at hz hk hy hb hp
  exact ⟨hz, h.keymem.trans hk, h.bytebuf.trans hy, h.bitbuf.trans hb, h.pixmem.trans hp, hr ∘ h.registers⟩

/-! ### The operations of the sequencer, the host port and the reset -/

theorem startCommand_safe (w : Word) (s : State) : SafeFrom s (startCommand w s) :=
  .of_registers rfl rfl rfl rfl rfl fun h => { h with status_reserved := reserved_statusWithBusy h.status_reserved true }

theorem endWith_safe (e : ErrCode) (s : State) : SafeFrom s (endWith e s) :=
  .of_registers rfl rfl rfl rfl rfl fun h =>
    { h with
      status_reserved := reserved_statusWithBusy h.status_reserved false
      err_code := code_le e }

theorem resetRegs_safe {s : State} (hz : s.sizes.wf = true) : SafeFrom s (resetRegs s) :=
  .of_registers rfl rfl rfl rfl rfl fun _ =>
    { status_reserved := BitVec.zero_and
      err_code := Nat.zero_le _
      cap_le := Nat.zero_le _
      kidx_lt := ((Sizes.wf_iff _).1 hz).1.1
      cursor_le := Nat.zero_le _ }

theorem tear_safe (i : Instr) (s : State) : SafeFrom s (tear i s) := by
  refine ⟨rfl, .self _ _, ?_, ?_, ?_, fun h => { h with }⟩
  · rw [tear_bytebuf]; exact .tornCells ..
  · rw [tear_bitbuf]; exact .tornCells ..
  · rw [tear_pixmem]; exact .tornCells ..

theorem tornReset_safe {s : State} (hz : s.sizes.wf = true) : SafeFrom s (tornReset s) := by
  rw [tornReset]
  split
  · exact (tear_safe _ s).trans (resetRegs_safe hz)
  · exact resetRegs_safe hz

/-- A transaction writes at most one cell of a memory, a cell it has. -/
theorem MemoryKept.of_eq_or_set {w n : Nat} {m m' : Memory w}
    (h : m' = m ∨ ∃ i v, i < n ∧ m' = Memory.set m i v) : MemoryKept n m m' := by
  obtain rfl | ⟨i, v, hi, rfl⟩ := h
  · exact .self _ _
  · exact .set m hi v

theorem takeTxn_safe (x : Txn) (s : State) : SafeFrom s (takeTxn x s) := by
  obtain ⟨k, b, l, gw, gh, km, bb, bt, px, lg, c, he, hkm, hbb, hbt, hpx⟩ := takeTxn_cases x s
  rw [he]
  exact ⟨rfl, .of_eq_or_set hkm, .of_eq_or_set hbb, .of_eq_or_set hbt, .of_eq_or_set hpx, fun h => { h with }⟩

/-! ### The stages: each raises with nothing written, or writes one memory and its registers -/

/-- From every state with legal parameters, `B` keeps what the invariant and R46 ask. -/
def SafeStage (B : State → Ending) : Prop := ∀ s, s.sizes.wf = true → SafeFrom s (B s).state

theorem SafeStage.andThen {A B : State → Ending} (ha : SafeStage A) (hb : SafeStage B) :
    SafeStage (fun s => (A s).andThen B) := by
  intro s hz
  have h := ha s hz
  show SafeFrom s ((A s).andThen B).state
  revert h
  cases A s with
  | done t => exact fun h => h.trans (hb t (h.sizes.symm ▸ hz))
  | raised e t => exact id

theorem maskBody_safe : SafeStage maskBody := by
  intro s hz
  by_cases h : s.keyLen = 0
  · rw [(maskBody_raised s).1 h]; exact .self s
  by_cases h' : s.sizes.keyMax < s.keyLen.toNat ∨ s.sizes.byteMax < s.byteLen.toNat
  · rw [(maskBody_raised s).2 h h']; exact .self s
  obtain ⟨m, x, c, he, hmasked, hrest, hx, hw, hi⟩ := maskBody_done (s := s) h (by omega) (by omega)
  have hwritten (a : Nat) : Memory.get m a = Memory.get s.bytebuf a ∨ ∃ v, Memory.get m a = some v := by
    obtain ha | ha := lt_or_ge a s.byteLen.toNat
    · obtain ⟨b, k, -, -, hv⟩ := hmasked a ha
      exact .inr ⟨_, hv⟩
    · exact .inl (hrest a ha)
  have hlt : x.toNat < s.sizes.keyMax := by
    have := Nat.mod_lt s.byteLen.toNat (Nat.pos_of_ne_zero fun e => h ((toNat_eq_zero_iff _).1 e))
    omega
  rw [he]
  exact ⟨rfl, .self _ _, .of_get hw hi hwritten, .self _ _, .self _ _,
    fun h => { h with kidx_lt := hlt }⟩

theorem tobitsBody_safe : SafeStage tobitsBody := by
  intro s hz
  by_cases h : s.sizes.byteMax < s.byteLen.toNat ∨ s.sizes.bitMax < 8 * s.byteLen.toNat
  · rw [tobitsBody_raised h]; exact .self s
  obtain ⟨m, l, c, f, he, -, -, hget, hw, hi⟩ := tobitsBody_done (s := s) hz (by omega) (by omega)
  rw [he]
  exact ⟨rfl, .self _ _, .self _ _, .of_get_ite hw hi hget, .self _ _, fun h => { h with }⟩

theorem tobytesBody_safe : SafeStage tobytesBody := by
  intro s _
  by_cases h : s.sizes.bitMax < s.bitLen.toNat ∨ s.sizes.byteMax < s.bitLen.toNat / 8
  · rw [tobytesBody_raised h]; exact .self s
  obtain ⟨m, l, c, f, he, -, -, hget, hw, hi⟩ := tobytesBody_done (s := s) (by omega) (by omega)
  rw [he]
  exact ⟨rfl, .self _ _, .of_get_ite hw hi hget, .self _ _, .self _ _, fun h => { h with }⟩

theorem apptermBody_safe : SafeStage apptermBody := by
  intro s hz
  by_cases h : s.sizes.bitMax < s.bitLen.toNat + 32
  · rw [apptermBody_raised h]; exact .self s
  obtain ⟨m, l, he, -, hget, hw, hi⟩ := apptermBody_done (s := s) hz (by omega)
  rw [he]
  exact ⟨rfl, .self _ _, .self _ _, .of_get_ite hw hi hget, .self _ _, fun h => { h with }⟩

theorem detstripBody_safe : SafeStage detstripBody := by
  intro s _
  by_cases h : s.sizes.bitMax < s.bitLen.toNat
  · rw [detstripBody_raised h]; exact .self s
  obtain ⟨f, c, -, ⟨-, l, -, he⟩ | ⟨-, he⟩⟩ := detstripBody_done (s := s) (by omega)
  all_goals
    rw [he]
    exact .of_registers rfl rfl rfl rfl rfl fun h =>
      { h with status_reserved := reserved_statusWithFound h.status_reserved _ }

theorem capchkBody_safe : SafeStage capchkBody := by
  intro s hz
  by_cases h : s.gridOk = false ∨ s.sizes.bitMax < s.bitLen.toNat
  · rw [(capchkBody_cases hz).1 h]; exact .self s
  have hg : s.gridOk = true := by simpa using (not_or.1 h).1
  obtain ⟨c, hc, hexceeded, hfits⟩ := (capchkBody_cases hz).2 hg (by omega)
  have hle : c.toNat ≤ s.sizes.bitMax := hc ▸ channels_le hz hg
  have he : (capchkBody s).state = { s with cap := c } := by
    obtain h' | h' := lt_or_ge s.channels s.bitLen.toNat
    · rw [hexceeded h', state_raised]
    · rw [hfits h', state_done]
  rw [he]
  exact .of_registers rfl rfl rfl rfl rfl fun h => { h with cap_le := hle }

theorem embedBody_safe : SafeStage embedBody := by
  intro s hz
  by_cases h : s.gridOk = false ∨ s.sizes.bitMax < s.bitLen.toNat
  · rw [embedBody_raised h]; exact .self s
  have hg : s.gridOk = true := by simpa using (not_or.1 h).1
  obtain ⟨m, x, c, he, hx, hembedded, hrest, hw, hi⟩ := embedBody_done (s := s) hz hg (by omega)
  have hwritten (a : Nat) : Memory.get m a = Memory.get s.pixmem a ∨ ∃ v, Memory.get m a = some v := by
    by_cases ha : ∃ k, k < min s.bitLen.toNat s.channels ∧ a = pixCell s.sizes.nch k
    · obtain ⟨k, hk, rfl⟩ := ha
      obtain ⟨v, b, -, -, hv⟩ := hembedded k hk
      exact .inr ⟨_, hv⟩
    · exact .inl (hrest a fun k hk e => ha ⟨k, hk, e⟩)
  have hle : x.toNat ≤ s.sizes.bitMax := by have := channels_le hz hg; omega
  rw [he]
  exact ⟨rfl, .self _ _, .self _ _, .self _ _, .of_get hw hi hwritten,
    fun h => { h with cursor_le := hle }⟩

/-- A scan that ends after `n` channels of a legal grid. -/
theorem scanned_safe {s : State} {m : Memory 1} {n : Nat} (hn : n ≤ s.sizes.bitMax)
    (hm : MemoryKept s.sizes.bitMax s.bitbuf m) (bits : Nat) (found : Bool) (c : Nat) :
    SafeFrom s (scanned s m n bits found c) :=
  ⟨rfl, .self _ _, .self _ _, hm, .self _ _, fun h =>
    { h with
      status_reserved := reserved_statusWithFound h.status_reserved found
      cursor_le := (Nat.mod_le n _).trans hn }⟩

theorem extractBody_safe : SafeStage extractBody := by
  intro s hz
  by_cases h : s.gridOk = false
  · rw [extractBody_raised h]; exact .self s
  have hg : s.gridOk = true := by simpa using h
  obtain ⟨f, m, c, k, hk, -, hget, -, hend, hw, hi⟩ := extractBody_done (s := s) hz hg
  have hn : k ≤ s.sizes.bitMax := hk.trans (channels_le hz hg)
  have hm : MemoryKept s.sizes.bitMax s.bitbuf m := .of_get_ite hw hi hget
  obtain ⟨-, -, he⟩ | ⟨-, he⟩ := hend
  all_goals
    rw [he]
    exact scanned_safe hn hm _ _ c

theorem stageBody_safe (i : Instr) : SafeStage (stageBody i) := by
  cases i
  case nop => exact fun s _ => .self s
  case mask => exact maskBody_safe
  case tobits => exact tobitsBody_safe
  case tobytes => exact tobytesBody_safe
  case appterm => exact apptermBody_safe
  case detstrip => exact detstripBody_safe
  case capchk => exact capchkBody_safe
  case embed => exact embedBody_safe
  case extract => exact extractBody_safe
  case embmsg =>
    exact (((maskBody_safe.andThen tobitsBody_safe).andThen apptermBody_safe).andThen capchkBody_safe).andThen
      embedBody_safe
  case extmsg => exact (extractBody_safe.andThen tobytesBody_safe).andThen maskBody_safe

/-! ### The step -/

theorem runCommand_safe {s t : State} (hz : s.sizes.wf = true) (h : runCommand s = .next t) : SafeFrom s t := by
  obtain ⟨e, rfl | ⟨i, rfl⟩⟩ := runCommand_cases h
  · exact endWith_safe e s
  · exact (stageBody_safe i s hz).trans (endWith_safe e _)

theorem effect_safe {s t : State} (hz : s.sizes.wf = true) (h : Effect s t) : SafeFrom s t := by
  cases h with
  | nothing => exact .self s
  | txn x => exact takeTxn_safe x s
  | start w => exact startCommand_safe w s
  | finish h => exact runCommand_safe hz h
  | command w h => exact (startCommand_safe w s).trans (runCommand_safe hz h)
  | reset => exact resetRegs_safe hz
  | tornReset => exact tornReset_safe hz

/-- Every step keeps what the invariant and R46 ask of the state before it. -/
theorem step_safe {s t : State} (h : step s = .next t) : SafeFrom s t := by
  obtain ⟨hz, rest, heffect⟩ := step_effect h
  have hpop : SafeFrom s { s with inputs := rest } := .of_registers rfl rfl rfl rfl rfl fun h => { h with }
  exact hpop.trans (effect_safe hz heffect)

theorem SafeFrom.memories {s t : State} (h : SafeFrom s t) (hs : s.MemoriesOk) : t.MemoriesOk := by
  obtain ⟨hz, hk, hy, hb, hp, -⟩ := h
  refine ⟨hk.wf hs.keymem_wf, hy.wf hs.bytebuf_wf, hb.wf hs.bitbuf_wf, hp.wf hs.pixmem_wf, ?_, ?_, ?_, ?_⟩
  all_goals rw [hz]
  · exact hk.inside hs.keymem_inside
  · exact hy.inside hs.bytebuf_inside
  · exact hb.inside hs.bitbuf_inside
  · exact hp.inside hs.pixmem_inside

/-- Settles O53: the three parts of the invariant are parts of what `step_safe` says a step keeps. -/
theorem everyStepKeepsTheInvariant : Obligations.EveryStepKeepsTheInvariant := by
  intro s t hs hstep
  have h : SafeFrom s t := step_safe hstep
  exact ⟨h.sizes.symm ▸ hs.sizes_wf, h.memories hs.memories, h.registers hs.registers⟩

theorem SafeFrom.hostCell_isSome {s t : State} (h : SafeFrom s t) (m : MemId) (a : Nat)
    (ha : (hostCell s m a).isSome = true) : (hostCell t m a).isSome = true := by
  cases m <;> simp only [hostCell, Option.isSome_map] at ha ⊢
  case keymem => exact h.keymem.written a ha
  case bytebuf => exact h.bytebuf.written a ha
  case bitbuf => exact h.bitbuf.written a ha
  case pixmem => exact h.pixmem.written a ha

/-- Settles O55, of every input: no operation takes a cell off a memory's list. -/
theorem writtenCellsStayWritten : Obligations.WrittenCellsStayWritten :=
  fun _ _ m a hstep ha => (step_safe hstep).hostCell_isSome m a ha

end Sys2Proof.Proofs
end

section
/-! SUPPORT. The laws of the host port (spec 20_memory.md R40 to R45): what a register or a memory transaction reads,
writes and leaves as it was. -/

namespace Sys2Proof.Proofs
open Sys2Proof.Machine

/-! ### Registers -/

/-- `STATUS` reads as its two fields (10_state.md R14). -/
theorem statusRead_eq (s : State) : s.statusRead = statusWithBusy s.busy (statusWithFound s.found 0#32) := by
  have hmask (i : Nat) (hi : i < 32) : (3#32).getLsbD i = decide (i < 2) := by revert i; decide
  refine BitVec.eq_of_getLsbD_eq fun i hi => ?_
  rw [statusWithBusy_getLsbD, statusWithFound_getLsbD, State.statusRead, BitVec.getLsbD_and, hmask i hi]
  match i with
  | 0 => simp [State.busy]
  | 1 => simp [State.found]
  | i + 2 => simp

theorem statusRead_of_busy {s : State} (hb : s.busy = true) :
    s.statusRead = if s.found = true then 3#32 else 1#32 := by
  rw [statusRead_eq, hb]
  cases s.found <;> rfl

theorem statusRead_of_idle {s : State} (hb : s.busy = false) :
    s.statusRead = if s.found = true then 2#32 else 0#32 := by
  rw [statusRead_eq, hb]
  cases s.found <;> rfl

/-- `ERR` reads as its bits 3:0 (R15). -/
theorem errRead_toNat (s : State) : s.errRead.toNat = s.err.toNat % 16 :=
  (BitVec.toNat_and _ _).trans (Nat.and_two_pow_sub_one_eq_mod s.err.toNat 4)

theorem readReg_above {n : Nat} (hn : 10 < n) (s : State) : readReg n s = 0 := by
  obtain ⟨k, rfl⟩ := Nat.exists_eq_add_of_le' hn
  rfl

theorem writeReg_ignored {n : Nat} (hn : n = 1 ∨ n = 2 ∨ 8 ≤ n) (v : Word) (s : State) : writeReg n v s = s := by
  obtain rfl | rfl | h := hn
  · rfl
  · rfl
  · obtain ⟨k, rfl⟩ := Nat.exists_eq_add_of_le' h
    rfl

theorem readReg_writeReg {n : Nat} (h3 : 3 ≤ n) (h7 : n ≤ 7) (v : Word) (s : State) (l : List Input) :
    readReg n { writeReg n v s with inputs := l } = v := by
  obtain rfl | rfl | rfl | rfl | rfl : n = 3 ∨ n = 4 ∨ n = 5 ∨ n = 6 ∨ n = 7 := by omega
  all_goals rfl

theorem writeReg_frame (n : Nat) (v : Word) (s : State) :
    (writeReg n v s).sizes = s.sizes ∧ (writeReg n v s).busy = s.busy ∧ (writeReg n v s).inputs = s.inputs ∧
      (writeReg n v s).readLog = s.readLog := by
  rw [writeReg.eq_def]
  split <;> exact ⟨rfl, rfl, rfl, rfl⟩

/-! ### Memory cells -/

theorem targetOf_spaceId (m : MemId) : targetOf (spaceId m) = .memory m := by cases m <;> rfl

theorem spaceId_ne_zero (m : MemId) : spaceId m ≠ 0 := by cases m <;> decide

theorem targetOf_nothing {space : BitVec 3} (h : 5 ≤ space.toNat) : targetOf space = .nothing := by
  revert space; decide

/-- A read of a written cell gives its value and has no side effect (R43). -/
theorem readMem_written {s : State} {m : MemId} {i : Nat} {r : Word} (hi : i < cellCount s.sizes m)
    (h : hostCell s m i = some r) : readMem m i s = (r, s) := by
  rw [readMem.eq_def, if_pos hi]
  cases m <;> obtain ⟨v, hv, rfl⟩ := Option.map_eq_some_iff.1 h
  case keymem => exact congrArg zextByte (readKey_written hv)
  case bytebuf => exact congrArg zextByte (readByte_written hv)
  case bitbuf => exact congrArg zextBit (readBit_written hv)
  case pixmem => exact congrArg zextByte (readPix_written hv)

theorem zeroExtend_lt {w : Nat} (hw : w ≤ 32) (v : BitVec w) : (v.zeroExtend 32).toNat < 2 ^ w := by
  rw [BitVec.zeroExtend, BitVec.toNat_setWidth_of_le hw]
  exact v.isLt

/-- Written or not, a cell reads as a value of its width, and at most the counter of the free values moves (R45). -/
theorem readMem_cases {s : State} {m : MemId} {i : Nat} (hi : i < cellCount s.sizes m) :
    ∃ (r : Word) (c : Nat), r.toNat < 2 ^ cellWidth m ∧ readMem m i s = (r, { s with freeCount := c }) := by
  rw [readMem.eq_def, if_pos hi]
  cases m
  case keymem =>
    obtain ⟨v, c, -, h⟩ := readKey_cases i s
    exact ⟨_, c, zeroExtend_lt (by decide) v, congrArg zextByte h⟩
  case bytebuf =>
    obtain ⟨v, c, -, h⟩ := readByte_cases i s
    exact ⟨_, c, zeroExtend_lt (by decide) v, congrArg zextByte h⟩
  case bitbuf =>
    obtain ⟨v, c, -, h⟩ := readBit_cases i s
    exact ⟨_, c, zeroExtend_lt (by decide) v, congrArg zextBit h⟩
  case pixmem =>
    obtain ⟨v, c, -, h⟩ := readPix_cases i s
    exact ⟨_, c, zeroExtend_lt (by decide) v, congrArg zextByte h⟩

theorem readMem_outside {s : State} {m : MemId} {i : Nat} (hi : cellCount s.sizes m ≤ i) : readMem m i s = (0, s) := by
  rw [readMem.eq_def, if_neg (by omega)]

theorem writeMem_outside {s : State} {m : MemId} {i : Nat} (hi : cellCount s.sizes m ≤ i) (v : Word) :
    writeMem m i v s = s := by
  rw [writeMem.eq_def, if_neg (by omega)]

/-- The low `w` bits of a word, as the host reads them back. -/
theorem zeroExtend_setWidth (w : Nat) (v : Word) :
    (v.setWidth w).zeroExtend 32 = BitVec.ofNat 32 (v.toNat % 2 ^ w) := by
  refine BitVec.eq_of_toNat_eq ?_
  simp

/-- A cell as the host sees it after a write of cell `i`. -/
theorem map_get_set {w : Nat} (mem : Memory w) (i a : Nat) (v : Word) :
    (Memory.get (Memory.set mem i (v.setWidth w)) a).map (fun u => u.zeroExtend 32) =
      if a = i then some (BitVec.ofNat 32 (v.toNat % 2 ^ w)) else (Memory.get mem a).map (fun u => u.zeroExtend 32) := by
  by_cases h : a = i
  · subst h
    rw [Memory.get_set_same, Option.map_some, zeroExtend_setWidth, if_pos rfl]
  · rw [Memory.get_set_ne _ _ (Ne.symm h), if_neg h]

/-- The cell written, and no other cell of any memory. -/
theorem hostCell_writeMem {s : State} {m : MemId} {i : Nat} (hi : i < cellCount s.sizes m) (v : Word) (m' : MemId)
    (a : Nat) :
    hostCell (writeMem m i v s) m' a =
      if m' = m ∧ a = i then some (BitVec.ofNat 32 (v.toNat % 2 ^ cellWidth m)) else hostCell s m' a := by
  rw [writeMem.eq_def, if_pos hi]
  by_cases hm : m' = m
  · subst hm
    simp only [true_and]
    cases m' <;> exact map_get_set _ i a v
  · rw [if_neg fun h => hm h.1]
    cases m <;> cases m'
    case keymem.keymem | bytebuf.bytebuf | bitbuf.bitbuf | pixmem.pixmem => exact absurd rfl hm
    all_goals rfl

theorem writeMem_frame (m : MemId) (i : Nat) (v : Word) (s : State) :
    writeMem m i v s = { s with
      keymem := (writeMem m i v s).keymem, bytebuf := (writeMem m i v s).bytebuf,
      bitbuf := (writeMem m i v s).bitbuf, pixmem := (writeMem m i v s).pixmem } := by
  rw [writeMem.eq_def]
  split
  · cases m <;> rfl
  · rfl

end Sys2Proof.Proofs
end

section
/-! SUPPORT. One transaction, start or `STATUS` read, step by step (spec 20_memory.md R50 to R52), and the statements of
20_memory.md. -/

namespace Sys2Proof.Proofs
open Sys2Proof.Machine

/-! ### A transaction of an idle block -/

theorem takeTxn_write {x : Txn} (hw : x.write = true) (s : State) : takeTxn x s = hostWrite x s := by
  rw [takeTxn, if_pos hw]

theorem takeTxn_read {x : Txn} (hw : x.write = false) {s t : State} {r : Word} (hr : hostRead x s = (r, t)) :
    takeTxn x s = { t with readLog := t.readLog ++ [r] } := by
  rw [takeTxn, hw, hr]
  rfl

theorem isCmdWrite_iff (x : Txn) : x.isCmdWrite = true ↔ x.write = true ∧ x.space = 0 ∧ x.index = 0 := by
  simp [Txn.isCmdWrite, and_assoc]

theorem isCmdWrite_of_read {x : Txn} (h : x.write = false) : x.isCmdWrite = false :=
  Bool.eq_false_iff.2 fun hc => Bool.eq_false_iff.1 h ((isCmdWrite_iff x).1 hc).1

theorem isCmdWrite_of_space {x : Txn} (h : x.space ≠ 0) : x.isCmdWrite = false :=
  Bool.eq_false_iff.2 fun hc => h ((isCmdWrite_iff x).1 hc).2.1

theorem isCmdWrite_of_index {x : Txn} (h : x.index.toNat ≠ 0) : x.isCmdWrite = false :=
  Bool.eq_false_iff.2 fun hc => h ((toNat_eq_zero_iff _).2 ((isCmdWrite_iff x).1 hc).2.2)

section
variable {s : State} {rest : List Input} (hz : s.sizes.wf = true) (hb : s.busy = false)
include hz hb

theorem step_txn {x : Txn} (hi : s.inputs = .txn x :: rest) (hc : x.isCmdWrite = false) :
    step s = .next (takeTxn x { s with inputs := rest }) := by
  rw [step_idle hz hb hi, idleInput, hc]
  rfl

theorem step_cmdWrite {w : Word} (hi : s.inputs = .txn (cmdWrite w) :: rest) :
    step s = runCommand (startCommand w { s with inputs := rest }) := by
  have hc : (cmdWrite w).isCmdWrite = true := rfl
  rw [step_idle hz hb hi, idleInput, if_pos hc]
  rfl

theorem step_read {x : Txn} (hi : s.inputs = .txn x :: rest) (hw : x.write = false) {t : State} {r : Word}
    (hr : hostRead x { s with inputs := rest } = (r, t)) : step s = .next { t with readLog := t.readLog ++ [r] } := by
  rw [step_txn hz hb hi (isCmdWrite_of_read hw), takeTxn_read hw hr]

theorem step_write {x : Txn} (hi : s.inputs = .txn x :: rest) (hw : x.write = true) (hc : x.isCmdWrite = false) :
    step s = .next (hostWrite x { s with inputs := rest }) := by
  rw [step_txn hz hb hi hc, takeTxn_write hw]

theorem step_readReg {n v : Word}
    (hi : s.inputs = .txn { write := false, space := 0, index := n, wdata := v } :: rest) :
    step s = .next { s with inputs := rest, readLog := s.readLog ++ [readReg n.toNat { s with inputs := rest }] } :=
  step_read hz hb hi rfl rfl

theorem step_writeReg {n v : Word} (hn : n.toNat ≠ 0)
    (hi : s.inputs = .txn { write := true, space := 0, index := n, wdata := v } :: rest) :
    step s = .next (writeReg n.toNat v { s with inputs := rest }) :=
  step_write hz hb hi rfl (isCmdWrite_of_index hn)

theorem step_readMem {m : MemId} {i v r : Word} {t : State}
    (hi : s.inputs = .txn { write := false, space := spaceId m, index := i, wdata := v } :: rest)
    (hr : readMem m i.toNat { s with inputs := rest } = (r, t)) :
    step s = .next { t with readLog := t.readLog ++ [r] } := by
  refine step_read hz hb hi rfl ?_
  rw [hostRead, targetOf_spaceId]
  exact hr

theorem step_writeMem {m : MemId} {i v : Word}
    (hi : s.inputs = .txn { write := true, space := spaceId m, index := i, wdata := v } :: rest) :
    step s = .next (writeMem m i.toNat v { s with inputs := rest }) := by
  rw [step_write hz hb hi rfl (isCmdWrite_of_space (spaceId_ne_zero m)), hostWrite, targetOf_spaceId]

end

/-! ### Targets that are not real (R44) -/

/-- The transaction names a register above 10, a space id of 5 to 7, or a cell a memory does not have. -/
def NamesNothing (z : Sizes) (x : Txn) : Prop :=
  (x.space = 0 ∧ 10 < x.index.toNat) ∨ 5 ≤ x.space.toNat ∨ (∃ m, x.space = spaceId m ∧ cellCount z m ≤ x.index.toNat)

theorem NamesNothing.isCmdWrite_eq {z : Sizes} {x : Txn} (h : NamesNothing z x) : x.isCmdWrite = false := by
  obtain ⟨-, hn⟩ | hs | ⟨m, hm, -⟩ := h
  · exact isCmdWrite_of_index (by omega)
  · exact isCmdWrite_of_space fun e => by rw [e] at hs; exact absurd hs (by decide)
  · exact isCmdWrite_of_space (hm ▸ spaceId_ne_zero m)

theorem NamesNothing.hostRead_eq {x : Txn} {s : State} (h : NamesNothing s.sizes x) : hostRead x s = (0, s) := by
  rw [hostRead]
  obtain ⟨hs, hn⟩ | hs | ⟨m, hm, hn⟩ := h
  · rw [hs]
    exact congrArg (·, s) (readReg_above hn s)
  · rw [targetOf_nothing hs]
  · rw [hm, targetOf_spaceId]
    exact readMem_outside hn

theorem NamesNothing.hostWrite_eq {x : Txn} {s : State} (h : NamesNothing s.sizes x) : hostWrite x s = s := by
  rw [hostWrite]
  obtain ⟨hs, hn⟩ | hs | ⟨m, hm, hn⟩ := h
  · rw [hs]
    exact writeReg_ignored (.inr (.inr (by omega))) _ s
  · rw [targetOf_nothing hs]
  · rw [hm, targetOf_spaceId]
    exact writeMem_outside hn _

/-! ### A running command -/

theorem isStatusRead_iff (x : Txn) : x.isStatusRead = true ↔ x.write = false ∧ x.space = 0 ∧ x.index = 1 := by
  simp [Txn.isStatusRead, and_assoc]

theorem hReady_of_busy {s : State} (hb : s.busy = true) (x : Txn) : hReady s x = x.isStatusRead := by
  rw [hReady, hb]
  rfl

theorem runCommand_of_decode {s : State} {i : Instr} (h : decode s.cmd = .ok i) : runCommand s = exec i s := by
  rw [runCommand, h]

/-- A running command ends with the block idle and takes nothing from the inputs. -/
theorem runCommand_ends {s : State} (hz : s.sizes.wf = true) :
    ∃ t, runCommand s = .next t ∧ t.busy = false ∧ t.inputs = s.inputs := by
  obtain ⟨e, t, h⟩ := runCommand_next s
  refine ⟨_, h, busy_setBusy _ false, ?_⟩
  obtain ⟨e', he | ⟨i, he⟩⟩ := runCommand_cases h <;> rw [he]
  · rfl
  · exact (stageBody_kept i s hz).inputs

/-! ### The statements -/

/-- Settles O5: both ways the command runs once, from the state its start makes. -/
theorem startedCommandEndsAsOneTransition : Obligations.StartedCommandEndsAsOneTransition := by
  rintro s t w rest hz hb rfl
  obtain ⟨v, hrun, hidle, -⟩ := runCommand_ends (s := startCommand w { s with inputs := rest }) hz
  have hstart := step_idle (s := { s with inputs := .start w :: .idle :: rest }) hz hb rfl
  have hfinish := step_busy (s := startCommand w { s with inputs := .idle :: rest }) hz (busy_setBusy _ true) rfl
  have hone := step_cmdWrite (s := { s with inputs := .txn (cmdWrite w) :: rest }) hz hb rfl
  exact ⟨_, v, hstart, busy_setBusy _ true, hfinish.trans hrun, hidle, hone.trans hrun⟩

/-- Settles O6: `h_ready` is the test for a `STATUS` read, and what is not taken lets the command run to its end. -/
theorem busyBlockTakesOnlyStatusReads : Obligations.BusyBlockTakesOnlyStatusReads := by
  intro s x rest hz hb hi
  rw [← isStatusRead_iff, hReady_of_busy hb]
  refine ⟨fun hx => ⟨hx, ?_⟩, fun hx => ⟨Bool.eq_false_iff.2 hx, ?_⟩⟩
  · obtain ⟨hw, hs, hn⟩ := (isStatusRead_iff x).1 hx
    have hread : hostRead x { s with inputs := rest } = (s.statusRead, { s with inputs := rest }) := by
      rw [hostRead, hs, hn]
      rfl
    rw [step_busy hz hb hi, busyInput, if_pos ((hReady_of_busy hb x).trans hx), takeTxn_read hw hread,
      statusRead_of_busy hb]
  · obtain ⟨t, hrun, hidle, hinputs⟩ := runCommand_ends hz
    refine ⟨t, ?_, hinputs, hidle, fun i hd => (runCommand_of_decode hd).symm.trans hrun⟩
    rw [step_busy hz hb hi, busyInput, if_neg (by rwa [hReady_of_busy hb])]
    exact hrun

/-- Settles O7: each clause is the value `readReg` has for that number. -/
theorem registerReadReturnsTheRegister : Obligations.RegisterReadReturnsTheRegister := by
  intro s n v rest hz hb hi
  refine ⟨_, step_readReg hz hb hi, ?_⟩
  generalize n.toNat = k
  refine ⟨?_, ?_, ?_, ?_, ?_, ?_, ?_, ?_, ?_, ?_, ?_, fun hk => readReg_above hk _⟩
  all_goals rintro rfl
  case refine_2 => exact statusRead_of_idle hb
  case refine_3 => exact errRead_toNat s
  all_goals rfl

/-- Settles O8: each clause is what `writeReg` does for that number. -/
theorem registerWriteIsStoredOrIgnored : Obligations.RegisterWriteIsStoredOrIgnored := by
  intro s n v rest hz hb hi
  have hstep (h : n.toNat ≠ 0) := step_writeReg hz hb h hi
  refine ⟨?_, ?_, ?_, ?_, ?_, fun hn => ?_⟩
  case refine_6 => rw [hstep (by omega), writeReg_ignored hn]
  all_goals
    intro hn
    rw [hstep (by omega), hn]
    rfl

/-- Settles O9: a read of a written cell changes nothing, a write moves `hostCell` in one place. -/
theorem memoryTransactionsMoveOneCell : Obligations.MemoryTransactionsMoveOneCell := by
  intro s m i v rest hz hb hlt
  refine ⟨fun hi r hr => step_readMem hz hb hi (readMem_written hlt hr), fun hi => ?_⟩
  have hcell := hostCell_writeMem (s := { s with inputs := rest }) hlt v
  refine ⟨_, step_writeMem hz hb hi, ?_, fun m' a hne => ?_, writeMem_frame m i.toNat v _⟩
  · rw [hcell, if_pos ⟨rfl, rfl⟩]
  · rw [hcell, if_neg hne]
    rfl

/-- Settles O10: such a transaction is no `CMD` write, writes nothing and reads 0. -/
theorem unrealTargetsAreHarmless : Obligations.UnrealTargetsAreHarmless := by
  intro s x rest hz hb hi hx
  have hnothing : NamesNothing ({ s with inputs := rest } : State).sizes x := hx
  refine ⟨fun hw => ?_, fun hw => step_read hz hb hi hw hnothing.hostRead_eq⟩
  rw [step_write hz hb hi hw hnothing.isCmdWrite_eq, hnothing.hostWrite_eq]

/-- Settles O11: the bound and the frame of a read hold for a written cell too; no memory moves, so the cell stays
unwritten. -/
theorem unwrittenCellReadsAnyValue : Obligations.UnwrittenCellReadsAnyValue := by
  intro s m i v rest hz hb hlt _ hi
  obtain ⟨r, c, hr, hread⟩ := readMem_cases (s := { s with inputs := rest }) hlt
  exact ⟨r, c, hr, step_readMem hz hb hi hread⟩

/-- Settles O12: the write of O9 or O8, and the read of O9 or O7 in the state it leaves. -/
theorem writeThenReadReturnsTheValue : Obligations.WriteThenReadReturnsTheValue := by
  intro s i v u rest hz hb
  refine ⟨fun m hlt hi => ?_, fun h3 h7 hi => ?_⟩
  · obtain ⟨t, hstep, hcell, -, hframe⟩ := (memoryTransactionsMoveOneCell s m i v _ hz hb hlt).2 hi
    have hsizes : t.sizes = s.sizes := by rw [hframe]
    have hbusy : t.busy = s.busy := by rw [hframe]; rfl
    have hread := (memoryTransactionsMoveOneCell t m i u rest (hsizes ▸ hz) (hbusy.trans hb) (hsizes ▸ hlt)).1
      (by rw [hframe]) _ hcell
    exact ⟨t, _, hstep, hread, by rw [hframe]⟩
  · have hstep := step_writeReg hz hb (by omega) hi
    obtain ⟨hsizes, hbusy, hinputs, hlog⟩ :=
      writeReg_frame i.toNat v { s with inputs := .txn { write := false, space := 0, index := i, wdata := u } :: rest }
    have hread := step_readReg ((congrArg Sizes.wf hsizes).trans hz) (hbusy.trans hb) hinputs
    rw [readReg_writeReg h3 h7, hlog] at hread
    exact ⟨_, _, hstep, hread, rfl⟩

/-- Settles O56: the first read leaves the cell as it was, and O9 holds of the second. -/
theorem twoReadsOfAWrittenCellAgree : Obligations.TwoReadsOfAWrittenCellAgree := by
  intro s m i v u r rest hz hb hlt hr hi
  have hfirst := (memoryTransactionsMoveOneCell s m i v _ hz hb hlt).1 hi r hr
  have hsecond := (memoryTransactionsMoveOneCell
    { s with
      inputs := .txn { write := false, space := spaceId m, index := i, wdata := u } :: rest
      readLog := s.readLog ++ [r] } m i u rest hz hb hlt).1 rfl r hr
  exact ⟨_, _, hfirst, hsecond, List.append_assoc _ _ _⟩

end Sys2Proof.Proofs
end

section
/-! SUPPORT. The decoder and the encoder (spec 30_encoding.md R61 to R63), what an idle block does with a word written to
`CMD` (R60), and the statements of that file but the frame of the memories. -/

namespace Sys2Proof.Proofs
open Sys2Proof.Machine

/-! ### The fields of a word (R61) -/

theorem zeroField_toNat (w : Word) : (zeroField w).toNat = w.toNat / 2 ^ 8 := by
  have hlt := w.isLt
  rw [zeroField, BitVec.extractLsb'_toNat, Nat.shiftRight_eq_div_pow]
  exact Nat.mod_eq_of_lt (by omega)

theorem opcodeField_toNat (w : Word) : (opcodeField w).toNat = w.toNat % 2 ^ 8 := by
  rw [opcodeField, BitVec.extractLsb'_toNat, Nat.shiftRight_zero]

theorem zeroField_eq_zero_iff (w : Word) : zeroField w = 0 ↔ w.toNat / 2 ^ 8 = 0 := by
  rw [← zeroField_toNat, BitVec.toNat_eq]
  rfl

theorem word_eq_of_fields {v w : Word} (hzero : zeroField v = zeroField w) (hop : opcodeField v = opcodeField w) :
    v = w := by
  have hdiv : v.toNat / 2 ^ 8 = w.toNat / 2 ^ 8 := by rw [← zeroField_toNat, ← zeroField_toNat, hzero]
  have hmod : v.toNat % 2 ^ 8 = w.toNat % 2 ^ 8 := by rw [← opcodeField_toNat, ← opcodeField_toNat, hop]
  exact BitVec.eq_of_toNat_eq (by omega)

theorem zeroField_encode (i : Instr) : zeroField (encode i) = 0 := by cases i <;> rfl

theorem opcodeField_encode (i : Instr) : opcodeField (encode i) = opcodeOf i := by cases i <;> rfl

theorem eq_encode_iff (w : Word) (i : Instr) : w = encode i ↔ zeroField w = 0 ∧ opcodeField w = opcodeOf i := by
  constructor
  · rintro rfl
    exact ⟨zeroField_encode i, opcodeField_encode i⟩
  · rintro ⟨hzero, hop⟩
    exact word_eq_of_fields (hzero.trans (zeroField_encode i).symm) (hop.trans (opcodeField_encode i).symm)

/-! ### The opcode map (R62, R63) -/

theorem decodeOpcode_eq_some_iff (op : BitVec 8) (i : Instr) : decodeOpcode op = some i ↔ op = opcodeOf i := by
  constructor
  · intro h
    rw [decodeOpcode] at h
    split at h
    case h_12 => cases h
    all_goals
      rename_i hop
      cases h
      exact BitVec.eq_of_toNat_eq hop
  · rintro rfl
    cases i <;> rfl

theorem decodeOpcode_eq_none_iff (op : BitVec 8) : decodeOpcode op = none ↔ 0x0B ≤ op.toNat := by
  rw [decodeOpcode]
  generalize op.toNat = n
  constructor
  · intro h
    by_contra hlt
    interval_cases n <;> cases h
  · intro h
    obtain ⟨k, rfl⟩ := Nat.exists_eq_add_of_le' h
    rfl

/-! ### The decoder -/

theorem decode_eq_ok_iff (w : Word) (i : Instr) :
    decode w = .ok i ↔ zeroField w = 0 ∧ decodeOpcode (opcodeField w) = some i := by
  rw [decode]
  by_cases hzero : zeroField w = 0
  · rw [if_pos hzero]
    cases decodeOpcode (opcodeField w) <;> simp [hzero]
  · rw [if_neg hzero]
    exact ⟨nofun, fun h => absurd h.1 hzero⟩

theorem decode_eq_error_iff (w : Word) :
    (∃ e, decode w = .error e) ↔ zeroField w ≠ 0 ∨ decodeOpcode (opcodeField w) = none := by
  rw [decode]
  by_cases hzero : zeroField w = 0
  · rw [if_pos hzero]
    cases decodeOpcode (opcodeField w) <;> simp [hzero]
  · rw [if_neg hzero]
    exact ⟨fun _ => .inl hzero, fun _ => ⟨_, rfl⟩⟩

/-- Settles O2: a word is its two fields, and the opcode map is the inverse of `opcodeOf`, defined below `0x0B` only. -/
theorem decodeAcceptsExactlyTheEncodings : Obligations.DecodeAcceptsExactlyTheEncodings := by
  refine fun w => ⟨fun i => ?_, ?_⟩
  · rw [decode_eq_ok_iff, decodeOpcode_eq_some_iff, eq_encode_iff]
  · rw [decode_eq_error_iff, decodeOpcode_eq_none_iff, opcodeField_toNat, Ne, zeroField_eq_zero_iff]

theorem decode_encode (i : Instr) : decode (encode i) = .ok i := ((decodeAcceptsExactlyTheEncodings _).1 i).2 rfl

/-- Settles O1: the words are the commands' encodings. -/
theorem opcodeTableDecodes : Obligations.OpcodeTableDecodes :=
  ⟨decode_encode .nop, decode_encode .mask, decode_encode .tobits, decode_encode .tobytes, decode_encode .appterm,
    decode_encode .detstrip, decode_encode .capchk, decode_encode .embed, decode_encode .extract, decode_encode .embmsg,
    decode_encode .extmsg⟩

/-! ### A word written to `CMD` (R60, R63) -/

/-- Settles O3: the state of the run is the one `startCommand` makes. -/
theorem stepRunsTheDecodedCommand : Obligations.StepRunsTheDecodedCommand := by
  intro s w rest i hz hb hi hd
  have hcmd : decode (startCommand w { s with inputs := rest }).cmd = .ok i := hd
  rw [step_cmdWrite hz hb hi, runCommand_of_decode hcmd]
  rfl

theorem runCommand_of_illegal {s : State} (h : ∃ e, decode s.cmd = .error e) :
    runCommand s = .next (illegalCommand s) := by
  obtain ⟨e, he⟩ := h
  rw [runCommand, he]

/-- Of a command that was started from an idle block and is illegal, `CMD` and `ERR` remain: `BUSY` is back at 0. -/
theorem illegalCommand_startCommand {s : State} (hb : s.busy = false) (w : Word) :
    illegalCommand (startCommand w s) = { s with cmd := w, err := 4 } := by
  have hstatus : statusWithBusy false (statusWithBusy true s.status) = s.status := by
    rw [statusWithBusy_twice, statusWithBusy_of_idle hb]
  simp only [illegalCommand, raise, complete_raised, endWith_eq_touch, startCommand_eq_touch, touch, hstatus]
  rfl

/-- Settles O4: by O2 the word does not decode. -/
theorem illegalWordRaisesIllegalCommand : Obligations.IllegalWordRaisesIllegalCommand := by
  intro s w rest hz hb hi hw
  have hillegal : ∃ e, decode (startCommand w { s with inputs := rest }).cmd = .error e :=
    (decodeAcceptsExactlyTheEncodings w).2.2 hw
  have hidle : ({ s with inputs := rest } : State).busy = false := hb
  rw [step_cmdWrite hz hb hi, runCommand_of_illegal hillegal, illegalCommand_startCommand hidle]

end Sys2Proof.Proofs
end

section
/-! SUPPORT. The frame of the memories (spec 30_encoding.md R64, 10_state.md R27, R28): stage by stage, and then by
induction over the stages of a command. -/

namespace Sys2Proof.Proofs
open Sys2Proof.Machine

/-- A cell as the host sees it is the cell of one memory: only that memory counts. -/
theorem hostCell_congr {s t : State} {m : MemId} {a : Nat}
    (hk : m = .keymem → Memory.get t.keymem a = Memory.get s.keymem a)
    (hy : m = .bytebuf → Memory.get t.bytebuf a = Memory.get s.bytebuf a)
    (hb : m = .bitbuf → Memory.get t.bitbuf a = Memory.get s.bitbuf a)
    (hp : m = .pixmem → Memory.get t.pixmem a = Memory.get s.pixmem a) : hostCell t m a = hostCell s m a := by
  cases m with
  | keymem => exact congrArg (Option.map _) (hk rfl)
  | bytebuf => exact congrArg (Option.map _) (hy rfl)
  | bitbuf => exact congrArg (Option.map _) (hb rfl)
  | pixmem => exact congrArg (Option.map _) (hp rfl)

/-- Recording a command's outcome touches no memory. -/
theorem hostCell_endWith (e : ErrCode) (s : State) (m : MemId) (a : Nat) :
    hostCell (endWith e s) m a = hostCell s m a :=
  hostCell_congr (fun _ => rfl) (fun _ => rfl) (fun _ => rfl) (fun _ => rfl)

/-! ### A command as the list of its stages (45_orchestration.md R120, R121) -/

/-- The stages run one after another, up to the first that raises. -/
def runStages : List Instr → State → Ending
  | [], s => .done s
  | i :: rest, s => (stageBody i s).andThen (runStages rest)

theorem andThen_runStages_nil (a : Ending) : a.andThen (runStages []) = a := by cases a <;> rfl

theorem runStages_cons (i : Instr) (rest : List Instr) :
    runStages (i :: rest) = fun s => (stageBody i s).andThen (runStages rest) := rfl

/-- The pseudocode of every command, the pipelines too, is the run of its stages. -/
theorem stageBody_eq_runStages (i : Instr) (s : State) : stageBody i s = runStages (stagesOf i) s := by
  cases i
  case embmsg =>
    simp only [stagesOf, runStages_cons, andThen_runStages_nil, stageBody, embmsgBody, andThen_assoc]
  case extmsg =>
    simp only [stagesOf, runStages_cons, andThen_runStages_nil, stageBody, extmsgBody, andThen_assoc]
  all_goals exact (andThen_runStages_nil _).symm

/-- A stage of a command is no pipeline. -/
theorem stagesOf_stage (j : Instr) : ∀ i ∈ stagesOf j, stagesOf i = [i] := by cases j <;> decide

theorem writesOver_cons_done {i : Instr} {s t : State} (h : stageBody i s = .done t) (rest : List Instr) (m : MemId)
    (a : Nat) : writesOver (i :: rest) s m a = (stageWrites i s t m a || writesOver rest t m a) := by
  rw [writesOver, h]

theorem writesOver_singleton_done {i : Instr} {s t : State} (h : stageBody i s = .done t) (m : MemId) (a : Nat) :
    writesOver [i] s m a = stageWrites i s t m a := by
  rw [writesOver_cons_done h, writesOver, Bool.or_false]

/-! ### The stages: each raises with no cell written, or writes one memory -/

/-- From every state with legal parameters, the stage writes no cell but those `stageWrites` names if it runs to its end,
and none if it raises. -/
def WritesItsCells (i : Instr) : Prop :=
  ∀ s m a, s.sizes.wf = true → writesOver [i] s m a = false → hostCell (stageBody i s).state m a = hostCell s m a

theorem mask_writesItsCells : WritesItsCells .mask := by
  intro s m a _ hw
  rw [stageBody]
  by_cases h : s.keyLen = 0
  · rw [(maskBody_raised s).1 h, state_raised]
  by_cases h' : s.sizes.keyMax < s.keyLen.toNat ∨ s.sizes.byteMax < s.byteLen.toNat
  · rw [(maskBody_raised s).2 h h', state_raised]
  obtain ⟨mem, x, c, he, -, hrest, -⟩ := maskBody_done (s := s) h (by omega) (by omega)
  rw [writesOver_singleton_done (i := .mask) he] at hw
  rw [he]
  refine hostCell_congr (fun _ => rfl) (fun hm => hrest a ?_) (fun _ => rfl) (fun _ => rfl)
  simpa [stageWrites, hm] using hw

theorem tobits_writesItsCells : WritesItsCells .tobits := by
  intro s m a hz hw
  rw [stageBody]
  by_cases h : s.sizes.byteMax < s.byteLen.toNat ∨ s.sizes.bitMax < 8 * s.byteLen.toNat
  · rw [tobitsBody_raised h, state_raised]
  obtain ⟨mem, l, c, f, he, -, -, hget, -⟩ := tobitsBody_done (s := s) hz (by omega) (by omega)
  rw [writesOver_singleton_done (i := .tobits) he] at hw
  rw [he]
  refine hostCell_congr (fun _ => rfl) (fun _ => rfl) (fun hm => (hget a).trans (if_neg ?_)) (fun _ => rfl)
  simpa [stageWrites, hm] using hw

theorem tobytes_writesItsCells : WritesItsCells .tobytes := by
  intro s m a _ hw
  rw [stageBody]
  by_cases h : s.sizes.bitMax < s.bitLen.toNat ∨ s.sizes.byteMax < s.bitLen.toNat / 8
  · rw [tobytesBody_raised h, state_raised]
  obtain ⟨mem, l, c, f, he, -, -, hget, -⟩ := tobytesBody_done (s := s) (by omega) (by omega)
  rw [writesOver_singleton_done (i := .tobytes) he] at hw
  rw [he]
  refine hostCell_congr (fun _ => rfl) (fun hm => (hget a).trans (if_neg ?_)) (fun _ => rfl) (fun _ => rfl)
  simpa [stageWrites, hm] using hw

theorem appterm_writesItsCells : WritesItsCells .appterm := by
  intro s m a hz hw
  rw [stageBody]
  by_cases h : s.sizes.bitMax < s.bitLen.toNat + 32
  · rw [apptermBody_raised h, state_raised]
  obtain ⟨mem, l, he, -, hget, -⟩ := apptermBody_done (s := s) hz (by omega)
  rw [writesOver_singleton_done (i := .appterm) he] at hw
  rw [he]
  refine hostCell_congr (fun _ => rfl) (fun _ => rfl) (fun hm => (hget a).trans (if_neg ?_)) (fun _ => rfl)
  simpa [stageWrites, hm] using hw

theorem detstrip_writesItsCells : WritesItsCells .detstrip := by
  intro s m a _ _
  rw [stageBody]
  by_cases h : s.sizes.bitMax < s.bitLen.toNat
  · rw [detstripBody_raised h, state_raised]
  obtain ⟨f, c, -, ⟨-, l, -, he⟩ | ⟨-, he⟩⟩ := detstripBody_done (s := s) (by omega)
  all_goals
    rw [he]
    exact hostCell_congr (fun _ => rfl) (fun _ => rfl) (fun _ => rfl) (fun _ => rfl)

theorem capchk_writesItsCells : WritesItsCells .capchk := by
  intro s m a hz _
  rw [stageBody]
  by_cases h : s.gridOk = false ∨ s.sizes.bitMax < s.bitLen.toNat
  · rw [(capchkBody_cases hz).1 h, state_raised]
  obtain ⟨c, -, hexceeded, hfits⟩ := (capchkBody_cases hz).2 (by simpa using (not_or.1 h).1) (by omega)
  have he : (capchkBody s).state = { s with cap := c } := by
    obtain h' | h' := lt_or_ge s.channels s.bitLen.toNat
    · rw [hexceeded h', state_raised]
    · rw [hfits h', state_done]
  rw [he]
  exact hostCell_congr (fun _ => rfl) (fun _ => rfl) (fun _ => rfl) (fun _ => rfl)

/-- A cell of the grid that `stageWrites` does not name is the cell of no channel below the cursor `EMBED` leaves. -/
theorem embed_writesItsCells : WritesItsCells .embed := by
  intro s m a hz hw
  rw [stageBody]
  by_cases h : s.gridOk = false ∨ s.sizes.bitMax < s.bitLen.toNat
  · rw [embedBody_raised h, state_raised]
  obtain ⟨mem, x, c, he, hx, -, hrest, -⟩ := embedBody_done (s := s) hz (by simpa using (not_or.1 h).1) (by omega)
  rw [writesOver_singleton_done (i := .embed) he] at hw
  rw [he]
  refine hostCell_congr (fun _ => rfl) (fun _ => rfl) (fun _ => rfl) (fun hm => hrest a fun k hk hcell => ?_)
  have hchannel : channelOf s.sizes.nch a = some k := (channelOf_iff ((Sizes.wf_iff _).1 hz).2.2.2.1 a k).2 hcell
  have hge : x.toNat ≤ k := by simpa [stageWrites, hm, hchannel] using hw
  omega

theorem extract_writesItsCells : WritesItsCells .extract := by
  intro s m a hz hw
  rw [stageBody]
  by_cases h : s.gridOk = false
  · rw [extractBody_raised h, state_raised]
  have hg : s.gridOk = true := by simpa using h
  obtain ⟨f, mem, c, k, hk, -, hget, -, hend, -⟩ := extractBody_done (s := s) hz hg
  have hcursor : (regOf k).toNat = k := regOf_toNat (hk.trans_lt (channels_lt hz hg))
  obtain ⟨-, -, he⟩ | ⟨-, he⟩ := hend
  all_goals
    rw [writesOver_singleton_done (i := .extract) he] at hw
    rw [he]
    refine hostCell_congr (fun _ => rfl) (fun _ => rfl) (fun hm => (hget a).trans (if_neg ?_)) (fun _ => rfl)
    simpa [stageWrites, scanned, hm, hcursor] using hw

theorem stage_writesItsCells {i : Instr} (h : stagesOf i = [i]) : WritesItsCells i := by
  cases i
  case nop => exact fun _ _ _ _ _ => rfl
  case mask => exact mask_writesItsCells
  case tobits => exact tobits_writesItsCells
  case tobytes => exact tobytes_writesItsCells
  case appterm => exact appterm_writesItsCells
  case detstrip => exact detstrip_writesItsCells
  case capchk => exact capchk_writesItsCells
  case embed => exact embed_writesItsCells
  case extract => exact extract_writesItsCells
  case embmsg => simp [stagesOf] at h
  case extmsg => simp [stagesOf] at h

/-! ### The commands -/

/-- Stages run one after another write no cell but those that `writesOver` names. -/
theorem runStages_writesOver {l : List Instr} (hl : ∀ i ∈ l, WritesItsCells i) {s : State} {m : MemId} {a : Nat}
    (hz : s.sizes.wf = true) (hw : writesOver l s m a = false) :
    hostCell (runStages l s).state m a = hostCell s m a := by
  induction l generalizing s with
  | nil => rfl
  | cons i rest ih =>
    obtain ⟨hi, hrest⟩ := List.forall_mem_cons.1 hl
    have hkept : Kept s (stageBody i s).state := stageBody_kept i s hz
    have hstage := hi s m a hz
    show hostCell ((stageBody i s).andThen (runStages rest)).state m a = hostCell s m a
    cases he : stageBody i s with
    | done t =>
      rw [writesOver_cons_done he, Bool.or_eq_false_iff] at hw
      rw [writesOver_singleton_done he, he] at hstage
      rw [he] at hkept
      obtain ⟨hfirst, hlater⟩ := hw
      exact (ih hrest (hkept.sizes.symm ▸ hz) hlater).trans (hstage hfirst)
    | raised e t =>
      have hnone : writesOver [i] s m a = false := by rw [writesOver, he]
      rw [he] at hstage
      exact hstage hnone

/-- Settles O50: `writesCell` is `writesOver` of the command's stages, and recording the outcome writes no cell. -/
theorem commandsWriteOnlyTheirCells : Obligations.CommandsWriteOnlyTheirCells := by
  intro i s t m a hz hexec hw
  obtain ⟨e, rfl⟩ := exec_next hexec
  rw [hostCell_endWith, stageBody_eq_runStages]
  exact runStages_writesOver (fun j hj => stage_writesItsCells (stagesOf_stage i j hj)) hz hw

end Sys2Proof.Proofs
end

section
/-! SUPPORT. `MASK` as a command (spec 40_xor_stream_cipher.md R70, R71, R74): how it ends, and the bytes it
leaves where the cells it reads are written. -/

namespace Sys2Proof.Proofs
open Sys2Proof.Machine

/-- A command whose pseudocode reaches its end records no error (30_encoding.md R60). -/
theorem exec_of_done {i : Instr} {s t : State} (h : stageBody i s = .done t) : exec i s = .next (t.ended .none) := by
  rw [exec_eq, h, complete_done, endWith_eq]

/-- A command whose pseudocode raises records the error (30_encoding.md R60). -/
theorem exec_of_raised {i : Instr} {s t : State} {e : ErrCode} (h : stageBody i s = .raised e t) :
    exec i s = .next (t.ended e) := by
  rw [exec_eq, h, complete_raised, endWith_eq]

/-- Settles O19: the two failing endings are those of the pseudocode, and the third is `maskBody_done`, the induction
over the bytes. -/
theorem maskXorsWithTheCyclicKey : Obligations.MaskXorsWithTheCyclicKey := by
  refine ⟨decode_encode .mask, fun s _ => ⟨?invalidKey, ?bufferRange, ?completes⟩⟩
  case invalidKey => exact fun h => exec_of_raised ((maskBody_raised s).1 h)
  case bufferRange => exact fun h h' => exec_of_raised ((maskBody_raised s).2 h h')
  case completes =>
    intro hl hk hb
    obtain ⟨m, x, c, he, hmasked, hrest, hx, -⟩ := maskBody_done hl hk hb
    exact ⟨_, exec_of_done he, hmasked, hrest, hx, rfl⟩

/-! ### The masked bytes where the cells are written -/

/-- `t` holds the memory `bytes` masked with the key and the lengths of `s`, with no error: the key index, and each
written byte XORed with its written key byte. -/
structure MaskedWith (s : State) (bytes : Memory 8) (t : State) : Prop where
  err : t.err = 0
  kidx : t.xcKidx.toNat = s.byteLen.toNat % s.keyLen.toNat
  byte : ∀ {i b k}, i < s.byteLen.toNat → Memory.get bytes i = some b →
    Memory.get s.keymem (i % s.keyLen.toNat) = some k → Memory.get t.bytebuf i = some (b ^^^ k)

/-- The index of the key byte is one the key has (R71). -/
theorem mod_keyLen_lt {l : Word} (hl : l ≠ 0) (i : Nat) : i % l.toNat < l.toNat :=
  Nat.mod_lt _ (Nat.pos_of_ne_zero (mt (toNat_eq_zero_iff l).1 hl))

/-- `MASK` in a state with the key and the lengths of `s`: a read of a written cell can give nothing but its value, so
the key of `s` and the bytes there determine the bytes left. -/
theorem exec_mask_maskedWith {s s' : State} (hl : s.keyLen ≠ 0) (hk : s.keyLen.toNat ≤ s.sizes.keyMax)
    (hb : s.byteLen.toNat ≤ s.sizes.byteMax) (hz : s'.sizes = s.sizes) (hkl : s'.keyLen = s.keyLen)
    (hbl : s'.byteLen = s.byteLen)
    (hkeymem : ∀ j, j < s.keyLen.toNat → Memory.get s'.keymem j = Memory.get s.keymem j) :
    ∃ t, exec .mask s' = .next t ∧ MaskedWith s s'.bytebuf t := by
  obtain ⟨m, x, c, he, hmasked, -, hx, -⟩ :=
    maskBody_done (s := s') (by rwa [hkl]) (by rwa [hkl, hz]) (by rwa [hbl, hz])
  rw [hkl, hbl] at hmasked hx
  refine ⟨_, exec_of_done he, rfl, hx, fun {i b k} hi hbyte hkey => ?_⟩
  obtain ⟨b', k', hb', hk', hget⟩ := hmasked i hi
  rw [← hb'.eq hbyte, ← hk'.eq ((hkeymem _ (mod_keyLen_lt hl i)).trans hkey)]
  exact hget

/-- Settles O32: both commands XOR byte `i` with one key byte `k`, and `(b ^^^ k) ^^^ k = b`. -/
theorem maskTwiceRestoresTheBytes : Obligations.MaskTwiceRestoresTheBytes := by
  intro s t t' _ hl hk hb hkeys hbytes hexec hz hkl hbl hkeymem hbytebuf
  obtain ⟨t₁, ht₁, hfirst⟩ := exec_mask_maskedWith (s' := s) hl hk hb rfl rfl rfl fun _ _ => rfl
  obtain rfl : t₁ = t := Host.Outcome.next.inj (ht₁.symm.trans hexec)
  obtain ⟨u, hu, hsecond⟩ := exec_mask_maskedWith hl hk hb hz hkl hbl hkeymem
  refine ⟨u, hu, hsecond.err, fun i hi => ?_⟩
  obtain ⟨b, hbyte⟩ := hbytes i hi
  obtain ⟨k, hkey⟩ := hkeys _ (mod_keyLen_lt hl i)
  have hmasked : Memory.get t'.bytebuf i = some (b ^^^ k) := (hbytebuf i hi).trans (hfirst.byte hi hbyte hkey)
  rw [hsecond.byte hi hmasked hkey, hbyte, BitVec.xor_assoc, BitVec.xor_self, BitVec.xor_zero]

/-- Settles O33: what `exec_mask_maskedWith` says of either end is about the operands alone. -/
theorem maskDependsOnlyOnItsOperands : Obligations.MaskDependsOnlyOnItsOperands := by
  intro s s' _ hz hkl hbl hl hk hb hkeys hbytes hkeymem hbytebuf
  obtain ⟨t, ht, hm⟩ := exec_mask_maskedWith (s' := s) hl hk hb rfl rfl rfl fun _ _ => rfl
  obtain ⟨t', ht', hm'⟩ := exec_mask_maskedWith hl hk hb hz hkl hbl hkeymem
  have hkidx : t'.xcKidx = t.xcKidx := BitVec.eq_of_toNat_eq (hm'.kidx.trans hm.kidx.symm)
  refine ⟨t, t', ht, ht', hkidx, hm'.err.trans hm.err.symm, fun i hi => ?_⟩
  obtain ⟨b, hbyte⟩ := hbytes i hi
  obtain ⟨k, hkey⟩ := hkeys _ (mod_keyLen_lt hl i)
  rw [hm.byte hi hbyte hkey, hm'.byte hi ((hbytebuf i hi).trans hbyte) hkey]

end Sys2Proof.Proofs
end

section
/-! SUPPORT. `TOBITS` and `TOBYTES` as commands (spec 41_bitstream_packer.md R80 to R84): how each ends, and that packing
and expanding undo each other. -/

namespace Sys2Proof.Proofs
open Sys2Proof.Machine

/-! ### Bytes as bits and back -/

/-- The counterpart of `payloadBit`: byte `i` of the packed bit sequence, made of chunk `i` (R81). -/
def packedByte (bits : Nat → Bit) (i : Nat) : Byte := packBits ((List.range 8).map fun j => bits (8 * i + j))

theorem packedByte_toNat (bits : Nat → Bit) (i : Nat) :
    (packedByte bits i).toNat =
      128 * (bits (8 * i)).toNat + 64 * (bits (8 * i + 1)).toNat + 32 * (bits (8 * i + 2)).toNat +
        16 * (bits (8 * i + 3)).toNat + 8 * (bits (8 * i + 4)).toNat + 4 * (bits (8 * i + 5)).toNat +
        2 * (bits (8 * i + 6)).toNat + (bits (8 * i + 7)).toNat :=
  packBits_eight _ _ _ _ _ _ _ _

/-- A byte is made of the bits of its own chunk alone. -/
theorem packedByte_congr {f g : Nat → Bit} {i : Nat} (h : ∀ j, j < 8 → f (8 * i + j) = g (8 * i + j)) :
    packedByte f i = packedByte g i :=
  congrArg packBits (List.map_congr_left fun j hj => h j (List.mem_range.1 hj))

/-- A bit is taken from its own byte alone. -/
theorem payloadBit_congr {f g : Nat → Byte} {a : Nat} (h : f (a / 8) = g (a / 8)) : payloadBit f a = payloadBit g a := by
  rw [payloadBit, h, payloadBit]

theorem payloadBit_chunk (f : Nat → Byte) (i : Nat) {j : Nat} (hj : j < 8) :
    payloadBit f (8 * i + j) = bitOfByte (f i) j := by
  rw [payloadBit, show (8 * i + j) / 8 = i by omega, show (8 * i + j) % 8 = j by omega]

/-- Packing undoes expanding (R83). -/
theorem packedByte_payloadBit (f : Nat → Byte) (i : Nat) : packedByte (payloadBit f) i = f i :=
  calc packedByte (payloadBit f) i
      = packBits ((List.range 8).map (bitOfByte (f i))) :=
        congrArg packBits (List.map_congr_left fun _ hj => payloadBit_chunk f i (List.mem_range.1 hj))
    _ = f i := packBits_bitOfByte (f i)

/-- Expanding undoes packing (R84). -/
theorem payloadBit_packedByte (bits : Nat → Bit) (a : Nat) : payloadBit (packedByte bits) a = bits a := by
  have hj : a % 8 < 8 := Nat.mod_lt _ (by decide)
  have hbit := bitOfByte_packBits ((List.range 8).map fun j => bits (8 * (a / 8) + j)) (by simp) (a % 8) hj
  have hchunk : bits (8 * (a / 8) + a % 8) = payloadBit (packedByte bits) a := by
    simpa [hj, payloadBit, packedByte] using hbit
  rw [← hchunk, Nat.div_add_mod]

/-! ### The two commands -/

/-- Settles O20: the failing ending is that of the pseudocode, and the other is `tobitsBody_done`, the induction over the
bytes. -/
theorem tobitsExpandsMsbFirst : Obligations.TobitsExpandsMsbFirst := by
  refine ⟨decode_encode .tobits, fun s hz => ⟨fun h => exec_of_raised (tobitsBody_raised h), fun hb hn => ?_⟩⟩
  obtain ⟨m, l, c, f, he, hread, hl, hget, -⟩ := tobitsBody_done hz hb hn
  refine ⟨_, exec_of_done he, fun i hi => ⟨f i, hread i hi, fun j hj => ?_⟩,
    fun a ha => (hget a).trans (if_neg (by omega)), hl, rfl⟩
  rw [← bitOfByte_eq, ← payloadBit_chunk f i hj]
  exact (hget _).trans (if_pos (by omega))

/-- Settles O21: the failing ending is that of the pseudocode, and the other is `tobytesBody_done`, the induction over the
chunks. -/
theorem tobytesPacksWholeChunks : Obligations.TobytesPacksWholeChunks := by
  refine ⟨decode_encode .tobytes, fun s _ => ⟨fun h => exec_of_raised (tobytesBody_raised h), fun hb hn => ?_⟩⟩
  obtain ⟨m, l, c, f, he, hread, hl, hget, -⟩ := tobytesBody_done hb hn
  refine ⟨_, exec_of_done he, fun i hi => ?_, fun a ha => (hget a).trans (if_neg (by omega)), hl, rfl⟩
  exact ⟨fun j => f (8 * i + j), packedByte f i, fun j hj => hread _ (by omega), packedByte_toNat f i,
    (hget i).trans (if_pos hi)⟩

/-- Settles O34: the bits `TOBYTES` reads are those `TOBITS` wrote, and packing undoes expanding. -/
theorem tobitsThenTobytesIsIdentity : Obligations.TobitsThenTobytesIsIdentity := by
  intro s t t' hz hb hn hbytes hexec hsizes hbitLen hbits
  obtain ⟨m, l, c, f, he, hread, hl, hget, -⟩ := tobitsBody_done hz hb hn
  obtain rfl := Host.Outcome.next.inj ((exec_of_done (i := .tobits) he).symm.trans hexec)
  have hlen : t'.bitLen.toNat = 8 * s.byteLen.toNat := (congrArg BitVec.toNat hbitLen).trans hl
  have hchunks : t'.bitLen.toNat / 8 = s.byteLen.toNat := by omega
  obtain ⟨m', l', c', g, he', hread', hl', hget', -⟩ :=
    tobytesBody_done (s := t') (by rwa [hlen, hsizes]) (by rwa [hchunks, hsizes])
  rw [hchunks] at hread' hl' hget'
  refine ⟨_, exec_of_done he', rfl, BitVec.eq_of_toNat_eq hl', fun i hi => ?_⟩
  have hg (a : Nat) (ha : a < 8 * s.byteLen.toNat) : g a = payloadBit f a :=
    (hread' a ha).eq ((hbits a ha).trans ((hget a).trans (if_pos ha)))
  obtain ⟨b, hbyte⟩ := hbytes i hi
  calc Memory.get m' i
      = some (packedByte g i) := (hget' i).trans (if_pos hi)
    _ = some (packedByte (payloadBit f) i) := congrArg some (packedByte_congr fun j _ => hg _ (by omega))
    _ = some (f i) := congrArg some (packedByte_payloadBit f i)
    _ = Memory.get s.bytebuf i := by rw [(hread i hi).eq hbyte, hbyte]

/-- Settles O35: the bytes `TOBITS` reads are those `TOBYTES` wrote, and expanding undoes packing. -/
theorem tobytesThenTobitsKeepsWholeChunks : Obligations.TobytesThenTobitsKeepsWholeChunks := by
  intro s t hz hb hn hbits hexec
  obtain ⟨m, l, c, g, he, hread, hl, hget, -⟩ := tobytesBody_done hb hn
  obtain rfl := Host.Outcome.next.inj ((exec_of_done (i := .tobytes) he).symm.trans hexec)
  obtain ⟨m', l', c', f, he', hread', hl', hget', -⟩ := tobitsBody_done
    (s := ({ s with bytebuf := m, byteLen := l, freeCount := c } : State).ended .none) hz
    (hl.trans_le hn) (by show 8 * l.toNat ≤ s.sizes.bitMax; omega)
  have hf (i : Nat) (hi : i < s.bitLen.toNat / 8) : f i = packedByte g i :=
    (hread' i (hi.trans_eq hl.symm)).eq ((hget i).trans (if_pos hi))
  refine ⟨_, exec_of_done he', rfl, hl'.trans (congrArg (8 * ·) hl), fun a => (hget' a).trans ?_⟩
  show (if a < 8 * l.toNat then some (payloadBit f a) else Memory.get s.bitbuf a) = Memory.get s.bitbuf a
  rw [hl]
  split
  case isTrue ha =>
    obtain ⟨b, hbit⟩ := hbits a ha
    calc some (payloadBit f a)
        = some (payloadBit (packedByte g) a) := congrArg some (payloadBit_congr (hf _ (by omega)))
      _ = some (g a) := congrArg some (payloadBit_packedByte g a)
      _ = Memory.get s.bitbuf a := by rw [(hread a ha).eq hbit, hbit]
  case isFalse => rfl

end Sys2Proof.Proofs
end

section
/-! SUPPORT. `APPTERM` and `DETSTRIP` as commands, and where a scan meets the terminator (spec 42_framing_terminator.md
R90 to R96). -/

namespace Sys2Proof.Proofs
open Sys2Proof.Machine

/-! ### Runs of 32 zeros in a bit sequence (R93) -/

/-- A terminator that starts at index `z`. -/
def ZeroRun (bits : Nat → Bit) (z : Nat) : Prop := ∀ j, j < 32 → bits (z + j) = 0

theorem ZeroRun.bit {bits : Nat → Bit} {z a : Nat} (h : ZeroRun bits z) (hlo : z ≤ a) (hhi : a < z + 32) :
    bits a = 0 := by
  obtain ⟨j, rfl⟩ := Nat.exists_eq_add_of_le hlo
  exact h j (by omega)

theorem zeroRun_iff {bits : Nat → Bit} {z : Nat} : ZeroRun bits z ↔ ∀ a, z ≤ a → a < z + 32 → bits a = 0 :=
  ⟨fun h _ => h.bit, fun h j hj => h (z + j) (by omega) (by omega)⟩

theorem not_zeroRun_iff {bits : Nat → Bit} {z : Nat} : ¬ ZeroRun bits z ↔ ∃ j, j < 32 ∧ bits (z + j) = 1 := by
  simp only [ZeroRun, not_forall, exists_prop, ← bit_ne_zero_iff, ne_eq]

/-- The predicate looks at the 32 bits before its index. -/
theorem termAt_iff {bits : Nat → Bit} {n : Nat} : TermAt bits n ↔ 32 ≤ n ∧ ZeroRun bits (n - 32) := by
  rw [TermAt, zeroRun_iff]
  exact and_congr_right fun hn => by rw [Nat.sub_add_cancel hn]

/-- The predicate looks at no bit from its index on. -/
theorem termAt_congr {f g : Nat → Bit} {n : Nat} (h : ∀ a, a < n → f a = g a) : TermAt f n ↔ TermAt g n :=
  and_congr_right fun _ => forall₃_congr fun a _ ha => by rw [h a ha]

/-- The first run of 32 zeros starts at index `z`. -/
structure FirstZeroRun (bits : Nat → Bit) (z : Nat) : Prop where
  run : ZeroRun bits z
  first : ∀ y, y < z → ¬ ZeroRun bits y

theorem FirstZeroRun.le {bits : Nat → Bit} {y z : Nat} (h : FirstZeroRun bits z) (hy : ZeroRun bits y) : z ≤ y :=
  not_lt.1 fun hlt => h.first y hlt hy

theorem FirstZeroRun.unique {bits : Nat → Bit} {y z : Nat} (hy : FirstZeroRun bits y) (hz : FirstZeroRun bits z) :
    y = z :=
  le_antisymm (hy.le hz.run) (hz.le hy.run)

/-- The least index where the predicate holds is the one after the first run (R96). -/
theorem firstZeroRun_iff {bits : Nat → Bit} {z : Nat} :
    FirstZeroRun bits z ↔ TermAt bits (z + 32) ∧ ∀ n, n < z + 32 → ¬ TermAt bits n := by
  simp only [termAt_iff, Nat.add_sub_cancel]
  constructor
  · exact fun h => ⟨⟨by omega, h.run⟩, fun n hn hterm => h.first (n - 32) (by omega) hterm.2⟩
  · rintro ⟨⟨-, hrun⟩, hfirst⟩
    exact ⟨hrun, fun y hy hzero => hfirst (y + 32) (by omega) ⟨by omega, hzero⟩⟩

/-! ### The first run of a payload that a terminator follows (R96)

The payload is the first `p` bits. -/

section
variable {bits : Nat → Bit} {p : Nat}

/-- A run that starts inside the payload, where the payload has none, would cover every bit from its start to the
payload's end; so with a 1 just before the run at `q`, no run starts earlier. -/
theorem firstZeroRun_of_one_before {q : Nat} (hq : ZeroRun bits q) (hqp : q ≤ p) (hone : 0 < q → bits (q - 1) = 1)
    (hpayload : ∀ y, y + 32 ≤ p → ¬ ZeroRun bits y) : FirstZeroRun bits q := by
  refine ⟨hq, fun y hy hrun => ?_⟩
  have hover : p < y + 32 := not_le.1 fun hle => hpayload y hle hrun
  exact absurd ((hrun.bit (by omega) (by omega)).symm.trans (hone (by omega))) (by decide)

/-- The first run is the terminator exactly when `NoEarlyTerm` holds of the payload. -/
theorem firstZeroRun_payloadEnd_iff (hterm : ZeroRun bits p) : FirstZeroRun bits p ↔ NoEarlyTerm bits p := by
  simp only [NoEarlyTerm, ← not_zeroRun_iff]
  constructor
  · intro h
    refine (Nat.eq_zero_or_pos p).imp_right fun hp => ⟨(bit_ne_zero_iff _).1 fun hlast => ?_, fun y hy => ?_⟩
    · have hearlier : ZeroRun bits (p - 1) := zeroRun_iff.2 fun a hlo hhi => by
        obtain rfl | ha : a = p - 1 ∨ p ≤ a := by omega
        · exact hlast
        · exact hterm.bit ha (by omega)
      exact h.first (p - 1) (by omega) hearlier
    · exact h.first y (by omega)
  · rintro (rfl | ⟨hlast, hpayload⟩)
    · exact ⟨hterm, nofun⟩
    · exact firstZeroRun_of_one_before hterm le_rfl (fun _ => hlast) hpayload

/-- Trailing zeros of the payload, `z <= 31` of them, join the terminator (case (b)). -/
theorem firstZeroRun_trailingZeros {z : Nat} (hterm : ZeroRun bits p) (hz : z ≤ 31)
    (hpayload : ∀ y, y + 32 ≤ p → ¬ ZeroRun bits y) (hzeros : ∀ a, p - z ≤ a → a < p → bits a = 0)
    (hone : z < p → bits (p - z - 1) = 1) : FirstZeroRun bits (p - z) := by
  have hrun : ZeroRun bits (p - z) := zeroRun_iff.2 fun a hlo hhi => by
    obtain ha | ha := lt_or_ge a p
    · exact hzeros a hlo ha
    · exact hterm.bit ha (by omega)
  exact firstZeroRun_of_one_before hrun (by omega) (fun hpos => hone (by omega)) hpayload

end

/-! ### The two commands -/

/-- Settles O22: the failing ending is that of the pseudocode, and the other is `apptermBody_done`, the loop over the 32
zeros. -/
theorem apptermAppendsTheTerminator : Obligations.ApptermAppendsTheTerminator := by
  refine ⟨decode_encode .appterm, fun s hz => ⟨fun h => exec_of_raised (apptermBody_raised h), fun h => ?_⟩⟩
  obtain ⟨m, l, he, hl, hget, -⟩ := apptermBody_done hz h
  exact ⟨_, exec_of_done he, fun j hj => (hget _).trans (if_pos (by omega)), fun a ha => (hget a).trans (if_neg ha), hl,
    rfl⟩

/-- `s` after a `DETSTRIP` that answered `found` and left the length `l`. -/
def detstripped (s : State) (found : Bool) (l : Word) (c : Nat) : State :=
  { s.ended .none with
    bitLen := l, status := statusWithFound found (statusWithBusy false s.status), freeCount := c }

theorem found_detstripped (s : State) (found : Bool) (l : Word) (c : Nat) : (detstripped s found l c).found = found :=
  statusWithFound_getLsbD found _ 1

/-- How a `DETSTRIP` of a legal length ends: `f` gives the bits it read (R92). -/
theorem exec_detstrip_cases {s : State} (h : s.bitLen.toNat ≤ s.sizes.bitMax) :
    ∃ (f : Nat → Bit) (c : Nat), (∀ j, Reads s.bitbuf j (f j)) ∧
      ((TermAt f s.bitLen.toNat ∧ ∃ l, l.toNat + 32 = s.bitLen.toNat ∧
        exec .detstrip s = .next (detstripped s true l c)) ∨
      (¬ TermAt f s.bitLen.toNat ∧ exec .detstrip s = .next (detstripped s false s.bitLen c))) := by
  have hended (found : Bool) (l : Word) (c : Nat) :
      ({ s with bitLen := l, status := statusWithFound found s.status, freeCount := c } : State).ended .none =
        detstripped s found l c := by
    simp only [State.ended, detstripped, statusWithBusy_statusWithFound]
  obtain ⟨f, c, hf, ⟨ht, l, hl, he⟩ | ⟨ht, he⟩⟩ := detstripBody_done h
  · exact ⟨f, c, hf, .inl ⟨ht, l, hl, hended true l c ▸ exec_of_done he⟩⟩
  · exact ⟨f, c, hf, .inr ⟨ht, hended false s.bitLen c ▸ exec_of_done he⟩⟩

/-- Settles O23: the failing ending is that of the pseudocode, and the other two are those of `exec_detstrip_cases`. -/
theorem detstripTestsTheLast32Bits : Obligations.DetstripTestsTheLast32Bits := by
  refine ⟨decode_encode .detstrip, fun s _ => ⟨fun h => exec_of_raised (detstripBody_raised h), fun h => ?_⟩⟩
  obtain ⟨f, c, hf, ⟨ht, l, hl, he⟩ | ⟨ht, he⟩⟩ := exec_detstrip_cases h
  · have hfound := found_detstripped s true l c
    exact ⟨f, _, he, fun j _ => hf j, fun _ => ⟨hfound, hl⟩, fun hnt => absurd ht hnt, by rw [hfound]; rfl⟩
  · have hfound := found_detstripped s false s.bitLen c
    exact ⟨f, _, he, fun j _ => hf j, fun ht' => absurd ht' ht, fun _ => ⟨hfound, rfl⟩, by rw [hfound]; rfl⟩

/-- Settles O36: the last 32 bits `DETSTRIP` reads are the zeros `APPTERM` wrote, so it answers found. -/
theorem apptermThenDetstripFinds : Obligations.ApptermThenDetstripFinds := by
  intro s t t' hz h hexec hsizes hbitLen hbitbuf
  obtain ⟨m, l, he, hl, hget, -⟩ := apptermBody_done hz h
  obtain rfl := Host.Outcome.next.inj ((exec_of_done (i := .appterm) he).symm.trans hexec)
  have hlen : t'.bitLen.toNat = s.bitLen.toNat + 32 := (congrArg BitVec.toNat hbitLen).trans hl
  have hm : t'.bitbuf = m := hbitbuf
  obtain ⟨f, c, hf, hend⟩ := exec_detstrip_cases (s := t') (by rwa [hlen, hsizes])
  have hterm : TermAt f t'.bitLen.toNat :=
    ⟨by omega, fun a hlo hhi => (hf a).eq (by rw [hm, hget, if_pos (by omega)])⟩
  obtain ⟨-, l', hl', he'⟩ | ⟨hnt, -⟩ := hend
  · refine ⟨_, he', rfl, found_detstripped t' true l' c, BitVec.eq_of_toNat_eq ?_, fun a ha => ?_⟩
    · show l'.toNat = s.bitLen.toNat
      omega
    · show Memory.get t'.bitbuf a = Memory.get s.bitbuf a
      rw [hm, hget, if_neg (by omega)]
  · exact absurd hterm hnt

/-! ### The scan of a grid that holds a terminator (R96) -/

/-- `t` holds the bits before the first run of 32 zeros, and the scan that left it stopped with that run. -/
structure StoppedAtFirstRun (bits : Nat → Bit) (t : State) : Prop where
  err : t.err = 0
  found : t.found = true
  cursor : t.peCursor.toNat = t.bitLen.toNat + 32
  first : FirstZeroRun bits t.bitLen.toNat
  bit : ∀ k, k < t.bitLen.toNat → Memory.get t.bitbuf k = some (bits k)

/-- A legal grid whose channels hold `bits` up to a run of 32 zeros inside it: the scan reads no further than the run
from `q`, so every bit it reads is one of `bits`. -/
theorem exec_extract_stoppedAtFirstRun {s : State} {bits : Nat → Bit} {q : Nat} (hz : s.sizes.wf = true)
    (hg : s.gridOk = true) (hq : q + 32 ≤ s.channels)
    (hgrid : ∀ k, k < q + 32 → ∃ v : Byte, Memory.get s.pixmem (pixCell s.sizes.nch k) = some v ∧
      bits k = BitVec.ofBool (v.getLsbD 0))
    (hrun : ZeroRun bits q) : ∃ t, exec .extract s = .next t ∧ StoppedAtFirstRun bits t := by
  obtain ⟨f, m, c, k, hk, hread, hget, hfirst, hend, -⟩ := extractBody_done hz hg
  have hbits (j : Nat) (hjk : j < k) (hjq : j < q + 32) : f j = bits j := by
    obtain ⟨v, hv, hf⟩ := hread j hjk
    obtain ⟨u, hu, hb⟩ := hgrid j hjq
    rw [hf, hb, hv.eq hu, channelBit_eq]
  have hcongr (n : Nat) (hnk : n ≤ k) (hnq : n ≤ q + 32) : TermAt f n ↔ TermAt bits n :=
    termAt_congr fun a ha => hbits a (by omega) (by omega)
  have hterm : TermAt bits (q + 32) := termAt_iff.2 ⟨by omega, hrun⟩
  have hkq : k ≤ q + 32 := not_lt.1 fun hlt => hfirst (q + 32) hlt ((hcongr _ hlt.le le_rfl).2 hterm)
  obtain ⟨hall, hnt, -⟩ | ⟨ht, he⟩ := hend
  · obtain rfl : k = q + 32 := by omega
    exact absurd ((hcongr _ le_rfl le_rfl).2 hterm) hnt
  · have hk32 : 32 ≤ k := ht.1
    have hlt : k < 2 ^ 32 := hk.trans_lt (channels_lt hz hg)
    obtain ⟨z, rfl⟩ := Nat.exists_eq_add_of_le' hk32
    rw [Nat.add_sub_cancel] at he
    have hlen : (regOf z).toNat = z := regOf_toNat (by omega)
    refine ⟨_, exec_of_done he, rfl, (found_setBusy _ false).trans (found_setFound s true), ?_, ?_, fun j hj => ?_⟩
    · show (regOf (z + 32)).toNat = (regOf z).toNat + 32
      rw [regOf_toNat hlt, hlen]
    · show FirstZeroRun bits (regOf z).toNat
      rw [hlen, firstZeroRun_iff]
      exact ⟨(hcongr _ le_rfl hkq).1 ht, fun n hn h => hfirst n hn ((hcongr n hn.le (by omega)).2 h)⟩
    · have hjz : j < z := hj.trans_eq hlen
      show Memory.get m j = some (bits j)
      rw [hget, if_pos (by omega), hbits j (by omega) (by omega)]

/-- Settles O37: the scan stops at the first run of 32 zeros, a run is at `p`, and the first one is where each clause
says, by the three laws of the first run. -/
theorem scanStopsAtTheFirstZeroRun : Obligations.ScanStopsAtTheFirstZeroRun := by
  intro s bits p hz hw hh hp hgrid hzeros
  have hrun : ZeroRun bits p := zeroRun_iff.2 hzeros
  obtain ⟨t, ht, hs⟩ := exec_extract_stoppedAtFirstRun hz ((gridOk_iff s).2 ⟨hw, hh⟩) hp hgrid hrun
  have hiff (q : Nat) : t.bitLen.toNat = q ↔ FirstZeroRun bits q := ⟨fun h => h ▸ hs.first, hs.first.unique⟩
  obtain ⟨hterm, hleast⟩ := firstZeroRun_iff.1 hs.first
  rw [← hs.cursor] at hterm hleast
  simp only [← not_zeroRun_iff]
  refine ⟨t, ht, hs.err, hs.found, hs.cursor, hterm, hleast, hs.first.le hrun, hs.bit, ?noEarlyTerm, ?runInPayload,
    ?trailingZeros⟩
  case noEarlyTerm => exact (hiff p).trans (firstZeroRun_payloadEnd_iff hrun)
  case runInPayload => exact fun z _ hzero hfirst => (hiff z).2 ⟨hzero, hfirst⟩
  case trailingZeros =>
    exact fun z _ hz31 hnone hzero hone => (hiff _).2 (firstZeroRun_trailingZeros hrun hz31 hnone hzero hone)

end Sys2Proof.Proofs
end

section
/-! SUPPORT. The scan order and the cells of a grid's channels (spec 43_pixel_lsb_embedder.md R100, R101, R103,
20_memory.md R56). -/

namespace Sys2Proof.Proofs
open Sys2Proof.Machine

/-! ### A pixel's three channels -/

/-- The three channels of pixel `p` have the first three of its cells. -/
theorem pixCell_channel (nch p : Nat) {c : Nat} (hc : c < 3) : pixCell nch (p * 3 + c) = p * nch + c := by
  rw [pixCell, show (p * 3 + c) / 3 = p by omega, show (p * 3 + c) % 3 = c by omega]

/-- Every channel index is that of some channel of some pixel. -/
theorem exists_channel (k : Nat) : ∃ p c, c < 3 ∧ k = p * 3 + c :=
  ⟨k / 3, k % 3, Nat.mod_lt k (by decide), (Nat.div_add_mod' k 3).symm⟩

/-- Block `i` of `m` blocks of `n` cells ends by the end of the last. -/
theorem blockIndex_lt {i j m n : Nat} (hi : i < m) (hj : j < n) : i * n + j < m * n :=
  calc i * n + j < (i + 1) * n := by rw [Nat.succ_mul]; omega
    _ ≤ m * n := Nat.mul_le_mul_right n hi

/-- The channels of `p` pixels lie in the cells of those pixels. -/
theorem pixCell_lt_pixels {nch p k : Nat} (hn : 3 ≤ nch) (hk : k < p * 3) : pixCell nch k < p * nch := by
  obtain ⟨q, c, hc, rfl⟩ := exists_channel k
  rw [pixCell_channel nch q hc]
  exact blockIndex_lt (by omega) (hc.trans_le hn)

/-- No cell of the scan is one of a channel beyond the third (R103). -/
theorem pixCell_mod_lt {nch : Nat} (hn : 3 ≤ nch) (k : Nat) : pixCell nch k % nch < 3 := by
  obtain ⟨p, c, hc, rfl⟩ := exists_channel k
  rwa [pixCell_channel nch p hc, Nat.mul_add_mod', Nat.mod_eq_of_lt (hc.trans_le hn)]

/-- Settles O39: a legal grid has at most the pixels the block has (R101), and the cells of the channels are those
`pixCell_channel` gives. -/
theorem scanStaysInsideTheMemories : Obligations.ScanStaysInsideTheMemories := by
  intro z gridW gridH hz hw hh
  obtain ⟨-, -, -, hn, hscan, -⟩ := (Sizes.wf_iff z).1 hz
  have hpixels : gridW * gridH ≤ z.wMax * z.hMax := Nat.mul_le_mul hw hh
  rw [Nat.mul_assoc] at hscan ⊢
  refine ⟨by omega, fun k hk => ?_, fun j k => pixCell_inj hn⟩
  have hgrid : pixCell z.nch k < gridW * gridH * z.nch := pixCell_lt_pixels hn (by omega)
  exact ⟨hgrid, hgrid.trans_le (Nat.mul_le_mul_right z.nch hpixels), pixCell_mod_lt hn k⟩

/-! ### The three loops -/

/-- Two nested loops, the inner one over `n`, visit the indices `i * n + j` in rising order. -/
theorem flatMap_range_mul {α : Type} (f : Nat → List α) (m n : Nat) :
    ((List.range m).flatMap fun i => (List.range n).flatMap fun j => f (i * n + j)) =
      (List.range (m * n)).flatMap f := by
  induction m with
  | zero => simp
  | succ m ih => rw [List.range_succ, List.flatMap_append, ih, Nat.succ_mul, List.range_add, List.flatMap_append,
      List.flatMap_map, List.flatMap_singleton]

/-- The cells of the three loops, in the order of the loops, are those of the channel indices in rising order (R100). -/
theorem map_scanOrder (nch gridW gridH : Nat) :
    (scanOrder gridW gridH).map (fun p => pixCellAt nch gridW p.1 p.2.1 p.2.2) =
      (List.range (3 * gridW * gridH)).map (pixCell nch) := by
  have hpixel (y x : Nat) : (List.range 3).map (fun c => pixCellAt nch gridW y x c) =
      (List.range 3).flatMap fun c => [pixCell nch ((y * gridW + x) * 3 + c)] := by
    rw [List.map_eq_flatMap]
    exact List.flatMap_congr fun c hc => by rw [pixCell_channel nch _ (List.mem_range.1 hc), pixCellAt]
  have hcount : gridH * gridW * 3 = 3 * gridW * gridH := by ring
  simp only [scanOrder, List.map_flatMap, List.map_map, Function.comp_def, hpixel]
  rw [flatMap_range_mul fun p => (List.range 3).flatMap fun c => [pixCell nch (p * 3 + c)],
    flatMap_range_mul fun k => [pixCell nch k], hcount, ← List.map_eq_flatMap]

/-- Settles O38: the order of the loops is `map_scanOrder`; dividing the index by 3 gives the pixel back, and dividing
that by the width gives row and column back. -/
theorem scanOrderIsRowMajor : Obligations.ScanOrderIsRowMajor := by
  intro nch gridW gridH
  refine ⟨map_scanOrder nch gridW gridH, fun y x c hy hx hc => ?_⟩
  have hpixel : ((y * gridW + x) * 3 + c) / 3 = y * gridW + x := by omega
  have hlt : y * gridW + x < gridH * gridW := blockIndex_lt hy hx
  refine ⟨pixCell_channel nch _ hc, ?inside, ?row, ?column, by omega⟩
  case inside => rw [Nat.mul_assoc, Nat.mul_comm gridW]; omega
  case row => rw [← Nat.div_div_eq_div_mul, hpixel, Nat.add_comm, Nat.add_mul_div_right _ _ (by omega),
    Nat.div_eq_of_lt hx, Nat.zero_add]
  case column => rw [hpixel, Nat.mul_add_mod', Nat.mod_eq_of_lt hx]

end Sys2Proof.Proofs
end

section
/-! SUPPORT. `EMBED` and `EXTRACT` as commands (spec 43_pixel_lsb_embedder.md R102 to R110): how each ends, and what a
scan reads of the cells that an `EMBED` wrote. -/

/-! ### What a scan leaves (R109) -/

namespace Sys2Proof.Machine
open Sys2Proof.Proofs

section
variable {s t : State} {f : Nat → Bit} {n : Nat}

theorem Scanned.get_bitbuf (h : Scanned s t f n) {k : Nat} (hk : k < n) : Memory.get t.bitbuf k = some (f k) :=
  (h.bitbuf k).trans (if_pos hk)

theorem Scanned.of_found (h : Scanned s t f n) (hfound : t.found = true) :
    TermAt f n ∧ n ≤ s.channels ∧ t.bitLen.toNat + 32 = n := by
  obtain ⟨hterm, hn, -, hlen⟩ | ⟨-, -, hnot, -⟩ := h.stop
  · exact ⟨hterm, hn, hlen⟩
  · simp [hfound] at hnot

theorem Scanned.of_not_found (h : Scanned s t f n) (hfound : t.found = false) :
    ¬ TermAt f n ∧ n = s.channels ∧ t.bitLen.toNat = n := by
  obtain ⟨-, -, hyes, -⟩ | ⟨hnt, hn, -, hlen⟩ := h.stop
  · simp [hfound] at hyes
  · exact ⟨hnt, hn, hlen⟩

/-- A scan that met no terminator read no window of 32 zeros: the test after the window's last bit failed. -/
theorem Scanned.not_zeroRun (h : Scanned s t f n) (hfound : t.found = false) {z : Nat} (hz : z + 32 ≤ n) :
    ¬ ZeroRun f z := by
  intro hrun
  have hterm : TermAt f (z + 32) := termAt_iff.2 ⟨by omega, hrun⟩
  obtain hlt | rfl := hz.lt_or_eq
  · exact h.first _ hlt hterm
  · exact (h.of_not_found hfound).1 hterm

/-- A scan reads an embedded bit back (R102, R110). -/
theorem Scanned.bit_of_embedBit (h : Scanned s t f n) {k : Nat} (hk : k < n) {v : Byte} {b : Bit}
    (hget : Memory.get s.pixmem (pixCell s.sizes.nch k) = some (embedBit v b)) : f k = b := by
  obtain ⟨u, hu, hf⟩ := h.bits k hk
  rw [hf, hu.eq hget, ← channelBit_eq, channelBit_embedBit]

end
end Sys2Proof.Machine

namespace Sys2Proof.Proofs
open Sys2Proof.Machine

/-- A grid register beyond its limit fails the test of both scans (R101). -/
theorem gridOk_eq_false_iff (s : State) :
    s.gridOk = false ↔ s.sizes.wMax < s.gridW.toNat ∨ s.sizes.hMax < s.gridH.toNat := by
  rw [← Bool.not_eq_true, gridOk_iff, not_and_or, not_le, not_le]

/-! ### `EMBED` -/

/-- Settles O25: the failing ending is that of the pseudocode, and the other is `embedBody_done`, the loop over the
channels. -/
theorem embedWritesBitZeroInScanOrder : Obligations.EmbedWritesBitZeroInScanOrder := by
  refine ⟨decode_encode .embed, fun s hz => ⟨?bufferRange, ?completes⟩⟩
  case bufferRange =>
    rw [← or_assoc, ← gridOk_eq_false_iff]
    exact fun h => exec_of_raised (embedBody_raised h)
  case completes =>
    intro hw hh hb
    obtain ⟨m, x, c, he, hx, hembedded, hrest, -⟩ := embedBody_done hz ((gridOk_iff s).2 ⟨hw, hh⟩) hb
    rw [← hx] at hembedded hrest
    exact ⟨_, exec_of_done he, hx, hembedded, hrest, rfl⟩

/-! ### `EXTRACT` -/

/-- `s` after a scan of `n` channels that answered `found` and left the length `l` and the bits in `m`. -/
def extracted (s : State) (m : Memory 1) (n l : Nat) (found : Bool) (c : Nat) : State :=
  { s.ended .none with
    bitbuf := m, bitLen := regOf l, peCursor := regOf n,
    status := statusWithFound found (statusWithBusy false s.status), freeCount := c }

theorem found_extracted (s : State) (m : Memory 1) (n l : Nat) (found : Bool) (c : Nat) :
    (extracted s m n l found c).found = found :=
  statusWithFound_getLsbD found _ 1

theorem ended_scanned (s : State) (m : Memory 1) (n l : Nat) (found : Bool) (c : Nat) :
    (scanned s m n l found c).ended .none = extracted s m n l found c := by
  simp only [State.ended, scanned, extracted, statusWithBusy_statusWithFound]

/-- How an `EXTRACT` of a legal grid ends: it has read `n` channels, up to the first terminator or to the end of the
grid (R107, R108). -/
theorem exec_extract_scanned {s : State} (hz : s.sizes.wf = true) (hw : s.gridW.toNat ≤ s.sizes.wMax)
    (hh : s.gridH.toNat ≤ s.sizes.hMax) :
    ∃ (f : Nat → Bit) (m : Memory 1) (n l : Nat) (found : Bool) (c : Nat),
      exec .extract s = .next (extracted s m n l found c) ∧ Scanned s (extracted s m n l found c) f n := by
  have hg : s.gridOk = true := (gridOk_iff s).2 ⟨hw, hh⟩
  obtain ⟨f, m, c, n, hn, hread, hget, hfirst, hend, -⟩ := extractBody_done hz hg
  have hlt : n < 2 ^ 32 := hn.trans_lt (channels_lt hz hg)
  simp only [channelBit_eq] at hread
  obtain ⟨hall, hnt, he⟩ | ⟨hterm, he⟩ := hend
  · exact ⟨f, m, n, n, false, c, ended_scanned s m n n false c ▸ exec_of_done he, hread, hget, regOf_toNat hlt, hfirst,
      .inr ⟨hnt, hall, found_extracted .., regOf_toNat hlt⟩⟩
  · have hn32 : 32 ≤ n := hterm.1
    have hlen : (regOf (n - 32)).toNat + 32 = n := by rw [regOf_toNat (by omega), Nat.sub_add_cancel hn32]
    exact ⟨f, m, n, n - 32, true, c, ended_scanned s m n (n - 32) true c ▸ exec_of_done he, hread, hget,
      regOf_toNat hlt, hfirst, .inl ⟨hterm, hn, found_extracted .., hlen⟩⟩

/-- Settles O26: the failing ending is that of the pseudocode, and the other is `exec_extract_scanned`. -/
theorem extractReadsUntilTheTerminator : Obligations.ExtractReadsUntilTheTerminator := by
  refine ⟨decode_encode .extract, fun s hz => ⟨fun h => ?_, fun hw hh => ?_⟩⟩
  · exact exec_of_raised (extractBody_raised ((gridOk_eq_false_iff s).2 h))
  · obtain ⟨f, m, n, l, found, c, he, hscan⟩ := exec_extract_scanned hz hw hh
    exact ⟨f, n, _, he, hscan, by rw [found_extracted]; rfl⟩

/-- Settles O40: a scan that stopped at a terminator has its 32 zeros in the last cells it wrote, and one that did not
has read the whole grid and no window of 32 zeros. -/
theorem extractLeavesWhatItSays : Obligations.ExtractLeavesWhatItSays := by
  intro s hz hw hh
  obtain ⟨f, m, n, l, found, c, he, hscan⟩ := exec_extract_scanned hz hw hh
  refine ⟨_, he, fun hfound => ?_, fun hfound => ?_⟩
  · obtain ⟨hterm, hn, hlen⟩ := hscan.of_found hfound
    refine ⟨hscan.cursor.trans hlen.symm, fun j hj => ?_, hlen.trans_le hn⟩
    rw [hscan.get_bitbuf (by omega), hterm.2 _ (by omega) (by omega)]
  · obtain ⟨-, hn, hlen⟩ := hscan.of_not_found hfound
    refine ⟨hlen.trans hn, BitVec.eq_of_toNat_eq (hscan.cursor.trans hlen.symm), fun z hwindow => ?_⟩
    rw [hlen] at hwindow
    obtain ⟨j, hj, hone⟩ := not_zeroRun_iff.1 (hscan.not_zeroRun hfound hwindow)
    exact ⟨j, hj, by rw [hscan.get_bitbuf (by omega), hone]⟩

/-- Settles O41: the cell of each channel the `EMBED` wrote has the embedded bit as its bit 0, and that is what the scan
reads and appends. -/
theorem embedThenExtractReadsBack : Obligations.EmbedThenExtractReadsBack := by
  intro s t t' hz hw hh hlen hwritten hexec hsizes hgridW hgridH hpixmem
  obtain ⟨m, x, c, he, hx, hembedded, -⟩ := embedBody_done hz ((gridOk_iff s).2 ⟨hw, hh⟩) hlen
  obtain rfl := Host.Outcome.next.inj ((exec_of_done (i := .embed) he).symm.trans hexec)
  obtain ⟨f, m', n, l, found, c', hextract, hscan⟩ :=
    exec_extract_scanned (s := t') (by rwa [hsizes]) (by rwa [hsizes, hgridW]) (by rwa [hsizes, hgridH])
  refine ⟨_, hextract, rfl, fun k hk hk' => ?_⟩
  have hkx : k < min s.bitLen.toNat s.channels := hk.trans_eq hx
  have hkn : k < n := hk'.trans_eq hscan.cursor
  obtain ⟨v, b, -, hb, hget⟩ := hembedded k hkx
  obtain ⟨b', hb'⟩ := hwritten k (by omega)
  have hfb : f k = b := hscan.bit_of_embedBit hkn (by rw [hpixmem, hsizes]; exact hget)
  rw [hscan.get_bitbuf hkn, hfb, hb', hb.eq hb']

end Sys2Proof.Proofs
end

section
/-! SUPPORT. `CAPCHK` as a command, and an `EMBMSG` that it rejects (spec 44_capacity_guard.md R115 to R117). -/

namespace Sys2Proof.Proofs
open Sys2Proof.Machine

/-- Settles O24: the three endings of the pseudocode, with the outcome of each recorded. -/
theorem capchkComparesWithTheCapacity : Obligations.CapchkComparesWithTheCapacity := by
  refine ⟨decode_encode .capchk, fun s hz => ⟨?bufferRange, ?inRange⟩⟩
  case bufferRange =>
    rw [← or_assoc, ← gridOk_eq_false_iff]
    exact fun h => exec_of_raised ((capchkBody_cases hz).1 h)
  case inRange =>
    intro hw hh hb
    obtain ⟨c, hc, hexceeded, hfits⟩ := (capchkBody_cases hz).2 ((gridOk_iff s).2 ⟨hw, hh⟩) hb
    exact ⟨c, hc, fun h => exec_of_done (i := .capchk) (hfits h),
      fun h => exec_of_raised (i := .capchk) (hexceeded h)⟩

/-- Whatever its outcome, the pseudocode of `CAPCHK` writes `CAP` or nothing (R115, R117). -/
theorem capchkBody_state {s : State} (hz : s.sizes.wf = true) : ∃ c, (capchkBody s).state = { s with cap := c } := by
  by_cases h : s.gridOk = false ∨ s.sizes.bitMax < s.bitLen.toNat
  · exact ⟨s.cap, by rw [(capchkBody_cases hz).1 h, state_raised]⟩
  obtain ⟨c, -, hexceeded, hfits⟩ := (capchkBody_cases hz).2 (by simpa using (not_or.1 h).1) (by omega)
  obtain h' | h' := lt_or_ge s.channels s.bitLen.toNat
  · exact ⟨c, by rw [hexceeded h', state_raised]⟩
  · exact ⟨c, by rw [hfits h', state_done]⟩

/-- `s` after the stages of `EMBMSG` that mask, expand and terminate the message. -/
def framed (s : State) (bytes : Memory 8) (x : Word) (bits : Memory 1) (l : Word) (c : Nat) : State :=
  { s with bytebuf := bytes, xcKidx := x, bitbuf := bits, bitLen := l, freeCount := c }

/-- The stages of `EMBMSG` before the capacity check, where their tests pass: they frame `8 * BYTE_LEN + 32` bits and
write neither the grid nor `PE_CURSOR` (45_orchestration.md R120). -/
theorem framingStages_done {s : State} (hz : s.sizes.wf = true) (hl : s.keyLen ≠ 0)
    (hk : s.keyLen.toNat ≤ s.sizes.keyMax) (hb : s.byteLen.toNat ≤ s.sizes.byteMax)
    (hn : 8 * s.byteLen.toNat + 32 ≤ s.sizes.bitMax) :
    ∃ bytes x bits l c, ((maskBody s).andThen tobitsBody).andThen apptermBody = .done (framed s bytes x bits l c) ∧
      l.toNat = 8 * s.byteLen.toNat + 32 := by
  obtain ⟨bytes, x, c, hmask, -⟩ := maskBody_done hl hk hb
  obtain ⟨bits, l, c', _, htobits, -, hl', -⟩ :=
    tobitsBody_done (s := { s with bytebuf := bytes, xcKidx := x, freeCount := c }) hz hb (by dsimp only; omega)
  obtain ⟨bits', l', happterm, hl'', -⟩ :=
    apptermBody_done (s := framed s bytes x bits l c') hz (by dsimp only [framed] at hl' ⊢; omega)
  refine ⟨bytes, x, bits', l', c', ?_, hl''.trans (congrArg (· + 32) hl')⟩
  rw [hmask, andThen_done, htobits, andThen_done]
  exact happterm

/-- Settles O48: a `CAPCHK` writes `CAP` alone. In the `EMBMSG` the earlier stages complete, `CAPCHK` finds the framed
payload too long and raises, and `EMBED` does not run. -/
theorem rejectedPayloadLeavesTheGridUnchanged : Obligations.RejectedPayloadLeavesTheGridUnchanged := by
  refine fun s hz => ⟨?capchk, ?embmsg⟩
  case capchk =>
    obtain ⟨c, hc⟩ := capchkBody_state hz
    obtain ⟨e, he⟩ := complete_eq_endWith (capchkBody s)
    exact ⟨_, exec_eq .capchk s, by rw [stageBody, he, hc, endWith_pixmem]⟩
  case embmsg =>
    intro hl hk hb hn hw hh hlong
    obtain ⟨bytes, x, bits, l, c, hframed, hlen⟩ := framingStages_done hz hl hk hb hn
    obtain ⟨cap, -, hexceeded, -⟩ :=
      (capchkBody_cases (s := framed s bytes x bits l c) hz).2 ((gridOk_iff _).2 ⟨hw, hh⟩) (hlen.trans_le hn)
    have hrejected :
        embmsgBody s = .raised .capacityExceeded { framed s bytes x bits l c with cap := cap } := by
      rw [embmsgBody, hframed, andThen_done, hexceeded (hlong.trans_eq hlen.symm), andThen_raised]
    exact ⟨_, exec_of_raised (i := .embmsg) hrejected, rfl, rfl, rfl⟩

end Sys2Proof.Proofs
end

section
/-! SUPPORT. Steps and runs (spec 45_orchestration.md R122, R126, 60_exceptions.md R145): no input stops a block of legal
parameters, so a run of any length goes on, and the invariant of every step is the invariant of every run from reset. -/

namespace Sys2Proof.Proofs
open Sys2Proof.Machine

/-- Settles O18: the pseudocode of `NOP` reaches its end at once. -/
theorem nopOnlyCompletes : Obligations.NopOnlyCompletes := ⟨decode_encode .nop, fun _ => exec_of_done rfl⟩

/-! ### No step stops -/

theorem exists_runCommand_next (s : State) : ∃ t, runCommand s = .next t := by
  obtain ⟨e, t, h⟩ := runCommand_next s
  exact ⟨_, h⟩

theorem exists_idleInput_next (x : Input) (s : State) : ∃ t, idleInput x s = .next t := by
  cases x with
  | txn x =>
    rw [idleInput]
    split
    · exact exists_runCommand_next _
    · exact ⟨_, rfl⟩
  | start w => exact ⟨_, rfl⟩
  | idle => exact ⟨_, rfl⟩
  | reset => exact ⟨_, rfl⟩

theorem exists_busyInput_next (x : Input) (popped s : State) : ∃ t, busyInput x popped s = .next t := by
  cases x with
  | txn x =>
    rw [busyInput]
    split
    · exact ⟨_, rfl⟩
    · exact exists_runCommand_next s
  | start w => exact exists_runCommand_next s
  | idle => exact exists_runCommand_next popped
  | reset => exact ⟨_, rfl⟩

/-- Settles O51: a command started or running reaches its end, and every other input is handled at once. -/
theorem noStepStops : Obligations.NoStepStops := by
  intro s hz
  cases hi : s.inputs with
  | nil =>
    rw [step_noInput hz hi]
    split
    · exact exists_runCommand_next s
    · exact ⟨s, rfl⟩
  | cons x rest =>
    cases hb : s.busy with
    | true => rw [step_busy hz hb hi]; exact exists_busyInput_next x _ s
    | false => rw [step_idle hz hb hi]; exact exists_idleInput_next x _

/-! ### Runs -/

theorem run_succ {s u : State} (h : step s = .next u) (k : Nat) :
    Host.Core.run Sys2Proof.core (k + 1) s = Host.Core.run Sys2Proof.core k u := by
  have hcore : Sys2Proof.core.step s = .next u := h
  simp only [Host.Core.run, hcore]

/-- A state that meets the invariant runs for any number of steps, and meets it after them. -/
theorem run_inv (k : Nat) {s : State} (hs : s.Inv) :
    ∃ t : State, Host.Core.run Sys2Proof.core k s = .next t ∧ t.Inv ∧ t.sizes = s.sizes := by
  induction k generalizing s with
  | zero => exact ⟨s, rfl, hs, rfl⟩
  | succ k ih =>
    obtain ⟨u, hstep⟩ := noStepStops s hs.sizes_wf
    obtain ⟨t, hrun, ht, hsizes⟩ := ih (everyStepKeepsTheInvariant s u hs hstep)
    exact ⟨t, (run_succ hstep k).trans hrun, ht, hsizes.trans (step_safe hstep).sizes⟩

/-- After reset no cell is written and every register is 0 (70_reset_and_hazards.md R156, R157), whatever the outside
does next. -/
theorem resetOf_inv {z : Sizes} (hz : z.wf = true) (script : List Input) :
    State.Inv { State.resetOf z with inputs := script } := by
  have hkey : 1 ≤ z.keyMax := ((Sizes.wf_iff z).1 hz).1.1
  refine ⟨hz, ⟨.nil, .nil, .nil, .nil, nofun, nofun, nofun, nofun⟩, ?_⟩
  exact ⟨BitVec.zero_and, Nat.zero_le 4, Nat.zero_le _, hkey, Nat.zero_le _⟩

/-- Settles O54: the run starts in a state that meets the invariant, and every step keeps it. -/
theorem everyRunFromResetIsSafe : Obligations.EveryRunFromResetIsSafe :=
  fun _ script k hz => run_inv k (resetOf_inv hz script)

end Sys2Proof.Proofs
end

section
/-! SUPPORT. A pipeline and its stages issued one after another by the host (spec 45_orchestration.md R123). -/

namespace Sys2Proof.Proofs
open Sys2Proof.Machine

/-! ### One `CMD` write of the host -/

section
variable {s : State} (hz : s.sizes.wf = true) (hb : s.busy = false)
include hz hb

/-- An idle block takes the `CMD` write of a command: `CMD` holds its word, and the rest is what the command leaves. -/
theorem step_issue (i : Instr) : step { s with inputs := [.txn (cmdWrite (encode i))] } =
    .next { complete (stageBody i { s with inputs := [] }) with cmd := encode i } :=
  (step_cmdWrite (s := { s with inputs := [.txn (cmdWrite (encode i))] }) hz hb rfl).trans
    (runCommand_startCommand (decode_encode i) { s with inputs := [] })

/-- A command that reaches its end lets the host issue the rest. -/
theorem hostIssues_cons_done {i : Instr} {t : State} (h : stageBody i { s with inputs := [] } = .done t)
    (rest : List Instr) : hostIssues (i :: rest) s = hostIssues rest (touch (encode i) false 0 t) := by
  have hread : (touch (encode i) false 0 t).errRead = 0 := (errRead_endWith (e := .none) t).2 rfl
  rw [hostIssues, step_issue hz hb, h]
  exact if_pos hread

/-- A command that raises is the last one the host issues. -/
theorem hostIssues_cons_raised {i : Instr} {e : ErrCode} {t : State}
    (h : stageBody i { s with inputs := [] } = .raised e t) (rest : List Instr) :
    hostIssues (i :: rest) s = .next { endWith e t with cmd := encode i } := by
  have hread : ({ endWith e t with cmd := encode i } : State).errRead ≠ 0 :=
    mt (errRead_endWith t).1 (raised_ne_none h)
  rw [hostIssues, step_issue hz hb, h]
  exact if_neg hread

theorem hostIssues_singleton (i : Instr) :
    hostIssues [i] s = .next { complete (stageBody i { s with inputs := [] }) with cmd := encode i } := by
  cases h : stageBody i { s with inputs := [] } with
  | done t => rw [hostIssues_cons_done hz hb h]; rfl
  | raised e t => rw [hostIssues_cons_raised hz hb h]; rfl

end

/-! ### Several `CMD` writes -/

theorem runStages_singleton (i : Instr) (s : State) : runStages [i] s = stageBody i s := andThen_runStages_nil _

theorem runStages_quiet (l : List Instr) : Quiet (runStages l) := by
  induction l with
  | nil => exact fun _ _ _ _ => rfl
  | cons i rest ih => exact (stageBody_quiet i).andThen ih

/-- Commands issued one after another leave what their pseudocodes, run one after another, leave: the outcome that each
records in between is not looked at by the next. -/
theorem hostIssues_eq_runStages (i : Instr) (rest : List Instr) {s : State} (hz : s.sizes.wf = true)
    (hb : s.busy = false) : ∃ c, hostIssues (i :: rest) s =
      .next { complete (runStages (i :: rest) { s with inputs := [] }) with cmd := c } := by
  induction rest generalizing i s with
  | nil => exact ⟨encode i, by rw [runStages_singleton]; exact hostIssues_singleton hz hb i⟩
  | cons j rest ih =>
    rw [runStages_cons]
    dsimp only
    cases h : stageBody i { s with inputs := [] } with
    | raised e t => exact ⟨encode i, hostIssues_cons_raised hz hb h _⟩
    | done t =>
      have hk : Kept { s with inputs := [] } t := by
        simpa [h] using stageBody_kept i { s with inputs := [] } hz
      have hpopped : { touch (encode i) false 0 t with inputs := [] } = touch (encode i) false 0 t :=
        congrArg (fun l => { touch (encode i) false 0 t with inputs := l }) hk.inputs.symm
      obtain ⟨c, hc⟩ := ih j (s := touch (encode i) false 0 t) (hk.sizes.symm ▸ hz) (busy_setBusy t false)
      refine ⟨c, (hostIssues_cons_done hz hb h _).trans (hc.trans ?_)⟩
      rw [hpopped, runStages_quiet, complete_map, andThen_done]

/-- A command of several stages, and its stages issued by the host: the same in all but `CMD`. -/
theorem hostIssues_command_and_stages {i j : Instr} {rest : List Instr} (hi : stagesOf i = j :: rest) {s : State}
    (hz : s.sizes.wf = true) (hb : s.busy = false) :
    ∃ t u, hostIssues [i] s = .next t ∧ hostIssues (j :: rest) s = .next u ∧ t.cmd = encode i ∧
      u = { t with cmd := u.cmd } := by
  obtain ⟨c, hc⟩ := hostIssues_eq_runStages j rest hz hb
  refine ⟨_, _, hostIssues_singleton hz hb i, hc, rfl, ?_⟩
  rw [stageBody_eq_runStages, hi]

/-- Settles O31: each pipeline is a command of several stages. -/
theorem pipelinesEqualTheirStages : Obligations.PipelinesEqualTheirStages :=
  fun _ hz hb => ⟨hostIssues_command_and_stages (i := .embmsg) rfl hz hb,
    hostIssues_command_and_stages (i := .extmsg) rfl hz hb⟩

end Sys2Proof.Proofs
end

section
/-! SUPPORT. `EMBMSG` as a command (spec 45_orchestration.md R120, R124): the framed message that its stages make, what is
embedded of it, and what a failing stage leaves. -/

namespace Sys2Proof.Machine

/-- The masked bytes and the key index are all that counts. -/
theorem Masked.of_eq {s t u : State} {f : Nat → Byte} (h : Masked s t f) (hbytes : u.bytebuf = t.bytebuf)
    (hkidx : u.xcKidx = t.xcKidx) : Masked s u f :=
  ⟨h.bytes, hbytes ▸ h.bytebuf, hkidx ▸ h.kidx⟩

end Sys2Proof.Machine

namespace Sys2Proof.Proofs
open Sys2Proof.Machine

/-! ### The framed message

The states are those of `framed`, which holds the bytes, the key index, the bits and their number. -/

/-- Where `MASK`'s tests pass, the bytes it leaves as a function. -/
theorem maskBody_masked {s : State} (hl : s.keyLen ≠ 0) (hk : s.keyLen.toNat ≤ s.sizes.keyMax)
    (hb : s.byteLen.toNat ≤ s.sizes.byteMax) :
    ∃ f bytes x c, maskBody s = .done (framed s bytes x s.bitbuf s.bitLen c) ∧
      Masked s (framed s bytes x s.bitbuf s.bitLen c) f := by
  obtain ⟨bytes, x, c, he, hmasked, hrest, hx, -⟩ := maskBody_done hl hk hb
  refine ⟨fun i => (Memory.get bytes i).getD 0, bytes, x, c, he, fun i hi => ?_, fun a => ?_, hx⟩
  · obtain ⟨b, k, hbyte, hkey, hget⟩ := hmasked i hi
    exact ⟨b, k, hbyte, hkey, by rw [hget, Option.getD_some]⟩
  · show Memory.get bytes a = _
    split
    case isTrue ha =>
      obtain ⟨b, k, -, -, hget⟩ := hmasked a ha
      rw [hget, Option.getD_some]
    case isFalse ha => exact hrest a (by omega)

/-- `TOBITS` after it: the bits are those of the masked bytes, which are all written. -/
theorem tobitsBody_masked {s : State} {f : Nat → Byte} {bytes : Memory 8} {x : Word} {c : Nat} (hz : s.sizes.wf = true)
    (hm : Masked s (framed s bytes x s.bitbuf s.bitLen c) f) (hb : s.byteLen.toNat ≤ s.sizes.byteMax)
    (hn : 8 * s.byteLen.toNat ≤ s.sizes.bitMax) :
    ∃ bits l c', tobitsBody (framed s bytes x s.bitbuf s.bitLen c) = .done (framed s bytes x bits l c') ∧
      l.toNat = 8 * s.byteLen.toNat ∧
      ∀ a, Memory.get bits a = if a < 8 * s.byteLen.toNat then some (payloadBit f a) else Memory.get s.bitbuf a := by
  obtain ⟨bits, l, c', g, he, hread, hl, hget, -⟩ :=
    tobitsBody_done (s := framed s bytes x s.bitbuf s.bitLen c) hz hb hn
  have hgf (i : Nat) (hi : i < s.byteLen.toNat) : g i = f i :=
    (hread i hi).eq ((hm.bytebuf i).trans (if_pos hi))
  refine ⟨bits, l, c', he, hl, fun a => (hget a).trans (if_ctx_congr Iff.rfl (fun ha => ?_) fun _ => rfl)⟩
  have ha : a < 8 * s.byteLen.toNat := ha
  rw [payloadBit_congr (hgf (a / 8) (by omega))]

/-- `t` holds the framed message of `s`: the masked bytes `f`, and their bits followed by the terminator. -/
structure FramedWith (s t : State) (f : Nat → Byte) : Prop where
  masked : Masked s t f
  bitLen : t.bitLen.toNat = 8 * s.byteLen.toNat + 32
  bitbuf : ∀ a, Memory.get t.bitbuf a =
    if a < 8 * s.byteLen.toNat then some (payloadBit f a)
    else if a < 8 * s.byteLen.toNat + 32 then some 0
    else Memory.get s.bitbuf a

/-- The stages before the capacity check, where their tests pass. -/
theorem framingStages_framedWith {s : State} (hz : s.sizes.wf = true) (hl : s.keyLen ≠ 0)
    (hk : s.keyLen.toNat ≤ s.sizes.keyMax) (hb : s.byteLen.toNat ≤ s.sizes.byteMax)
    (hn : 8 * s.byteLen.toNat + 32 ≤ s.sizes.bitMax) :
    ∃ f bytes x bits l c,
      ((maskBody s).andThen tobitsBody).andThen apptermBody = .done (framed s bytes x bits l c) ∧
      FramedWith s (framed s bytes x bits l c) f := by
  obtain ⟨f, bytes, x, c, hmask, hm⟩ := maskBody_masked hl hk hb
  obtain ⟨bits, l, c', htobits, hlen, hbits⟩ := tobitsBody_masked hz hm hb (by omega)
  obtain ⟨bits', l', happterm, hlen', hbits', -⟩ :=
    apptermBody_done (s := framed s bytes x bits l c') hz (hlen ▸ hn : l.toNat + 32 ≤ s.sizes.bitMax)
  have hlen' : l'.toNat = l.toNat + 32 := hlen'
  refine ⟨f, bytes, x, bits', l', c', ?_, hm.of_eq rfl rfl, hlen'.trans (by rw [hlen]), fun a => ?_⟩
  · rw [hmask, andThen_done, htobits, andThen_done]
    exact happterm
  · have happended : Memory.get bits' a =
        if l.toNat ≤ a ∧ a < l.toNat + 32 then some 0 else Memory.get bits a := hbits' a
    show Memory.get bits' a = _
    rw [happended, hbits, hlen]
    obtain ha | ha := lt_or_ge a (8 * s.byteLen.toNat)
    · simp [ha, ha.not_ge]
    · simp [ha, ha.not_gt]

/-! ### The whole command -/

/-- Settles O27: the capacity check passes, and `EMBED` writes every bit of the framed message, since the grid has at
least as many channels. -/
theorem embmsgEmbedsTheFramedMessage : Obligations.EmbmsgEmbedsTheFramedMessage := by
  refine ⟨decode_encode .embmsg, fun s hz hl hk hb hw hh hfits => ?_⟩
  have hg : s.gridOk = true := (gridOk_iff s).2 ⟨hw, hh⟩
  have hn : 8 * s.byteLen.toNat + 32 ≤ s.sizes.bitMax := hfits.trans (channels_le hz hg)
  obtain ⟨f, bytes, x, bits, l, c, hframing, hframed⟩ := framingStages_framedWith hz hl hk hb hn
  have hlen : l.toNat = 8 * s.byteLen.toNat + 32 := hframed.bitLen
  obtain ⟨cap, hcap, -, hcapchk⟩ :=
    (capchkBody_cases (s := framed s bytes x bits l c) hz).2 hg (hlen.trans_le hn)
  obtain ⟨pixels, cursor, c', hembed, hcursor, hembedded, hrest, -⟩ :=
    embedBody_done (s := { framed s bytes x bits l c with cap := cap }) hz hg (hlen.trans_le hn)
  have hall : min l.toNat s.channels = 8 * s.byteLen.toNat + 32 := by rw [hlen]; exact Nat.min_eq_left hfits
  have hbody : embmsgBody s = .done
      { framed s bytes x bits l c with cap := cap, pixmem := pixels, peCursor := cursor, freeCount := c' } := by
    rw [embmsgBody, hframing, andThen_done, hcapchk (hlen.trans_le hfits), andThen_done]
    exact hembed
  refine ⟨f, _, exec_of_done (i := .embmsg) hbody, hframed.masked.of_eq rfl rfl,
    hframed.bitbuf, hlen, hcap, hcursor.trans hall, fun k hk => ?_, fun a ha => ?_, rfl⟩
  · obtain ⟨v, b, hv, hbit, hget⟩ := hembedded k (hk.trans_eq hall.symm)
    refine ⟨v, b, hv, hbit.eq ((hframed.bitbuf k).trans ?_), hget⟩
    rw [if_pos hk]
    exact (apply_ite some _ _ _).symm
  · exact hrest a fun k hk => ha k (hk.trans_eq hall)

/-! ### The stage that raises -/

/-- One of the three stages that frame the message raises, and none after it runs. -/
theorem exec_embmsg_of_framing_raised {s t : State} {e : ErrCode}
    (h : ((maskBody s).andThen tobitsBody).andThen apptermBody = .raised e t) :
    exec .embmsg s = .next (t.ended e) :=
  exec_of_raised (i := .embmsg) (by rw [stageBody, embmsgBody, h, andThen_raised, andThen_raised])

/-- The capacity check of the framed message raises, and `EMBED` does not run. -/
theorem exec_embmsg_of_capchk_raised {s t u : State} {e : ErrCode}
    (h : ((maskBody s).andThen tobitsBody).andThen apptermBody = .done t) (hcapchk : capchkBody t = .raised e u) :
    exec .embmsg s = .next (u.ended e) :=
  exec_of_raised (i := .embmsg) (by rw [stageBody, embmsgBody, h, andThen_done, hcapchk, andThen_raised])

/-- Settles O28: each clause is one stage of R120's table, the stages before it having run to their ends. Where none
raises, `EMBMSG` completes as O27 says. -/
theorem embmsgStopsAtTheFailingStage : Obligations.EmbmsgStopsAtTheFailingStage := by
  intro s hz
  have hmaskRaised {e : ErrCode} (h : maskBody s = .raised e s) : exec .embmsg s = .next (s.ended e) :=
    exec_embmsg_of_framing_raised (by rw [h, andThen_raised, andThen_raised])
  refine ⟨fun h => hmaskRaised ((maskBody_raised s).1 h), fun h h' => hmaskRaised ((maskBody_raised s).2 h h'),
    fun hl hk hb => ?_⟩
  obtain hlong | hn := lt_or_ge s.sizes.bitMax (8 * s.byteLen.toNat + 32)
  · obtain ⟨f, bytes, x, c, hmask, hm⟩ := maskBody_masked hl hk hb
    obtain hlong' | hn := lt_or_ge s.sizes.bitMax (8 * s.byteLen.toNat)
    · -- `TOBITS` raises
      have htobits : tobitsBody (framed s bytes x s.bitbuf s.bitLen c) = .raised .bufferRange _ :=
        tobitsBody_raised (.inr hlong')
      have he := exec_embmsg_of_framing_raised (s := s) (by rw [hmask, andThen_done, htobits, andThen_raised])
      exact ⟨f, _, he, hm.of_eq rfl rfl, fun _ => rfl, fun h => absurd h (by omega), fun h => absurd h (by omega)⟩
    · -- `APPTERM` raises
      obtain ⟨bits, l, c', htobits, hlen, hget⟩ := tobitsBody_masked hz hm hb hn
      have happterm : apptermBody (framed s bytes x bits l c') = .raised .bufferRange _ :=
        apptermBody_raised (hlen ▸ hlong : s.sizes.bitMax < l.toNat + 32)
      have he := exec_embmsg_of_framing_raised (s := s) (by rw [hmask, andThen_done, htobits, andThen_done, happterm])
      exact ⟨f, _, he, hm.of_eq rfl rfl, fun h => absurd h (by omega), fun _ _ => ⟨hlen, hget, rfl⟩,
        fun h => absurd h (by omega)⟩
  · obtain ⟨f, bytes, x, bits, l, c, hframing, hframed⟩ := framingStages_framedWith hz hl hk hb hn
    obtain ⟨hm, hlen, hget⟩ := hframed
    have hlen : l.toNat = 8 * s.byteLen.toNat + 32 := hlen
    obtain ⟨hgridRaised, hinRange⟩ := capchkBody_cases (s := framed s bytes x bits l c) hz
    by_cases hgrid : s.gridW.toNat ≤ s.sizes.wMax ∧ s.gridH.toNat ≤ s.sizes.hMax
    · obtain ⟨hw, hh⟩ := hgrid
      obtain ⟨cap, hcap, hexceeded, -⟩ := hinRange ((gridOk_iff _).2 ⟨hw, hh⟩) (hlen.trans_le hn)
      obtain hfull | hfits := lt_or_ge s.channels (8 * s.byteLen.toNat + 32)
      · -- `CAPCHK` raises `CapacityExceeded`
        exact ⟨f, _, exec_embmsg_of_capchk_raised hframing (hexceeded (hfull.trans_eq hlen.symm)),
          hm.of_eq rfl rfl, fun h => absurd h (by omega), fun _ h => absurd h (by omega),
          fun _ _ => ⟨hlen, hget, fun h => absurd h (by omega), fun _ _ => ⟨hcap, rfl⟩⟩⟩
      · -- no stage raises
        obtain ⟨f, t, he, hm, -⟩ := embmsgEmbedsTheFramedMessage.2 s hz hl hk hb hw hh hfits
        rw [State.channels] at hfits
        exact ⟨f, t, he, hm, fun h => absurd h (by omega), fun _ h => absurd h (by omega),
          fun _ h => absurd h (by omega)⟩
    · -- `CAPCHK` raises `BufferRange`
      have hbad : (framed s bytes x bits l c).gridOk = false := (gridOk_eq_false_iff s).2 (by omega)
      exact ⟨f, _, exec_embmsg_of_capchk_raised hframing (hgridRaised (.inl hbad)),
        hm.of_eq rfl rfl, fun h => absurd h (by omega), fun _ h => absurd h (by omega),
        fun _ _ => ⟨hlen, hget, fun _ => rfl, fun hw hh => absurd ⟨hw, hh⟩ hgrid⟩⟩

end Sys2Proof.Proofs
end

section
/-! SUPPORT. `EXTMSG` as a command (spec 45_orchestration.md R121): its later stages run on from what an `EXTRACT` leaves,
pack the whole chunks of the bits and unmask them. -/

namespace Sys2Proof.Machine

section
variable {s t : State} {f : Nat → Bit} {n : Nat}

theorem Scanned.count_le (h : Scanned s t f n) : n ≤ s.channels := by
  obtain ⟨-, hn, -⟩ | ⟨-, hn, -⟩ := h.stop
  · exact hn
  · exact hn.le

theorem Scanned.bitLen_le (h : Scanned s t f n) : t.bitLen.toNat ≤ n := by
  obtain ⟨-, -, -, hlen⟩ | ⟨-, -, -, hlen⟩ := h.stop
  · omega
  · exact hlen.le

/-- The bits, their number, the cursor and the answer are all that counts. -/
theorem Scanned.of_eq {u : State} (h : Scanned s t f n) (hbits : u.bitbuf = t.bitbuf) (hlen : u.bitLen = t.bitLen)
    (hcursor : u.peCursor = t.peCursor) (hfound : u.found = t.found) : Scanned s u f n :=
  ⟨h.bits, hbits ▸ h.bitbuf, hcursor ▸ h.cursor, h.first, hlen ▸ hfound ▸ h.stop⟩

end
end Sys2Proof.Machine

namespace Sys2Proof.Proofs
open Sys2Proof.Machine

/-! ### The stages after the scan -/

/-- A stage that keeps what every stage keeps does the same, and leaves the same, from a state in which the end of the
command before it has been recorded. -/
theorem complete_endWith {B : State → Ending} (hquiet : Quiet B) {s : State} (hkept : Kept s (B s).state) :
    complete (B (endWith .none s)) = complete (B s) := by
  rw [endWith_eq_touch, hquiet, complete_map]
  obtain ⟨e, he⟩ := complete_eq_endWith (B s)
  rw [he, ← hkept.cmd]
  rfl

/-- `EXTMSG` runs `TOBYTES` and `MASK` on from what an `EXTRACT` leaves (R123). -/
theorem exec_extmsg_of_extract {s t : State} (hz : s.sizes.wf = true) (h : exec .extract s = .next t) (herr : t.err = 0) :
    exec .extmsg s = .next (complete ((tobytesBody t).andThen maskBody)) := by
  have ht : complete (extractBody s) = t := Host.Outcome.next.inj h
  cases hbody : extractBody s with
  | raised e u =>
    rw [hbody] at ht
    subst ht
    exact absurd ((code_eq_zero_iff e).1 herr) (raised_ne_none (i := .extract) hbody)
  | done u =>
    rw [hbody] at ht
    subst ht
    have hsizes : u.sizes = s.sizes := by simpa [hbody] using (extractBody_kept s hz).sizes
    have hkept := Kept.andThen tobytesBody_kept maskBody_kept u (hsizes.symm ▸ hz)
    rw [exec_eq, stageBody, extmsgBody, hbody, andThen_done]
    exact congrArg _ (complete_endWith (tobytesBody_quiet.andThen maskBody_quiet) hkept).symm

section
variable {t : State} {f : Nat → Bit}

/-- `TOBYTES` where the bits are written: the bytes of the whole chunks, as a function. -/
theorem tobytesBody_packed (hb : t.bitLen.toNat ≤ t.sizes.bitMax) (hn : t.bitLen.toNat / 8 ≤ t.sizes.byteMax)
    (hbits : ∀ a, a < t.bitLen.toNat → Memory.get t.bitbuf a = some (f a)) :
    ∃ bytes l c, tobytesBody t = .done { t with bytebuf := bytes, byteLen := l, freeCount := c } ∧
      l.toNat = t.bitLen.toNat / 8 ∧
      ∀ i, Memory.get bytes i = if i < l.toNat then some (packedByte f i) else Memory.get t.bytebuf i := by
  obtain ⟨bytes, l, c, g, he, hread, hl, hget, -⟩ := tobytesBody_done hb hn
  have hgf (a : Nat) (ha : a < 8 * (t.bitLen.toNat / 8)) : g a = f a := (hread a ha).eq (hbits a (by omega))
  refine ⟨bytes, l, c, he, hl, fun i => (hget i).trans ?_⟩
  rw [hl]
  exact if_ctx_congr Iff.rfl (fun hi => congrArg some (packedByte_congr fun j _ => hgf _ (by omega))) fun _ => rfl

/-- `TOBYTES` and `MASK` where the bits are written and both tests pass: the bytes of the whole chunks, unmasked. -/
theorem unpackStages_done (hb : t.bitLen.toNat ≤ t.sizes.bitMax) (hn : t.bitLen.toNat / 8 ≤ t.sizes.byteMax)
    (hbits : ∀ a, a < t.bitLen.toNat → Memory.get t.bitbuf a = some (f a)) (hl : t.keyLen ≠ 0)
    (hk : t.keyLen.toNat ≤ t.sizes.keyMax) :
    ∃ bytes l x c, (tobytesBody t).andThen maskBody =
        .done { t with bytebuf := bytes, byteLen := l, xcKidx := x, freeCount := c } ∧
      l.toNat = t.bitLen.toNat / 8 ∧
      (∀ i, i < l.toNat → ∃ k, Reads t.keymem (i % t.keyLen.toNat) k ∧
        Memory.get bytes i = some (packedByte f i ^^^ k)) ∧
      (∀ i, l.toNat ≤ i → Memory.get bytes i = Memory.get t.bytebuf i) ∧ x.toNat = l.toNat % t.keyLen.toNat := by
  obtain ⟨packed, l, c, htobytes, hlen, hpacked⟩ := tobytesBody_packed hb hn hbits
  obtain ⟨bytes, x, c', hmask, hmasked, hrest, hx, -⟩ :=
    maskBody_done (s := { t with bytebuf := packed, byteLen := l, freeCount := c }) hl hk (hlen.trans_le hn)
  refine ⟨bytes, l, x, c', by rw [htobytes, andThen_done, hmask], hlen, fun i hi => ?_, fun i hi => ?_, hx⟩
  · obtain ⟨b, k, hbyte, hkey, hget⟩ := hmasked i hi
    exact ⟨k, hkey, by rw [hget, hbyte.eq ((hpacked i).trans (if_pos hi))]⟩
  · rw [hrest i hi, hpacked, if_neg (not_lt.2 hi)]

end

/-! ### The whole command -/

/-- `s` after the scan of `extracted` and the stages after it: the bytes, their number, the key index and the outcome. -/
def recovered (s : State) (m : Memory 1) (n l : Nat) (found : Bool) (bytes : Memory 8) (l' x : Word) (c : Nat)
    (e : ErrCode) : State :=
  { s.ended e with
    bitbuf := m, bitLen := regOf l, peCursor := regOf n, bytebuf := bytes, byteLen := l', xcKidx := x,
    status := statusWithFound found (statusWithBusy false s.status), freeCount := c }

section
variable (s : State) (m : Memory 1) (n l : Nat) (found : Bool) (bytes : Memory 8) (l' x : Word) (c : Nat) (e : ErrCode)

theorem found_recovered : (recovered s m n l found bytes l' x c e).found = found :=
  statusWithFound_getLsbD found _ 1

/-- The later stages write nothing that the scan left but `BUSY` and `ERR`. -/
theorem ended_extracted (c' : Nat) :
    ({ extracted s m n l found c' with bytebuf := bytes, byteLen := l', xcKidx := x, freeCount := c } : State).ended e =
      recovered s m n l found bytes l' x c e := by
  simp only [State.ended, extracted, recovered, statusWithBusy_statusWithFound, statusWithBusy_twice]

variable {s m n l found bytes l' x c e}

theorem scanned_recovered {c' : Nat} {f : Nat → Bit} (h : Scanned s (extracted s m n l found c') f n) :
    Scanned s (recovered s m n l found bytes l' x c e) f n :=
  h.of_eq rfl rfl rfl ((found_recovered ..).trans (found_extracted ..).symm)

end

/-- A key that `MASK` does not take: the error is the one its first failing test raises (R142). -/
theorem maskBody_raised_of_key {s : State} (h : s.keyLen = 0 ∨ s.sizes.keyMax < s.keyLen.toNat) :
    maskBody s = .raised (if s.keyLen = 0 then .invalidKey else .bufferRange) s := by
  split
  case isTrue h0 => exact (maskBody_raised s).1 h0
  case isFalse h0 => exact (maskBody_raised s).2 h0 (.inl (h.resolve_left h0))

/-- Settles O29: the scan is that of `EXTRACT`, whose bits are written; the stages after it run on from there. -/
theorem extmsgRecoversTheBytes : Obligations.ExtmsgRecoversTheBytes := by
  refine ⟨decode_encode .extmsg, fun s hz => ⟨fun h => exec_of_raised (i := .extmsg) ?_, fun hw hh => ?_⟩⟩
  · rw [stageBody, extmsgBody, extractBody_raised ((gridOk_eq_false_iff s).2 h), andThen_raised, andThen_raised]
  obtain ⟨f, m, n, l, found, c, hextract, hscan⟩ := exec_extract_scanned hz hw hh
  have he := exec_extmsg_of_extract hz hextract rfl
  have hb : (regOf l).toNat ≤ s.sizes.bitMax :=
    hscan.bitLen_le.trans (hscan.count_le.trans (channels_le hz ((gridOk_iff s).2 ⟨hw, hh⟩)))
  have hbits (a : Nat) (ha : a < (regOf l).toNat) : Memory.get m a = some (f a) :=
    hscan.get_bitbuf (ha.trans_le hscan.bitLen_le)
  obtain hlong | hn := lt_or_ge s.sizes.byteMax ((regOf l).toNat / 8)
  case inl =>
    have htobytes : tobytesBody (extracted s m n l found c) = .raised .bufferRange _ := tobytesBody_raised (.inr hlong)
    rw [htobytes, andThen_raised, complete_raised, endWith_eq] at he
    have he := he.trans (congrArg _ (ended_extracted s m n l found s.bytebuf s.byteLen s.xcKidx c .bufferRange c))
    refine ⟨f, n, _, packedByte f, he, scanned_recovered hscan, fun i _ => packedByte_toNat f i, fun _ => ?_,
      fun h => absurd h (not_le.2 hlong)⟩
    rw [found_recovered]; rfl
  case inr =>
    by_cases hkey : s.keyLen = 0 ∨ s.sizes.keyMax < s.keyLen.toNat
    · obtain ⟨bytes, l', c', htobytes, hlen, hpacked⟩ :=
        tobytesBody_packed (t := extracted s m n l found c) hb hn hbits
      have hmask := maskBody_raised_of_key
        (s := { extracted s m n l found c with bytebuf := bytes, byteLen := l', freeCount := c' }) hkey
      rw [htobytes, andThen_done, hmask, complete_raised, endWith_eq] at he
      have he := he.trans (congrArg _ (ended_extracted s m n l found bytes l' s.xcKidx c' _ c))
      refine ⟨f, n, _, packedByte f, he, scanned_recovered hscan, fun i _ => packedByte_toNat f i,
        fun h => absurd h (not_lt.2 hn), fun _ => ⟨hlen, fun i hi => (hpacked i).trans (if_neg (not_lt.2 hi)),
          fun _ => ⟨fun i hi => (hpacked i).trans (if_pos hi), ?_⟩,
          fun hl hk => absurd hkey (not_or.2 ⟨hl, not_lt.2 hk⟩)⟩⟩
      rw [found_recovered]; rfl
    · obtain ⟨hl, hk⟩ := not_or.1 hkey
      obtain ⟨bytes, l', x, c', hstages, hlen, hunmasked, hrest, hx⟩ :=
        unpackStages_done (t := extracted s m n l found c) hb hn hbits hl (not_lt.1 hk)
      rw [hstages, complete_done, endWith_eq, ended_extracted] at he
      refine ⟨f, n, _, packedByte f, he, scanned_recovered hscan, fun i _ => packedByte_toNat f i,
        fun h => absurd h (not_lt.2 hn), fun _ => ⟨hlen, hrest, fun h => absurd h hkey, fun _ _ =>
          ⟨hunmasked, hx, ?_⟩⟩⟩
      rw [found_recovered]; rfl

/-- Settles O30: the bits of the scan are no more than the grid's channels, so their bytes fit, and the last clause of O29
is the one that holds. -/
theorem extmsgCompletesOnAnyGrid : Obligations.ExtmsgCompletesOnAnyGrid := by
  intro s hz hl hk hw hh hroom
  obtain ⟨f, n, t, g, he, hscan, -, -, hfits⟩ := (extmsgRecoversTheBytes.2 s hz).2 hw hh
  have hlen : t.bitLen.toNat ≤ 3 * s.gridW.toNat * s.gridH.toNat := hscan.bitLen_le.trans hscan.count_le
  obtain ⟨hbyteLen, -, -, hcompletes⟩ := hfits ((Nat.div_le_div_right hlen).trans hroom)
  obtain ⟨-, -, ht⟩ := hcompletes hl hk
  obtain ⟨e, hend⟩ := exec_next he
  exact ⟨t, he, (congrArg State.err ht).trans rfl, hend ▸ busy_setBusy _ false, (congrArg State.pixmem ht).trans rfl,
    hbyteLen, hlen⟩

end Sys2Proof.Proofs
end

section
/-! SUPPORT. The round trip of `EMBMSG` and `EXTMSG` (spec 45_orchestration.md R125). -/

namespace Sys2Proof.Proofs
open Sys2Proof.Machine

/-- The bits that `EMBMSG` embeds: those of the `m` masked bytes `f`, then zeros (R124). -/
def framedBits (f : Nat → Byte) (m k : Nat) : Bit := if k < 8 * m then payloadBit f k else 0

theorem framedBits_payload (f : Nat → Byte) {m k : Nat} (hk : k < 8 * m) : framedBits f m k = payloadBit f k :=
  if_pos hk

theorem framedBits_zeroRun (f : Nat → Byte) (m : Nat) : ZeroRun (framedBits f m) (8 * m) :=
  fun _ _ => if_neg (by omega)

/-- Packing a whole chunk of the payload gives its byte back. -/
theorem packedByte_framedBits (f : Nat → Byte) {m i : Nat} (hi : i < m) : packedByte (framedBits f m) i = f i :=
  (packedByte_congr fun _ _ => framedBits_payload f (by omega)).trans (packedByte_payloadBit f i)

/-- `NoEarlyTerm` looks at the payload alone (42_framing_terminator.md R96). -/
theorem noEarlyTerm_congr {f g : Nat → Bit} {p : Nat} (h : ∀ k, k < p → f k = g k) :
    NoEarlyTerm f p ↔ NoEarlyTerm g p := by
  refine or_congr_right' fun hp => and_congr (by rw [h _ (by omega)]) (forall₂_congr fun z hz => ?_)
  exact exists_congr fun j => and_congr_right fun hj => by rw [h _ (by omega)]

/-- The scan of the framed bits takes the whole payload exactly when `NoEarlyTerm` holds of it. -/
theorem firstZeroRun_framedBits_iff (f : Nat → Byte) (m : Nat) :
    FirstZeroRun (framedBits f m) (8 * m) ↔ NoEarlyTerm (payloadBit f) (8 * m) :=
  (firstZeroRun_payloadEnd_iff (framedBits_zeroRun f m)).trans
    (noEarlyTerm_congr fun _ hk => framedBits_payload f hk)

/-- `u` holds the whole bytes before the first run of 32 zeros in the framed bits of the `m` bytes `f`, unmasked with the
key of `s`, with no error and the terminator found. -/
structure UnmaskedTo (s : State) (f : Nat → Byte) (m : Nat) (u : State) : Prop where
  err : u.err = 0
  found : u.found = true
  cursor : u.peCursor.toNat = u.bitLen.toNat + 32
  first : FirstZeroRun (framedBits f m) u.bitLen.toNat
  byteLen : u.byteLen.toNat = u.bitLen.toNat / 8
  byte : ∀ i, i < u.byteLen.toNat → ∃ k, Reads s.keymem (i % s.keyLen.toNat) k ∧
    Memory.get u.bytebuf i = some (f i ^^^ k)

theorem UnmaskedTo.bitLen_le {s u : State} {f : Nat → Byte} {m : Nat} (h : UnmaskedTo s f m u) :
    u.bitLen.toNat ≤ 8 * m := h.first.le (framedBits_zeroRun f m)

/-- `EXTMSG` of a grid that holds the framed bits: it reads up to their first run of 32 zeros and unmasks the whole
bytes before it. -/
theorem exec_extmsg_of_framedBits {s : State} {f : Nat → Byte} {m : Nat} (hz : s.sizes.wf = true) (hl : s.keyLen ≠ 0)
    (hk : s.keyLen.toNat ≤ s.sizes.keyMax) (hm : m ≤ s.sizes.byteMax) (hg : s.gridOk = true)
    (hfits : 8 * m + 32 ≤ s.channels)
    (hgrid : ∀ k, k < 8 * m + 32 →
      ∃ v, Memory.get s.pixmem (pixCell s.sizes.nch k) = some (embedBit v (framedBits f m k))) :
    ∃ u, exec .extmsg s = .next u ∧ UnmaskedTo s f m u := by
  obtain ⟨t, hextract, hscan⟩ := exec_extract_stoppedAtFirstRun (bits := framedBits f m) hz hg hfits
    (fun k hk => by
      obtain ⟨v, hv⟩ := hgrid k hk
      exact ⟨_, hv, by rw [← channelBit_eq, channelBit_embedBit]⟩) (framedBits_zeroRun f m)
  have hlen : t.bitLen.toNat ≤ 8 * m := hscan.first.le (framedBits_zeroRun f m)
  obtain ⟨⟨hsizes, -, hkeyLen, -, -, hkeymem, -⟩, -⟩ := commandsWriteOnlyTheirRegisters _ _ _ hz hextract
  have hmax : t.bitLen.toNat ≤ t.sizes.bitMax := by
    rw [hsizes]
    exact (show t.bitLen.toNat ≤ s.channels by omega).trans (channels_le hz hg)
  obtain ⟨bytes, l, x, c, hstages, hl', hunmasked, -⟩ := unpackStages_done hmax (by rw [hsizes]; omega) hscan.bit
    (by rwa [hkeyLen]) (by rwa [hkeyLen, hsizes])
  refine ⟨_, exec_extmsg_of_extract hz hextract hscan.err, ?_⟩
  rw [hstages, complete_done]
  refine ⟨rfl, (found_setBusy _ false).trans hscan.found, hscan.cursor, hscan.first, hl', fun i hi => ?_⟩
  have hi : i < l.toNat := hi
  obtain ⟨k, hkey, hget⟩ := hunmasked i hi
  rw [hkeymem, hkeyLen] at hkey
  exact ⟨k, hkey, by rw [← packedByte_framedBits f (show i < m by omega)]; exact hget⟩

/-- Settles O42: the grid that `EMBMSG` leaves holds the framed bits, so `EXTMSG` unmasks with the same key the bytes
before their first run of 32 zeros. That run is the terminator, and the bytes are all of them, exactly when `NoEarlyTerm`
holds. -/
theorem roundTripRecoversTheMessage : Obligations.RoundTripRecoversTheMessage := by
  intro s hz hl hk hb _ hw hh hfits hkeys hbytes
  obtain ⟨f, t, hembmsg, hmasked, -, -, -, -, hgrid, -, ht⟩ :=
    embmsgEmbedsTheFramedMessage.2 s hz hl hk hb hw hh hfits
  refine ⟨f, t, hembmsg, (congrArg State.err ht).trans rfl, fun i hi => (hmasked.bytebuf i).trans (if_pos hi), ?_⟩
  intro t' hsizes hpixmem hkeyLen hgridW hgridH hkeymem
  have hg : t'.gridOk = true := (gridOk_iff t').2 (by rw [hsizes, hgridW, hgridH]; exact ⟨hw, hh⟩)
  have hframed (k : Nat) (hk : k < 8 * s.byteLen.toNat + 32) : ∃ v,
      Memory.get t'.pixmem (pixCell t'.sizes.nch k) = some (embedBit v (framedBits f s.byteLen.toNat k)) := by
    obtain ⟨v, b, -, rfl, hget⟩ := hgrid k hk
    exact ⟨v, by rw [hpixmem, hsizes]; exact hget⟩
  obtain ⟨u, hextmsg, hu⟩ := exec_extmsg_of_framedBits (by rwa [hsizes]) (by rwa [hkeyLen]) (by rwa [hkeyLen, hsizes])
    (by rwa [hsizes]) hg (by rwa [State.channels, hgridW, hgridH]) hframed
  have hle : u.bitLen.toNat ≤ 8 * s.byteLen.toNat := hu.bitLen_le
  obtain ⟨herr, hfound, hcursor, hfirst, hbyteLen, hunmasked⟩ := hu
  refine ⟨u, hextmsg, herr, hfound, fun i hi => ?bytes, fun hnoEarly => ?whole, fun hearly => ?shorter⟩
  case bytes =>
    obtain ⟨b, k, hbyte, hkey, hf⟩ := hmasked.bytes i (by omega)
    obtain ⟨b', hb'⟩ := hbytes i (by omega)
    obtain ⟨k', hk'⟩ := hkeys _ (mod_keyLen_lt hl i)
    obtain ⟨k'', hkey'', hget⟩ := hunmasked i hi
    rw [hkeyLen] at hkey''
    rw [hget, hf, hb', hbyte.eq hb', hkey.eq hk', hkey''.eq ((hkeymem _ (mod_keyLen_lt hl i)).trans hk'),
      BitVec.xor_assoc, BitVec.xor_self, BitVec.xor_zero]
  case whole =>
    have hlen := hfirst.unique ((firstZeroRun_framedBits_iff f _).2 hnoEarly)
    exact BitVec.eq_of_toNat_eq (by omega)
  case shorter =>
    have hne : u.bitLen.toNat ≠ 8 * s.byteLen.toNat :=
      fun h => hearly ((firstZeroRun_framedBits_iff f _).1 (h ▸ hfirst))
    omega

end Sys2Proof.Proofs
end

section
/-! SUPPORT. How a command ends (spec 60_exceptions.md): the error each stage's pseudocode ends with, the stage that
stops a pipeline, and what the commands that R135's table names may raise and leave. -/

namespace Sys2Proof.Machine

/-- The outcome that the last line of the command records. -/
def Ending.error : Ending → ErrCode
  | .done _ => .none
  | .raised e _ => e

@[simp] theorem error_done (s : State) : (Ending.done s).error = .none := rfl

@[simp] theorem error_raised (e : ErrCode) (s : State) : (Ending.raised e s).error = e := rfl

end Sys2Proof.Machine

namespace Sys2Proof.Proofs
open Sys2Proof.Machine

/-! ### The outcome recorded -/

theorem complete_eq_endWith_error (a : Ending) : complete a = endWith a.error a.state := by cases a <;> rfl

theorem code_eq_three_iff (e : ErrCode) : e.code = 3 ↔ e = .bufferRange := by cases e <;> decide

theorem complete_bufferRange_iff (a : Ending) : (complete a).err = 3 ↔ a.error = .bufferRange := by
  rw [complete_eq_endWith_error, endWith_err, code_eq_three_iff]

/-! ### The error of each stage (R137, R143, R144) -/

theorem error_ite_raise {p : Prop} [Decidable p] (e : ErrCode) (s : State) (a : Ending) :
    (if p then raise e s else a).error = if p then e else a.error := by
  split <;> rfl

theorem maskBody_error (s : State) : (maskBody s).error =
    if s.keyLen = 0 then .invalidKey
    else if s.sizes.keyMax < s.keyLen.toNat ∨ s.sizes.byteMax < s.byteLen.toNat then .bufferRange
    else .none := by
  rw [maskBody, error_ite_raise, error_ite_raise, error_done]

theorem tobitsBody_error (s : State) : (tobitsBody s).error =
    if s.sizes.byteMax < s.byteLen.toNat ∨ s.sizes.bitMax < 8 * s.byteLen.toNat then .bufferRange else .none := by
  rw [tobitsBody, error_ite_raise, error_done]

theorem tobytesBody_error (s : State) : (tobytesBody s).error =
    if s.sizes.bitMax < s.bitLen.toNat ∨ s.sizes.byteMax < s.bitLen.toNat / 8 then .bufferRange else .none := by
  rw [tobytesBody, error_ite_raise, error_done]

theorem apptermBody_error (s : State) : (apptermBody s).error =
    if s.sizes.bitMax < s.bitLen.toNat + 32 then .bufferRange else .none := by
  rw [apptermBody, error_ite_raise, error_done]

theorem detstripBody_error (s : State) : (detstripBody s).error =
    if s.sizes.bitMax < s.bitLen.toNat then .bufferRange else .none := by
  rw [detstripBody, error_ite_raise, apply_ite Ending.error, error_done, error_done, ite_self]

theorem capchkBody_error (s : State) : (capchkBody s).error =
    if s.gridOk = false ∨ s.sizes.bitMax < s.bitLen.toNat then .bufferRange
    else if (regOf s.channels).toNat < s.bitLen.toNat then .capacityExceeded
    else .none := by
  rw [capchkBody, error_ite_raise, error_ite_raise, error_done]

theorem embedBody_error (s : State) : (embedBody s).error =
    if s.gridOk = false ∨ s.sizes.bitMax < s.bitLen.toNat then .bufferRange else .none := by
  rw [embedBody, error_ite_raise, error_done]

theorem extractBody_error (s : State) : (extractBody s).error =
    if s.gridOk = false then .bufferRange else .none := by
  rw [extractBody, error_ite_raise, error_done]

theorem ite_bufferRange_iff {p : Prop} [Decidable p] {e : ErrCode} (he : e ≠ .bufferRange) :
    (if p then .bufferRange else e) = .bufferRange ↔ p := by
  split <;> simp [*]

/-- Settles O45: the outcome recorded is the error of the pseudocode, and each condition is its range test. -/
theorem bufferRangeConditions : Obligations.BufferRangeConditions := by
  intro s _
  refine ⟨_, _, _, _, _, _, _, _, rfl, (complete_bufferRange_iff _).trans ?mask,
    rfl, (complete_bufferRange_iff _).trans ?tobits, rfl, (complete_bufferRange_iff _).trans ?tobytes,
    rfl, (complete_bufferRange_iff _).trans ?appterm, rfl, (complete_bufferRange_iff _).trans ?detstrip,
    rfl, (complete_bufferRange_iff _).trans ?capchk, rfl, (complete_bufferRange_iff _).trans ?embed,
    rfl, (complete_bufferRange_iff _).trans ?extract⟩
  case mask =>
    rw [maskBody_error]
    by_cases hkey : s.keyLen = 0
    · simp [hkey]
    · rw [if_neg hkey, ite_bufferRange_iff (by decide)]
      exact (and_iff_right hkey).symm
  case tobits => rw [tobitsBody_error, ite_bufferRange_iff (by decide)]
  case tobytes => rw [tobytesBody_error, ite_bufferRange_iff (by decide)]
  case appterm => rw [apptermBody_error, ite_bufferRange_iff (by decide)]
  case detstrip => rw [detstripBody_error, ite_bufferRange_iff (by decide)]
  case capchk =>
    rw [capchkBody_error, ← or_assoc, ← gridOk_eq_false_iff, ite_bufferRange_iff (by split <;> nofun)]
  case embed => rw [embedBody_error, ← or_assoc, ← gridOk_eq_false_iff, ite_bufferRange_iff (by decide)]
  case extract => rw [extractBody_error, ← gridOk_eq_false_iff, ite_bufferRange_iff (by decide)]

/-! ### Which stage raises which error (R135) -/

/-- The errors of R135's table, read by stages. As in `stageWrites`, the two pipelines are covered by their stages. -/
def stageErrors : Instr → List ErrCode
  | .mask => [.invalidKey, .bufferRange]
  | .capchk => [.bufferRange, .capacityExceeded]
  | .tobits | .tobytes | .appterm | .detstrip | .embed | .extract => [.bufferRange]
  | .nop | .embmsg | .extmsg => []

/-- R135's table as it stands: the commands that raise the error. `IllegalCommand` is the decoder's (R136). -/
def raisers : ErrCode → List Instr
  | .invalidKey => [.mask, .embmsg, .extmsg]
  | .capacityExceeded => [.capchk, .embmsg]
  | .bufferRange =>
    [.mask, .tobits, .tobytes, .appterm, .detstrip, .capchk, .embed, .extract, .embmsg, .extmsg]
  | .none | .illegalCommand => []

/-- The table agrees with what the stages raise. -/
theorem exists_stageErrors_iff {i : Instr} {e : ErrCode} : (∃ j ∈ stagesOf i, e ∈ stageErrors j) ↔ i ∈ raisers e := by
  cases e <;> cases i <;> simp [stagesOf, stageErrors, raisers]

theorem stage_error_mem {i : Instr} (h : stagesOf i = [i]) (s : State) :
    (stageBody i s).error ∈ ErrCode.none :: stageErrors i := by
  cases i <;> rw [stageBody]
  case nop => simp
  case mask => rw [maskBody_error]; split_ifs <;> simp [stageErrors]
  case tobits => rw [tobitsBody_error]; split <;> simp [stageErrors]
  case tobytes => rw [tobytesBody_error]; split <;> simp [stageErrors]
  case appterm => rw [apptermBody_error]; split <;> simp [stageErrors]
  case detstrip => rw [detstripBody_error]; split <;> simp [stageErrors]
  case capchk => rw [capchkBody_error]; split_ifs <;> simp [stageErrors]
  case embed => rw [embedBody_error]; split <;> simp [stageErrors]
  case extract => rw [extractBody_error]; split <;> simp [stageErrors]
  case embmsg => simp [stagesOf] at h
  case extmsg => simp [stagesOf] at h

theorem stage_raised_mem {i : Instr} (h : stagesOf i = [i]) {s t : State} {e : ErrCode}
    (he : stageBody i s = .raised e t) : e ∈ stageErrors i := by
  have hmem := stage_error_mem h s
  rw [he] at hmem
  exact (List.mem_cons.1 hmem).resolve_left (raised_ne_none he)

/-- A run of stages that raises was stopped by one of them, those before it having run to their ends (R120, R141). -/
theorem runStages_raised {l : List Instr} {s t : State} {e : ErrCode} (h : runStages l s = .raised e t) :
    ∃ before i after u, l = before ++ i :: after ∧ runStages before s = .done u ∧ stageBody i u = .raised e t := by
  induction l generalizing s with
  | nil => cases h
  | cons i rest ih =>
    rw [runStages] at h
    cases hi : stageBody i s with
    | raised e' t' =>
      rw [hi, andThen_raised] at h
      exact ⟨[], i, rest, s, rfl, rfl, hi.trans h⟩
    | done u =>
      rw [hi, andThen_done] at h
      obtain ⟨before, j, after, v, rfl, hbefore, hj⟩ := ih h
      exact ⟨i :: before, j, after, v, rfl, by rw [runStages, hi, andThen_done, hbefore], hj⟩

theorem stageBody_raised_mem_raisers {i : Instr} {s t : State} {e : ErrCode} (h : stageBody i s = .raised e t) :
    i ∈ raisers e := by
  rw [stageBody_eq_runStages] at h
  obtain ⟨before, j, after, u, hl, -, hj⟩ := runStages_raised h
  have hmem : j ∈ stagesOf i := by simp [hl]
  exact exists_stageErrors_iff.1 ⟨j, hmem, stage_raised_mem (stagesOf_stage i j hmem) hj⟩

/-- Settles O44: a pseudocode that raises is that of a command R135's table names for the error. -/
theorem everyCommandEndsWithAListedCode : Obligations.EveryCommandEndsWithAListedCode := by
  intro i s _
  have hidle : (complete (stageBody i s)).busy = false := by
    rw [complete_eq_endWith_error]
    exact busy_setBusy _ false
  refine ⟨_, exec_eq i s, hidle, ?_⟩
  cases h : stageBody i s with
  | done t => exact .inl rfl
  | raised e t =>
    have hi := stageBody_raised_mem_raisers h
    cases e with
    | none => simp [raisers] at hi
    | invalidKey => exact .inr (.inl ⟨rfl, by simpa [raisers] using hi⟩)
    | capacityExceeded => exact .inr (.inr (.inl ⟨rfl, by simpa [raisers] using hi⟩))
    | bufferRange => exact .inr (.inr (.inr ⟨rfl, by rintro rfl; simp [raisers] at hi⟩))
    | illegalCommand => simp [raisers] at hi

/-! ### The grid when a command fails (R141) -/

/-- Of the stages, only `EMBED` writes the grid. -/
theorem stage_pixmem {i : Instr} (hi : stagesOf i = [i]) (hne : i ≠ .embed) {s : State} (hz : s.sizes.wf = true) :
    (stageBody i s).state.pixmem = s.pixmem := by
  cases i <;> rw [stageBody]
  case nop => rfl
  case mask =>
    by_cases h : s.keyLen = 0
    · rw [(maskBody_raised s).1 h, state_raised]
    by_cases h' : s.sizes.keyMax < s.keyLen.toNat ∨ s.sizes.byteMax < s.byteLen.toNat
    · rw [(maskBody_raised s).2 h h', state_raised]
    obtain ⟨m, x, c, he, -⟩ := maskBody_done (s := s) h (by omega) (by omega)
    rw [he, state_done]
  case tobits =>
    by_cases h : s.sizes.byteMax < s.byteLen.toNat ∨ s.sizes.bitMax < 8 * s.byteLen.toNat
    · rw [tobitsBody_raised h, state_raised]
    obtain ⟨m, l, c, f, he, -⟩ := tobitsBody_done (s := s) hz (by omega) (by omega)
    rw [he, state_done]
  case tobytes =>
    by_cases h : s.sizes.bitMax < s.bitLen.toNat ∨ s.sizes.byteMax < s.bitLen.toNat / 8
    · rw [tobytesBody_raised h, state_raised]
    obtain ⟨m, l, c, f, he, -⟩ := tobytesBody_done (s := s) (by omega) (by omega)
    rw [he, state_done]
  case appterm =>
    by_cases h : s.sizes.bitMax < s.bitLen.toNat + 32
    · rw [apptermBody_raised h, state_raised]
    obtain ⟨m, l, he, -⟩ := apptermBody_done (s := s) hz (by omega)
    rw [he, state_done]
  case detstrip =>
    by_cases h : s.sizes.bitMax < s.bitLen.toNat
    · rw [detstripBody_raised h, state_raised]
    obtain ⟨f, c, -, ⟨-, l, -, he⟩ | ⟨-, he⟩⟩ := detstripBody_done (s := s) (by omega)
    all_goals rw [he, state_done]
  case capchk =>
    obtain ⟨c, hc⟩ := capchkBody_state hz
    rw [hc]
  case embed => exact absurd rfl hne
  case extract =>
    by_cases h : s.gridOk = false
    · rw [extractBody_raised h, state_raised]
    obtain ⟨f, m, c, k, -, -, -, -, ⟨-, -, he⟩ | ⟨-, he⟩, -⟩ := extractBody_done (s := s) hz (by simpa using h)
    all_goals
      rw [he]
      rfl
  case embmsg => simp [stagesOf] at hi
  case extmsg => simp [stagesOf] at hi

/-- Stages without an `EMBED` leave the parameters and the grid alone. -/
theorem runStages_pixmem {l : List Instr} (hl : ∀ i ∈ l, stagesOf i = [i] ∧ i ≠ .embed) {s u : State}
    (hz : s.sizes.wf = true) (h : runStages l s = .done u) : u.sizes = s.sizes ∧ u.pixmem = s.pixmem := by
  induction l generalizing s with
  | nil => cases h; exact ⟨rfl, rfl⟩
  | cons i rest ih =>
    obtain ⟨⟨hi, hne⟩, hrest⟩ := List.forall_mem_cons.1 hl
    have hkept := (stageBody_kept i s hz).sizes
    have hgrid := stage_pixmem hi hne hz
    rw [runStages] at h
    cases he : stageBody i s with
    | raised e t => rw [he] at h; cases h
    | done t =>
      rw [he] at h hkept hgrid
      obtain ⟨hsizes, hpixmem⟩ := ih hrest (hkept.symm ▸ hz) h
      exact ⟨hsizes.trans hkept, hpixmem.trans hgrid⟩

/-- A stage that raises has written nothing to the grid: `EMBED` tests its ranges before it writes. -/
theorem stage_raised_pixmem {i : Instr} (h : stagesOf i = [i]) {s t : State} {e : ErrCode} (hz : s.sizes.wf = true)
    (he : stageBody i s = .raised e t) : t.pixmem = s.pixmem := by
  by_cases hi : i = .embed
  · subst hi
    rw [stageBody, embedBody] at he
    split at he <;> cases he
    rfl
  · have hgrid := stage_pixmem h hi hz
    rwa [he] at hgrid

/-- No stage runs after an `EMBED`. -/
theorem embed_not_mem_before {i j : Instr} {before after : List Instr} (h : stagesOf i = before ++ j :: after) :
    .embed ∉ before := by
  have hlast : .embed ∉ (stagesOf i).dropLast := by cases i <;> decide
  rw [h, List.dropLast_append_cons] at hlast
  exact fun hmem => hlast (List.mem_append_left _ hmem)

/-- Settles O47: the stages before the one that raises do not write the grid, and neither does that one. -/
theorem failingCommandsLeaveTheGridAlone : Obligations.FailingCommandsLeaveTheGridAlone := by
  intro i s t hz hexec herr
  obtain rfl : complete (stageBody i s) = t := Host.Outcome.next.inj ((exec_eq i s).symm.trans hexec)
  cases h : stageBody i s with
  | done u => rw [h] at herr; exact absurd rfl herr
  | raised e u =>
    rw [stageBody_eq_runStages] at h
    obtain ⟨before, j, after, v, hl, hbefore, hj⟩ := runStages_raised h
    have hstage (k : Instr) (hk : k ∈ before ++ j :: after) : stagesOf k = [k] := stagesOf_stage i k (hl ▸ hk)
    have hnoEmbed := embed_not_mem_before hl
    obtain ⟨hsizes, hpixmem⟩ := runStages_pixmem
      (fun k hk => ⟨hstage k (List.mem_append_left _ hk), fun he => hnoEmbed (he ▸ hk)⟩) hz hbefore
    rw [complete_raised, endWith_pixmem, ← hpixmem]
    exact stage_raised_pixmem (hstage j (by simp)) (hsizes.symm ▸ hz) hj

/-! ### An idle block, and the error that wins (R142, R150) -/

/-- Settles O13: nothing is offered, or an input that only has to be taken. -/
theorem idleBlockKeepsItsState : Obligations.IdleBlockKeepsItsState := by
  refine fun s rest hz hb => ⟨fun hi => ?_, fun hi => ?_⟩
  · rw [step_noInput hz hi, hb]
    rfl
  · rw [step_idle hz hb hi, idleInput]

/-- Settles O46: each of the four is the first test of its command, the first clause of its statement. -/
theorem errorPriority : Obligations.ErrorPriority := by
  refine fun s hz => ⟨fun hkey => ?_, fun hgrid => ?_⟩
  · exact ⟨_, _, (maskXorsWithTheCyclicKey.2 s hz).1 hkey, rfl, (embmsgStopsAtTheFailingStage s hz).1 hkey, rfl⟩
  · exact ⟨_, _, (capchkComparesWithTheCapacity.2 s hz).1 (or_assoc.1 (.inl hgrid)), rfl,
      (extmsgRecoversTheBytes.2 s hz).1 hgrid, rfl⟩

end Sys2Proof.Proofs
end

section
/-! SUPPORT. Reset (spec 70_reset_and_hazards.md): the pin `rst` of an idle and of a running block, and what each
command does in the state that power-on reset leaves. -/

namespace Sys2Proof.Proofs
open Sys2Proof.Machine

/-! ### The state after reset (R156) -/

/-- A command that ends in a state with `BUSY` 0 records its error there, and nothing else. -/
theorem ended_of_idle {s : State} (hb : s.busy = false) (e : ErrCode) : s.ended e = { s with err := e.code } := by
  rw [State.ended, statusWithBusy_of_idle hb]

section
variable (z : Sizes)

theorem busy_resetOf : (State.resetOf z).busy = false := by simp [State.busy, State.resetOf]

theorem found_resetOf : (State.resetOf z).found = false := by simp [State.found, State.resetOf]

/-- In the reset state `FOUND` is 0 already. -/
theorem setFound_resetOf : State.setFound (State.resetOf z) false = State.resetOf z := by
  have hstatus := statusWithFound_self (State.resetOf z)
  rw [found_resetOf] at hstatus
  rw [State.setFound, hstatus]

end

/-- Settles O52: one script of the outside after reset is the empty one. -/
theorem resetMeetsTheInvariant : Obligations.ResetMeetsTheInvariant := fun _ hz => resetOf_inv hz []

/-! ### The pin `rst` (R156, R157, R159) -/

/-- Settles O15: `State.resetOf` lists the values, and `resetRegs` is what an idle block does with `rst`. -/
theorem resetClearsEveryRegister : Obligations.ResetClearsEveryRegister := by
  refine ⟨fun z => ⟨rfl, rfl, rfl, rfl, rfl, rfl, rfl, rfl, rfl, rfl, rfl, busy_resetOf z⟩, fun s rest hz hb hi => ?_⟩
  rw [step_idle hz hb hi, idleInput, resetRegs]

/-- A reset while a command runs stops the command and then resets the registers. -/
theorem step_reset_of_busy {s : State} {i : Instr} {rest : List Input} (hz : s.sizes.wf = true) (hb : s.busy = true)
    (hd : decode s.cmd = .ok i) (hi : s.inputs = .reset :: rest) :
    step s = .next (resetRegs (tear i { s with inputs := rest })) := by
  rw [step_busy hz hb hi, busyInput, tornReset, hd]

/-- A cell that the stopped command does not write is unchanged. -/
theorem hostCell_tear_unwritten {i : Instr} {s : State} {m : MemId} {a : Nat} (h : writesCell i s m a = false) :
    hostCell (tear i s) m a = hostCell s m a := by
  refine hostCell_congr (fun _ => rfl) ?_ ?_ ?_
  all_goals
    rintro rfl
    simp only [tear_bytebuf, tear_bitbuf, tear_pixmem, get_tornCells_unwritten h]

/-- A channel that held a value holds it still, with bits 7:1 kept where the stopped command writes it. -/
theorem get_pixmem_tear (i : Instr) {s : State} {a : Nat} {v : Byte} (h : Memory.get s.pixmem a = some v) :
    Memory.get (tear i s).pixmem a = some v ∨ ∃ b, Memory.get (tear i s).pixmem a = some (embedBit v b) := by
  rw [tear_pixmem]
  refine (get_tornCells i s .pixmem _ s.pixmem a).imp (fun hkept => hkept.trans h) fun ⟨_, hwritten⟩ => ?_
  rw [h] at hwritten
  exact ⟨_, hwritten⟩

/-- Settles O17: the registers are those of `resetRegs`, the cells those of `tear`, whose counter is one beyond the one
that the command run to its end leaves. -/
theorem resetDuringACommand : Obligations.ResetDuringACommand := by
  intro s i rest hz hb hd hi
  have hstep := step_reset_of_busy hz hb hd hi
  have hdraws := stageBody_draws i { s with inputs := rest }
  refine ⟨_, hstep, rfl, fun m a => hostCell_tear_unwritten, fun m a => writtenCellsStayWritten s _ m a hstep,
    fun a v hv => ?channel, Nat.lt_succ_of_le hdraws, fun u hu => ?counter⟩
  case channel =>
    obtain hkept | ⟨b, hwritten⟩ := get_pixmem_tear i (s := { s with inputs := rest }) hv
    · exact ⟨v, hkept, rfl⟩
    · exact ⟨_, hwritten, embedBit_high v b⟩
  case counter =>
    obtain ⟨e, rfl⟩ := exec_next hu
    exact Nat.lt_succ_self _

/-! ### The commands after reset (R158) -/

/-- A command that changes neither `BUSY` nor `ERR`, which are 0: recording its end changes nothing. -/
theorem exec_of_done_idle {i : Instr} {s t : State} (h : stageBody i s = .done t) (hb : t.busy = false)
    (herr : t.err = 0) : exec i s = .next t := by
  have hrecorded : { t with err := ErrCode.none.code } = t := by rw [ErrCode.code, ← herr]
  rw [exec_of_done h, ended_of_idle hb, hrecorded]

theorem exec_resetOf_of_done {i : Instr} {z : Sizes} (h : stageBody i (State.resetOf z) = .done (State.resetOf z)) :
    exec i (State.resetOf z) = .next (State.resetOf z) :=
  exec_of_done_idle h (busy_resetOf z) rfl

theorem exec_resetOf_of_raised {i : Instr} {z : Sizes} {e : ErrCode}
    (h : stageBody i (State.resetOf z) = .raised e (State.resetOf z)) :
    exec i (State.resetOf z) = .next { State.resetOf z with err := e.code } := by
  rw [exec_of_raised h, ended_of_idle (busy_resetOf z)]

/-- A cell written beyond the listed ones is listed last. -/
theorem set_of_inside {w : Nat} {m : Memory w} {i : Nat} (h : Memory.inside m i) (v : BitVec w) :
    Memory.set m i v = m ++ [(i, v)] := by
  induction m with
  | nil => rfl
  | cons c rest ih =>
    obtain ⟨hc, hrest⟩ := List.forall_mem_cons.1 h
    rw [Memory.set, if_pos hc, ih hrest, List.cons_append]

/-- `APPTERM`'s loop on an empty `BITBUF` lists the first `n` cells. -/
theorem apptermLoop_resetOf (z : Sizes) (n : Nat) :
    forUpTo n (fun j u => writeBit (u.bitLen.toNat + j) 0 u) (State.resetOf z) =
      { State.resetOf z with bitbuf := (List.range n).map fun j => (j, 0#1) } := by
  induction n with
  | zero => rfl
  | succ n ih =>
    have hinside : Memory.inside ((List.range n).map fun j => (j, 0#1)) n := by simp
    have hset : Memory.set ((List.range n).map fun j => (j, 0#1)) (0 + n) 0 =
        (List.range (n + 1)).map fun j => (j, 0#1) := by
      rw [Nat.zero_add, set_of_inside hinside, List.range_succ, List.map_append]
      rfl
    rw [forUpTo_succ, ih, ← hset]
    rfl

section
variable (z : Sizes)

theorem gridOk_resetOf : (State.resetOf z).gridOk = true := (gridOk_iff _).2 ⟨Nat.zero_le _, Nat.zero_le _⟩

/-- The bits in the accumulator, of which there are none, fit. -/
theorem bitLen_resetOf_le : (State.resetOf z).bitLen.toNat ≤ (State.resetOf z).sizes.bitMax := Nat.zero_le _

theorem tobitsBody_resetOf : tobitsBody (State.resetOf z) = .done (State.resetOf z) := by
  have hlen : (State.resetOf z).byteLen.toNat = 0 := rfl
  rw [tobitsBody, if_neg (by omega)]
  rfl

theorem tobytesBody_resetOf : tobytesBody (State.resetOf z) = .done (State.resetOf z) := by
  have hlen : (State.resetOf z).bitLen.toNat = 0 := rfl
  rw [tobytesBody, if_neg (by omega)]
  simp only [hlen, Nat.zero_div, forUpTo_zero]
  rfl

theorem detstripBody_resetOf : detstripBody (State.resetOf z) = .done (State.resetOf z) := by
  have hterm : termTest (State.resetOf z).bitLen.toNat (State.resetOf z) = (false, State.resetOf z) := rfl
  rw [detstripBody, if_neg (not_lt.2 (bitLen_resetOf_le z)), hterm]
  exact congrArg _ (setFound_resetOf z)

theorem capchkBody_resetOf : capchkBody (State.resetOf z) = .done (State.resetOf z) := by
  rw [capchkBody, gridOk_resetOf, if_neg (not_or.2 ⟨nofun, not_lt.2 (bitLen_resetOf_le z)⟩)]
  rfl

theorem embedBody_resetOf : embedBody (State.resetOf z) = .done (State.resetOf z) := by
  rw [embedBody, gridOk_resetOf, if_neg (not_or.2 ⟨nofun, not_lt.2 (bitLen_resetOf_le z)⟩)]
  rfl

theorem extractBody_resetOf : extractBody (State.resetOf z) = .done (State.resetOf z) := by
  rw [extractBody, gridOk_resetOf, if_neg nofun]
  exact congrArg _ (setFound_resetOf z)

theorem maskBody_resetOf : maskBody (State.resetOf z) = .raised .invalidKey (State.resetOf z) :=
  (maskBody_raised _).1 rfl

theorem embmsgBody_resetOf : embmsgBody (State.resetOf z) = .raised .invalidKey (State.resetOf z) := by
  simp only [embmsgBody, maskBody_resetOf, andThen_raised]

theorem extmsgBody_resetOf : extmsgBody (State.resetOf z) = .raised .invalidKey (State.resetOf z) := by
  rw [extmsgBody, extractBody_resetOf, andThen_done, tobytesBody_resetOf, andThen_done, maskBody_resetOf]

variable {z}

theorem apptermBody_resetOf (hz : z.wf = true) : apptermBody (State.resetOf z) =
    .done { State.resetOf z with bitbuf := (List.range 32).map fun j => (j, 0#1), bitLen := 32 } := by
  have hroom : ¬ (State.resetOf z).sizes.bitMax < (State.resetOf z).bitLen.toNat + 32 :=
    not_lt.2 ((Sizes.wf_iff z).1 hz).2.2.1.1
  rw [apptermBody, if_neg hroom, apptermLoop_resetOf]
  rfl

end

/-- Settles O16: every length and the grid are 0, so that no loop runs but `APPTERM`'s; and the key is empty. -/
theorem commandsAfterReset : Obligations.CommandsAfterReset := by
  rintro z r hz rfl
  refine ⟨?nop, ?mask, ?embmsg, ?tobits, ?tobytes, ?appterm, ?detstrip, ?capchk, ?embed, ?extract, ?extmsg⟩
  case nop => exact exec_resetOf_of_done rfl
  case mask => exact exec_resetOf_of_raised (i := .mask) (maskBody_resetOf z)
  case embmsg => exact exec_resetOf_of_raised (i := .embmsg) (embmsgBody_resetOf z)
  case tobits => exact exec_resetOf_of_done (tobitsBody_resetOf z)
  case tobytes => exact exec_resetOf_of_done (tobytesBody_resetOf z)
  case appterm => exact exec_of_done_idle (i := .appterm) (apptermBody_resetOf hz) (busy_resetOf z) rfl
  case detstrip => exact exec_resetOf_of_done (detstripBody_resetOf z)
  case capchk => exact exec_resetOf_of_done (capchkBody_resetOf z)
  case embed => exact exec_resetOf_of_done (embedBody_resetOf z)
  case extract => exact exec_resetOf_of_done (extractBody_resetOf z)
  case extmsg => exact exec_resetOf_of_raised (i := .extmsg) (extmsgBody_resetOf z)

end Sys2Proof.Proofs
end

section
/-! SUPPORT. What `EXTMSG` leaves is a function of the grid and the key (spec 70_reset_and_hazards.md R169,
90_conflicts.md C8). -/

namespace Sys2Proof.Proofs
open Sys2Proof.Machine

/-! ### Two scans of one grid -/

/-- `s'` has the parameters, the grid and the channel values of `s`, and every channel has been written. -/
structure SameGrid (s s' : State) : Prop where
  sizes : s'.sizes = s.sizes
  channels : s'.channels = s.channels
  cells : ∀ k, k < s.channels → ∃ v, Memory.get s.pixmem (pixCell s.sizes.nch k) = some v ∧
    Memory.get s'.pixmem (pixCell s.sizes.nch k) = some v

section
variable {s s' t t' : State} {f f' : Nat → Bit} {n n' : Nat}

/-- Two scans of one grid read the same bit of each channel that both reach. -/
theorem SameGrid.bit_eq (h : SameGrid s s') (hscan : Scanned s t f n) (hscan' : Scanned s' t' f' n') {k : Nat}
    (hk : k < n) (hk' : k < n') : f' k = f k := by
  obtain ⟨v, hv, hv'⟩ := h.cells k (hk.trans_le hscan.count_le)
  obtain ⟨u, hu, hf⟩ := hscan.bits k hk
  obtain ⟨u', hu', hf'⟩ := hscan'.bits k hk'
  rw [h.sizes] at hu'
  rw [hf, hf', hu.eq hv, hu'.eq hv']

/-- Of two scans of one grid, the one that ends first has met the terminator or the end of the grid, and so the other
ends there too. -/
theorem SameGrid.count_ge (h : SameGrid s s') (hscan : Scanned s t f n) (hscan' : Scanned s' t' f' n') : n' ≤ n := by
  by_contra hlt
  rw [not_le] at hlt
  have hbits (k : Nat) (hk : k < n) : f k = f' k := (h.bit_eq hscan hscan' hk (hk.trans hlt)).symm
  obtain ⟨hterm, -⟩ | ⟨-, hend, -⟩ := hscan.stop
  · exact hscan'.first n hlt ((termAt_congr hbits).1 hterm)
  · have hle : n' ≤ s.channels := h.channels ▸ hscan'.count_le
    omega

theorem SameGrid.symm (h : SameGrid s s') : SameGrid s' s := by
  refine ⟨h.sizes.symm, h.channels.symm, fun k hk => ?_⟩
  obtain ⟨v, hv, hv'⟩ := h.cells k (h.channels ▸ hk)
  rw [h.sizes]
  exact ⟨v, hv', hv⟩

/-- What two scans of one grid leave: as many bits read, the same answer and the same length. -/
theorem SameGrid.scan_eq (h : SameGrid s s') (hscan : Scanned s t f n) (hscan' : Scanned s' t' f' n') :
    n' = n ∧ t'.found = t.found ∧ t'.bitLen.toNat = t.bitLen.toNat := by
  obtain rfl : n' = n := le_antisymm (h.count_ge hscan hscan') (h.symm.count_ge hscan' hscan)
  have hterm : TermAt f' n' ↔ TermAt f n' := termAt_congr fun k hk => h.bit_eq hscan hscan' hk hk
  refine ⟨rfl, ?_⟩
  obtain ⟨hyes, -, hfound, hlen⟩ | ⟨hno, -, hfound, hlen⟩ := hscan.stop
  · obtain ⟨-, -, hfound', hlen'⟩ | ⟨hno', -⟩ := hscan'.stop
    · exact ⟨hfound'.trans hfound.symm, by omega⟩
    · exact absurd (hterm.2 hyes) hno'
  · obtain ⟨hyes', -⟩ | ⟨-, -, hfound', hlen'⟩ := hscan'.stop
    · exact absurd (hterm.1 hyes') hno
    · exact ⟨hfound'.trans hfound.symm, hlen'.trans hlen.symm⟩

end

/-! ### The error and the bytes -/

/-- The error of an `EXTMSG` of a legal grid, whose scan left `n` bits: that of the first test that fails, of `TOBYTES`
or of `MASK` (45_orchestration.md R121). -/
def extmsgError (z : Sizes) (keyLen : Word) (n : Nat) : ErrCode :=
  if z.byteMax < n / 8 then .bufferRange
  else if keyLen = 0 then .invalidKey
  else if z.keyMax < keyLen.toNat then .bufferRange
  else .none

/-- `t` holds the whole bytes of the bits `f` that a scan left, unmasked with the key of `s`. -/
structure Unmasked (s t : State) (f : Nat → Bit) : Prop where
  keyLen : s.keyLen ≠ 0
  byteLen : t.byteLen.toNat = t.bitLen.toNat / 8
  kidx : t.xcKidx.toNat = t.byteLen.toNat % s.keyLen.toNat
  byte : ∀ i, i < t.byteLen.toNat → ∃ k, Reads s.keymem (i % s.keyLen.toNat) k ∧
    Memory.get t.bytebuf i = some (packedByte f i ^^^ k)

/-- How an `EXTMSG` of a legal grid ends: the last clauses of O29, by the error. -/
theorem exec_extmsg_unmasked {s : State} (hz : s.sizes.wf = true) (hw : s.gridW.toNat ≤ s.sizes.wMax)
    (hh : s.gridH.toNat ≤ s.sizes.hMax) :
    ∃ (f : Nat → Bit) (n : Nat) (t : State), exec .extmsg s = .next t ∧ Scanned s t f n ∧
      t.err = (extmsgError s.sizes s.keyLen t.bitLen.toNat).code ∧ (t.err = 0 → Unmasked s t f) := by
  obtain ⟨f, n, t, g, he, hscan, hg, hlong, hfits⟩ := (extmsgRecoversTheBytes.2 s hz).2 hw hh
  refine ⟨f, n, t, he, hscan, ?_⟩
  rw [extmsgError]
  obtain hroom | hroom := lt_or_ge s.sizes.byteMax (t.bitLen.toNat / 8)
  · have herr : t.err = ErrCode.bufferRange.code := congrArg State.err (hlong hroom)
    rw [if_pos hroom, herr]
    exact ⟨rfl, nofun⟩
  obtain ⟨hbyteLen, -, hbadKey, hcompletes⟩ := hfits hroom
  rw [if_neg (not_lt.2 hroom)]
  by_cases hkey : s.keyLen = 0 ∨ s.sizes.keyMax < s.keyLen.toNat
  · have herr : t.err = (if s.keyLen = 0 then ErrCode.invalidKey else .bufferRange).code :=
      congrArg State.err (hbadKey hkey).2
    by_cases h0 : s.keyLen = 0
    · rw [if_pos h0] at herr ⊢
      rw [herr]
      exact ⟨rfl, nofun⟩
    · rw [if_neg h0] at herr
      rw [if_neg h0, if_pos (hkey.resolve_left h0), herr]
      exact ⟨rfl, nofun⟩
  · obtain ⟨h0, hk⟩ := not_or.1 hkey
    obtain ⟨hbytes, hkidx, ht⟩ := hcompletes h0 (not_lt.1 hk)
    rw [if_neg h0, if_neg hk]
    refine ⟨congrArg State.err ht, fun _ => ⟨h0, hbyteLen, hkidx, fun i hi => ?_⟩⟩
    obtain ⟨k, hkey, hget⟩ := hbytes i hi
    have hgi : g i = packedByte f i :=
      BitVec.eq_of_toNat_eq ((hg i (hbyteLen ▸ hi)).trans (packedByte_toNat f i).symm)
    exact ⟨k, hkey, hgi ▸ hget⟩

/-- Settles O43: the two scans read the same bits, and the error and the unmasked bytes are functions of these, the
parameters and the key. -/
theorem extmsgDependsOnlyOnGridAndKey : Obligations.ExtmsgDependsOnlyOnGridAndKey := by
  intro s s' hz hsizes hgridW hgridH hkeyLen hw hh hcells hkeys hkeymem
  have hgrid : SameGrid s s' := ⟨hsizes, by rw [State.channels, hgridW, hgridH, State.channels], hcells⟩
  obtain ⟨f, n, t, he, hscan, herr, hbytes⟩ := exec_extmsg_unmasked hz hw hh
  obtain ⟨f', n', t', he', hscan', herr', hbytes'⟩ := exec_extmsg_unmasked (s := s') (by rwa [hsizes])
    (by rwa [hsizes, hgridW]) (by rwa [hsizes, hgridH])
  obtain ⟨rfl, hfound, hlen⟩ := hgrid.scan_eq hscan hscan'
  have hbits (k : Nat) (hk : k < n') : f' k = f k := hgrid.bit_eq hscan hscan' hk hk
  have herrEq : t'.err = t.err := by rw [herr', herr, hsizes, hkeyLen, hlen]
  refine ⟨t, t', he, he', herrEq, hfound, BitVec.eq_of_toNat_eq hlen,
    BitVec.eq_of_toNat_eq (hscan'.cursor.trans hscan.cursor.symm), fun k hk => ?_, fun h0 => ?_⟩
  · have hk : k < n' := hk.trans_eq hscan.cursor
    rw [hscan.get_bitbuf hk, hscan'.get_bitbuf hk, hbits k hk]
  · obtain ⟨hl, hbyteLen, hkidx, hbyte⟩ := hbytes h0
    obtain ⟨-, hbyteLen', hkidx', hbyte'⟩ := hbytes' (herrEq.trans h0)
    have hlenEq : t'.byteLen.toNat = t.byteLen.toNat := by rw [hbyteLen', hbyteLen, hlen]
    refine ⟨BitVec.eq_of_toNat_eq hlenEq, BitVec.eq_of_toNat_eq (by rw [hkidx', hkidx, hlenEq, hkeyLen]),
      fun i hi => ?_⟩
    obtain ⟨k, hkey, hget⟩ := hbyte i hi
    obtain ⟨k', hkey', hget'⟩ := hbyte' i (hlenEq.symm ▸ hi)
    obtain ⟨v, hv⟩ := hkeys _ (mod_keyLen_lt hl i)
    rw [hkeyLen] at hkey'
    have hchunk (j : Nat) (hj : j < 8) : f' (8 * i + j) = f (8 * i + j) := by
      have := hscan.bitLen_le
      exact hbits _ (by omega)
    rw [hget, hget', packedByte_congr hchunk, hkey.eq hv, hkey'.eq ((hkeymem _ (mod_keyLen_lt hl i)).trans hv)]

end Sys2Proof.Proofs
end
